-- ==== Sys2Proof/Word.lean ====
section
/-! DEFINITION. The word types: operands and results are 64 bits, a command word is 200 bits (30_encoding.md R70, R72). -/

namespace Sys2Proof

/-- An operand or result field: 64 bits (R70, R72). -/
abbrev Word := BitVec 64

/-- A byte of BUF (R37). -/
abbrev Byte := BitVec 8

/-- An opcode field (R70). -/
abbrev Opcode := BitVec 8

/-- A whole command word `cmd` (R70). -/
abbrev CommandWord := BitVec 200

end Sys2Proof
end

