-- ==== Sys2Proof/Config.lean ====
section
/-! DEFINITION. What an instance of the core fixes when it is built (00_scope.md R6, R7; 10_state.md R35). -/

namespace Sys2Proof

/-- `SAMPLE_W`, the width of one sample container (R6): 8, 16 or 32. -/
inductive SampleWidth where
  | w8
  | w16
  | w32
  deriving DecidableEq, Repr

/-- `EST_DIV` (R7): the estimator divides by `BLOCK_SIZE` or by the block's sample count. -/
inductive EstimatorDivisor where
  | nominal
  | actual
  deriving DecidableEq, Repr

/-- The instantiation parameters (R6) and the decision parameters (R7) of one instance. No step changes them;
they stand in `State` so that every theorem is about every instance (DESIGN CHOICE, log 1, safe). -/
structure Config where
  sampleW : SampleWidth
  bufBytes : Nat
  smpElems : Nat
  encAlign : Bool
  decAlign : Bool
  estDiv : EstimatorDivisor
  deriving DecidableEq, Repr

/-- The ranges R6 gives the two sizes. -/
def Config.legal (c : Config) : Bool :=
  decide (20 ≤ c.bufBytes) && decide (c.bufBytes < 2 ^ 61) &&
    decide (1 ≤ c.smpElems) && decide (c.smpElems < 2 ^ 64)

/-- The decision parameters this hardware takes: never align, nominal divisor (R7). -/
def Config.thisHardware (c : Config) : Bool :=
  !c.encAlign && !c.decAlign && decide (c.estDiv = .nominal)

/-- The instance `State.reset` is in: the one the spec's programs P1 to P4 run on (95_test_vectors.md section 5),
with this hardware's decision parameters. DESIGN CHOICE, log 2: unsafe for a statement about `State.reset` alone. -/
def Config.programInstance : Config :=
  { sampleW := .w16, bufBytes := 64, smpElems := 16, encAlign := false, decAlign := false, estDiv := .nominal }

end Sys2Proof
end

