-- ==== Sys2Proof/Syntax.lean ====
section
/-! DEFINITION. The commands of the core, one constructor per row of spec/opcode_table.json (30_encoding.md R73), the
register names of 10_state.md R36 and the pseudo-instructions of R76. An operand is the 64-bit field the row uses;
a field a row does not use is no part of the command (R71). -/

namespace Sys2Proof

/-- One command. Operands are raw 64-bit fields; each meaning reads them as unsigned or as two's complement (R16). -/
inductive Instr where
  | reset
  | wrreg (reg value : Word)
  | rdreg (reg : Word)
  | ldb (addr : Word)
  | stb (addr byte : Word)
  | lds (index : Word)
  | sts (index sample : Word)
  | setpos (byte bit : Word)
  | getpos
  | wrbit (v : Word)
  | rdbit
  | wruint (width value : Word)
  | rduint (width : Word)
  | wrones (count : Word)
  | rdunary
  | align
  | bitlen (n : Word)
  | wrhdr
  | rdhdr
  | estimate (frame0 n ch : Word)
  | prdrst
  | prdenc (sample : Word)
  | prddec (diff : Word)
  | wrk
  | rdk
  | renc (diff : Word)
  | rdec
  | encblk (frame0 n ch : Word)
  | decblk (frame0 n ch : Word)
  | encode
  | decode
  deriving DecidableEq, Repr

/-- The registers `RDREG` and `WRREG` name by number (R36), in the order of their numbers 0 to 15. -/
inductive Reg where
  | channels
  | bps
  | rate
  | count
  | k
  | prev
  | acc
  | avg
  | bprl
  | status
  | curByte
  | curBit
  | idSampleW
  | idBufBytes
  | idSmpElems
  | idCfg
  deriving DecidableEq, Repr

/-- The pseudo-instructions of R76; `bufzero a n` clears `n` bytes from `a`. -/
inductive Pseudo where
  | wrunary (q : Word)
  | seek (p : Word)
  | rewind
  | payload
  | config (ch bps rate count : Word)
  | bufzero (a n : Word)
  deriving DecidableEq, Repr

end Sys2Proof
end

