-- ==== Sys2Proof/WellFormed.lean ====
section
/-! DEFINITION. The operand ranges that a command's rule fixes without looking at the state (30_encoding.md R71:
"Operand values outside the range a command's rule allows raise `IllegalOperand`"). Every term of `Instr` has an
encoding; a term outside these ranges is a command the core answers with a fault. DESIGN CHOICE, log 12, safe. -/

namespace Sys2Proof

/-- The largest number of samples of a block, `BLOCK_SIZE` (00_scope.md R5), as a bound on the operand `n`. -/
def blockOperandLegal (n : Word) : Bool := decide (n.toNat ≤ 512)

/-- A value the 32-bit registers accept (R101). -/
def fits32 (value : Word) : Bool := decide (value.toNat < 2 ^ 32)

/-- R101's ranges that no instance parameter enters: the register is 0 to 5, and a 32-bit register's value fits. -/
def wrregLegal (reg value : Word) : Bool :=
  decide (reg.toNat ≤ 5) && (decide (reg.toNat = 3) || decide (reg.toNat = 5) || fits32 value)

/-- Every operand is in the range its rule fixes whatever the state is. -/
def Instr.wellFormed : Instr → Bool
  | .reset => true
  | .wrreg reg value => wrregLegal reg value                    -- R101
  | .rdreg reg => decide (reg.toNat ≤ 15)                       -- R102
  | .ldb _ => true
  | .stb _ byte => decide (byte.toNat ≤ 255)                    -- R104
  | .lds _ => true
  | .sts _ _ => true
  | .setpos _ bit => decide (bit.toNat ≤ 7)                     -- R110
  | .getpos => true
  | .wrbit v => decide (v.toNat ≤ 1)                            -- R112
  | .rdbit => true
  | .wruint width _ => decide (width.toNat ≤ 64)                -- R114
  | .rduint width => decide (width.toNat ≤ 64)                  -- R115
  | .wrones _ => true
  | .rdunary => true
  | .align => true
  | .bitlen _ => true
  | .wrhdr => true
  | .rdhdr => true
  | .estimate _ n _ => blockOperandLegal n                      -- R140
  | .prdrst => true
  | .prdenc _ => true
  | .prddec _ => true
  | .wrk => true
  | .rdk => true
  | .renc diff => decide (diff ≠ BitVec.intMin 64)              -- R157
  | .rdec => true
  | .encblk _ n _ => blockOperandLegal n                        -- R170
  | .decblk _ n _ => blockOperandLegal n                        -- R171
  | .encode => true
  | .decode => true

end Sys2Proof
end

