-- ==== Sys2Proof/Decode.lean ====
section
/-! DEFINITION. Command words (30_encoding.md R70, R73, R74): the decoder, total on all 2^200 words, and the encoder.
The opcode alone selects the command (R70); operand fields a command does not use are ignored (R71). -/

namespace Sys2Proof

/-- Why a word is no command: its opcode is reserved (R74). -/
inductive DecodeError where
  | reservedOpcode (op : Opcode)
  deriving DecidableEq, Repr

/-- `op = cmd[7:0]` (R70). -/
def opField (w : CommandWord) : Opcode := w.extractLsb' 0 8

/-- `a0 = cmd[71:8]` (R70). -/
def a0Field (w : CommandWord) : Word := w.extractLsb' 8 64

/-- `a1 = cmd[135:72]` (R70). -/
def a1Field (w : CommandWord) : Word := w.extractLsb' 72 64

/-- `a2 = cmd[199:136]` (R70). -/
def a2Field (w : CommandWord) : Word := w.extractLsb' 136 64

/-- The opcode map of R73 over the four fields; every other opcode is reserved (R74). -/
def decodeFields (op : Opcode) (a0 a1 a2 : Word) : Except DecodeError Instr :=
  match op with
  | 0x01#8 => .ok .reset
  | 0x02#8 => .ok (.wrreg a0 a1)
  | 0x03#8 => .ok (.rdreg a0)
  | 0x04#8 => .ok (.ldb a0)
  | 0x05#8 => .ok (.stb a0 a1)
  | 0x06#8 => .ok (.lds a0)
  | 0x07#8 => .ok (.sts a0 a1)
  | 0x10#8 => .ok (.setpos a0 a1)
  | 0x11#8 => .ok .getpos
  | 0x12#8 => .ok (.wrbit a0)
  | 0x13#8 => .ok .rdbit
  | 0x14#8 => .ok (.wruint a0 a1)
  | 0x15#8 => .ok (.rduint a0)
  | 0x16#8 => .ok (.wrones a0)
  | 0x17#8 => .ok .rdunary
  | 0x18#8 => .ok .align
  | 0x19#8 => .ok (.bitlen a0)
  | 0x20#8 => .ok .wrhdr
  | 0x21#8 => .ok .rdhdr
  | 0x30#8 => .ok (.estimate a0 a1 a2)
  | 0x31#8 => .ok .prdrst
  | 0x32#8 => .ok (.prdenc a0)
  | 0x33#8 => .ok (.prddec a0)
  | 0x40#8 => .ok .wrk
  | 0x41#8 => .ok .rdk
  | 0x42#8 => .ok (.renc a0)
  | 0x43#8 => .ok .rdec
  | 0x50#8 => .ok (.encblk a0 a1 a2)
  | 0x51#8 => .ok (.decblk a0 a1 a2)
  | 0x60#8 => .ok .encode
  | 0x61#8 => .ok .decode
  | reserved => .error (.reservedOpcode reserved)

/-- The command a word stands for (R70, R73, R74). -/
def decode (w : CommandWord) : Except DecodeError Instr :=
  decodeFields (opField w) (a0Field w) (a1Field w) (a2Field w)

/-- The fields of a command: opcode, then `a0`, `a1`, `a2`; unused fields assemble to 0 (R73, R75). -/
def encodeFields : Instr → Opcode × Word × Word × Word
  | .reset => (0x01#8, 0, 0, 0)
  | .wrreg reg value => (0x02#8, reg, value, 0)
  | .rdreg reg => (0x03#8, reg, 0, 0)
  | .ldb addr => (0x04#8, addr, 0, 0)
  | .stb addr byte => (0x05#8, addr, byte, 0)
  | .lds index => (0x06#8, index, 0, 0)
  | .sts index sample => (0x07#8, index, sample, 0)
  | .setpos byte bit => (0x10#8, byte, bit, 0)
  | .getpos => (0x11#8, 0, 0, 0)
  | .wrbit v => (0x12#8, v, 0, 0)
  | .rdbit => (0x13#8, 0, 0, 0)
  | .wruint width value => (0x14#8, width, value, 0)
  | .rduint width => (0x15#8, width, 0, 0)
  | .wrones count => (0x16#8, count, 0, 0)
  | .rdunary => (0x17#8, 0, 0, 0)
  | .align => (0x18#8, 0, 0, 0)
  | .bitlen n => (0x19#8, n, 0, 0)
  | .wrhdr => (0x20#8, 0, 0, 0)
  | .rdhdr => (0x21#8, 0, 0, 0)
  | .estimate frame0 n ch => (0x30#8, frame0, n, ch)
  | .prdrst => (0x31#8, 0, 0, 0)
  | .prdenc sample => (0x32#8, sample, 0, 0)
  | .prddec diff => (0x33#8, diff, 0, 0)
  | .wrk => (0x40#8, 0, 0, 0)
  | .rdk => (0x41#8, 0, 0, 0)
  | .renc diff => (0x42#8, diff, 0, 0)
  | .rdec => (0x43#8, 0, 0, 0)
  | .encblk frame0 n ch => (0x50#8, frame0, n, ch)
  | .decblk frame0 n ch => (0x51#8, frame0, n, ch)
  | .encode => (0x60#8, 0, 0, 0)
  | .decode => (0x61#8, 0, 0, 0)

/-- The four fields laid out as R70 places them, `a2` highest. -/
def packFields (op : Opcode) (a0 a1 a2 : Word) : CommandWord :=
  op.setWidth 200 ||| (a0.setWidth 200 <<< 8) ||| (a1.setWidth 200 <<< 72) ||| (a2.setWidth 200 <<< 136)

/-- The command word of a command (R70, R73, R75). -/
def encode (i : Instr) : CommandWord :=
  packFields (encodeFields i).1 (encodeFields i).2.1 (encodeFields i).2.2.1 (encodeFields i).2.2.2

/-- The command word whose low `nbits` bits are `w`, every higher bit 0. A command word reaches the core as one
200-bit value (R70), so the table's bit numbers are the word's own (log 8). -/
def tableWord (nbits w : Nat) : CommandWord := BitVec.ofNat 200 (w % 2 ^ nbits)

/-- What the decoder reads from a row's word as spec/opcode_table.json numbers its bits. -/
def decodeTableWord (nbits w : Nat) : Option Instr :=
  match decode (tableWord nbits w) with
  | .ok i => some i
  | .error _ => none

end Sys2Proof
end

