-- ==== Sys2Proof/Machine/State.lean ====
section
/-! DEFINITION. The state of the core (10_state.md R20: "The complete architectural state of the core"), its fault
causes and responses, and reset (R43, R44). -/

namespace Sys2Proof.Machine

/-- The cause codes of 60_exceptions.md R201, but for `OK`. -/
inductive Cause where
  | illegalCommand
  | illegalOperand
  | bufBounds
  | smpBounds
  | invalidParams
  | sampleRange
  | notRecognized
  | resource
  deriving DecidableEq, Repr

/-- The fields of `STATUS` (R34). The word's other bits read 0 and nothing writes them, so they are not stored
(DEDUCED, log 10, safe). -/
structure Status where
  fseen : Bool
  fcause : BitVec 4
  hdrOk : Bool
  deriving DecidableEq, Repr

/-- The response of one command (30_encoding.md R72). -/
structure Response where
  status : BitVec 4
  r0 : Word
  r1 : Word
  deriving DecidableEq, Repr

/-- One machine: the registers and memories of R20, the constants of the instance (R6, R7; log 1), and two fields of
the MODEL's own, `pending` and `rsp`, for the input and the output of a step (logs 4 and 5). -/
structure State where
  /-- the constants of the instance; no step changes them -/
  cfg : Config
  /-- `CUR.BYTE` (R21) -/
  curByte : BitVec 64
  /-- `CUR.BIT` (R21) -/
  curBit : BitVec 3
  /-- `K` (R25) -/
  k : BitVec 32
  /-- `PREV` (R26): a container value, held as the integer it is (DEDUCED, log 9, safe) -/
  prev : Int
  /-- `ACC` (R27) -/
  acc : BitVec 64
  /-- `AVG` (R27) -/
  avg : BitVec 64
  /-- `CHANNELS` (R28) -/
  channels : BitVec 32
  /-- `BPS` (R29) -/
  bps : BitVec 32
  /-- `RATE` (R30) -/
  rate : BitVec 32
  /-- `COUNT` (R31) -/
  count : BitVec 64
  /-- `STATUS` (R34) -/
  status : Status
  /-- `BUF` (R37): the bytes that are not 0, by address -/
  buf : List Host.Cell
  /-- `SMP` (R38): the elements that are not 0, by index -/
  smp : List (Nat × Int)
  /-- the model's own: the command words the host has still to issue, oldest first (log 4) -/
  pending : List CommandWord
  /-- the model's own: the response the last step delivered, if it delivered one (log 5) -/
  rsp : Option Response
  deriving DecidableEq, Repr

/-- Nothing stops this machine: a faulting command ends with a response and the core accepts the next one
(60_exceptions.md R200; 93_implementation_defined.md: "Nothing is `stuck` or `refuse` in this hardware"). No
constructor, so no step can end so (DEDUCED, log 7, safe). -/
inductive Fault where
  deriving DecidableEq, Repr

/-- Why the model has no meaning for an instruction. -/
inductive Refusal where
  /-- raised by an arm of `exec` whose instruction has no meaning yet (none is left); safe: the model stops -/
  | notModelled (mnemonic : String)
  deriving DecidableEq, Repr

/-- How a command's body ends (00_scope.md R14, R15): with its result, or with a fault; either way in a state, since
"state changes made by steps already completed stay". -/
inductive Done (α : Type) where
  | ok (a : α) (s : State)
  | raised (c : Cause) (info : Word) (s : State)
  deriving Repr

/-- Power-on of an instance with given memory contents (R43; R44: "a model takes the initial contents as an argument
and assumes nothing of them"; 70_reset_and_hazards.md R220). No command is pending and none has been answered. -/
def State.powerOn (cfg : Config) (buf : List Host.Cell) (smp : List (Nat × Int)) : State :=
  { cfg := cfg, curByte := 0, curBit := 0, k := 0, prev := 0, acc := 0, avg := 0, channels := 0, bps := 0, rate := 0,
    count := 0, status := { fseen := false, fcause := 0, hdrOk := false }, buf := buf, smp := smp, pending := [],
    rsp := none }

/-- The machine right after power-on: every register at the value of R43. The instance (log 2) and the all-zero
memories (log 3) are DESIGN CHOICES, unsafe for a statement about this state alone. -/
def State.reset : State := State.powerOn Config.programInstance [] []

end Sys2Proof.Machine
end

