-- ==== Sys2Proof/Machine/Operands.lean ====
section
/-! DEFINITION. The constants of 00_scope.md R5, the transport of operands and results (R16), bit length (R11), sample
ranges (R6), the linear cursor position (R10), the sample index (10_state.md R39), and the register numbers (R36). -/

namespace Sys2Proof.Machine

/-! ## Constants (R5) -/

/-- `BLOCK_SIZE` (R5). -/
def blockSize : Nat := 512

/-- `UINT_MAX_W` (R5). -/
def uintMaxWidth : Nat := 64

/-- `MAGIC` (R5, R79): the bytes `b`, `t`, `w`, `f`, the first lowest (log 13). -/
def magic : Nat := 0x66777462

/-- `HEADER_BYTES` (R5). -/
def headerBytes : Nat := 20

/-! ## Transport (R16) -/

/-- An unsigned quantity in a 64-bit field. -/
def word (n : Nat) : Word := BitVec.ofNat 64 n

/-- `to_bits_64` (R12, R16). -/
def toBits64 (x : Int) : Word := BitVec.ofInt 64 x

/-- `sext_64` (R12, R16). -/
def sext64 (w : Word) : Int := w.toInt

/-- An info value saturated to `2^64 - 1` (60_exceptions.md R201). -/
def saturated (n : Nat) : Word := word (min n (2 ^ 64 - 1))

/-- The unsigned field fits a 32-bit register (40_system_host.md R101). -/
def fitsRegister32 (value : Word) : Bool := decide (value.toNat < 2 ^ 32)

/-! ## Arithmetic -/

/-- `bit_length` (R11): the index of the highest set bit, 0 for `n ≤ 1`. -/
def bitLength (n : Nat) : Nat := Nat.log2 n

/-- `ceil_div` (R12). -/
def ceilDiv (a b : Nat) : Nat := (a + b - 1) / b

/-! ## Samples (R6) -/

/-- `SAMPLE_W` in bits. -/
def sampleBits : SampleWidth → Nat
  | .w8 => 8
  | .w16 => 16
  | .w32 => 32

/-- `SMP_MIN`: the 8-bit container is unsigned, the others are signed. -/
def smpMin : SampleWidth → Int
  | .w8 => 0
  | .w16 => -(2 ^ 15)
  | .w32 => -(2 ^ 31)

/-- `SMP_MAX`. -/
def smpMax : SampleWidth → Int
  | .w8 => 255
  | .w16 => 2 ^ 15 - 1
  | .w32 => 2 ^ 31 - 1

/-- The value is one a sample container can hold. -/
def inContainer (w : SampleWidth) (x : Int) : Bool := decide (smpMin w ≤ x) && decide (x ≤ smpMax w)

/-! ## Positions, indices and derived values of a state -/

/-- `P(CUR) = 8*CUR.BYTE + CUR.BIT` (R10, 10_state.md R21). -/
def State.pos (s : State) : Nat := 8 * s.curByte.toNat + s.curBit.toNat

/-- The number of bit positions of `BUF`, `8*BUF_BYTES`. -/
def State.bufBits (s : State) : Nat := 8 * s.cfg.bufBytes

/-- `SmpIndex(f, c)` (10_state.md R39), exact. -/
def State.smpIndex (s : State) (frame ch : Nat) : Nat := frame * s.channels.toNat + ch

/-- `BPRL` (10_state.md R32). -/
def State.bprl (s : State) : Nat := bitLength s.bps.toNat

/-- The value is one a sample container of this instance can hold. -/
def State.holdsSample (s : State) (x : Int) : Bool := inContainer s.cfg.sampleW x

/-- The estimator's divisor `D` for a block of `n` samples (43_estimator_predictor.md R140). -/
def estDivisor (cfg : Config) (n : Nat) : Nat :=
  match cfg.estDiv with
  | .nominal => blockSize
  | .actual => max n 1

/-! ## Register numbers (10_state.md R36) -/

/-- The register a number names; numbers above 15 are unassigned. -/
def regOfNumber (n : Nat) : Option Reg :=
  match n with
  | 0 => some .channels
  | 1 => some .bps
  | 2 => some .rate
  | 3 => some .count
  | 4 => some .k
  | 5 => some .prev
  | 6 => some .acc
  | 7 => some .avg
  | 8 => some .bprl
  | 9 => some .status
  | 10 => some .curByte
  | 11 => some .curBit
  | 12 => some .idSampleW
  | 13 => some .idBufBytes
  | 14 => some .idSmpElems
  | 15 => some .idCfg
  | _ => none

/-- `ID_CFG` (10_state.md R35): `ENC_ALIGN` in bit 0, `DEC_ALIGN` in bit 1, `EST_DIV` in bit 2 (1 for `ACTUAL`). -/
def idCfgWord (cfg : Config) : Word :=
  word (cfg.encAlign.toNat + 2 * cfg.decAlign.toNat + 4 * (decide (cfg.estDiv = .actual)).toNat)

end Sys2Proof.Machine
end

