-- ==== Sys2Proof/Machine/Flags.lean ====
section
/-! DEFINITION. The core's only flags, the fields of `STATUS` (10_state.md R34), and the sticky fault log
(60_exceptions.md R207). -/

namespace Sys2Proof.Machine

/-- The 4-bit cause code of a response's `status` (60_exceptions.md R201). -/
def causeCode : Cause → BitVec 4
  | .illegalCommand => 1
  | .illegalOperand => 2
  | .bufBounds => 3
  | .smpBounds => 4
  | .invalidParams => 5
  | .sampleRange => 6
  | .notRecognized => 7
  | .resource => 8

/-- The word `STATUS` reads as: bit 0 `FSEEN`, bits 4:1 `FCAUSE`, bit 5 `HDR_OK`, other bits 0 (R34). -/
def statusWord (st : Status) : Word := word (st.fseen.toNat + 2 * st.fcause.toNat + 32 * st.hdrOk.toNat)

/-- The log keeps the first cause since reset (60_exceptions.md R207). -/
def logFault (c : Cause) (st : Status) : Status :=
  if st.fseen then st else { st with fseen := true, fcause := causeCode c }

/-- `STATUS.HDR_OK <- b` (R34, 42_header.md R131). -/
def setHdrOk (b : Bool) (st : Status) : Status := { st with hdrOk := b }

end Sys2Proof.Machine
end

