-- ==== Sys2Proof/Machine/Ops.lean ====
section
/-! DEFINITION. The named operations every command is made of: sparse memories in one canonical form, bits of `BUF`,
the cursor, `SMP`, register reads and writes, composition of sub-operations, responses, and TAKING A FAULT. -/

namespace Sys2Proof.Machine

variable {α β : Type}

/-! ## Memories

A memory is a list of (address, value) pairs, addresses strictly rising, no value equal to `d`, the value an unlisted
address reads as. For `BUF` and `SMP` alike `d` is 0 (DESIGN CHOICE, log 3); a list says the contents of every address,
so a statement about every list is a statement about every contents (10_state.md R44). -/

/-- The value at an address. -/
def Memory.read (d : α) : List (Nat × α) → Nat → α
  | [], _ => d
  | (b, w) :: m, a => if a = b then w else Memory.read d m a

/-- Store a value at an address, in canonical form. -/
def Memory.write [DecidableEq α] (d : α) : List (Nat × α) → Nat → α → List (Nat × α)
  | [], a, v => if v = d then [] else [(a, v)]
  | (b, w) :: m, a, v =>
    if a < b then (if v = d then (b, w) :: m else (a, v) :: (b, w) :: m)
    else if a = b then (if v = d then m else (a, v) :: m)
    else (b, w) :: Memory.write d m a v

/-- Store `d` at every address below `n`. -/
def Memory.clearBelow (n : Nat) (m : List (Nat × α)) : List (Nat × α) := m.filter fun c => decide (n ≤ c.1)

/-- Every listed address is at least `lo`, they rise strictly, and no listed value is `d`. -/
def Memory.wfFrom [DecidableEq α] (d : α) : Nat → List (Nat × α) → Bool
  | _, [] => true
  | lo, (b, w) :: m => decide (lo ≤ b) && !decide (w = d) && Memory.wfFrom d (b + 1) m

/-- The canonical form. -/
def Memory.wf [DecidableEq α] (d : α) (m : List (Nat × α)) : Bool := Memory.wfFrom d 0 m

/-! ## Named updates of the state -/

/-- Put the cursor at a linear position (00_scope.md R10). -/
def State.seek (s : State) (p : Nat) : State :=
  { s with curByte := BitVec.ofNat 64 (p / 8), curBit := BitVec.ofNat 3 (p % 8) }

/-- Replace the contents of `BUF`. -/
def State.withBuf (s : State) (m : List Host.Cell) : State := { s with buf := m }

/-- Replace the contents of `SMP`. -/
def State.withSmp (s : State) (m : List (Nat × Int)) : State := { s with smp := m }

/-- `K <- v`, a 32-bit register. -/
def State.withK (s : State) (v : Nat) : State := { s with k := BitVec.ofNat 32 v }

/-- `PREV <- x`. -/
def State.withPrev (s : State) (x : Int) : State := { s with prev := x }

/-- The three registers `ESTIMATE` writes (43_estimator_predictor.md R140). -/
def State.withEstimate (s : State) (acc avg k : Nat) : State :=
  { s with acc := BitVec.ofNat 64 acc, avg := BitVec.ofNat 64 avg, k := BitVec.ofNat 32 k }

/-- The four registers `RDHDR` loads (42_header.md R131). -/
def State.withParams (s : State) (count channels bps rate : Nat) : State :=
  { s with
    count := BitVec.ofNat 64 count, channels := BitVec.ofNat 32 channels, bps := BitVec.ofNat 32 bps,
    rate := BitVec.ofNat 32 rate }

/-- Replace the flags. -/
def State.withStatus (s : State) (st : Status) : State := { s with status := st }

/-- Deliver a response to the host (30_encoding.md R72). -/
def State.answered (s : State) (r : Response) : State := { s with rsp := some r }

/-- Every register at its reset value, both memories kept (40_system_host.md R100; 70_reset_and_hazards.md R221). -/
def State.resetRegisters (s : State) : State :=
  { State.powerOn s.cfg s.buf s.smp with pending := s.pending, rsp := s.rsp }

/-! ## Bits of `BUF` (20_memory.md R53, R54, R58) -/

/-- `BUF[a]`. -/
def readByte (m : List Host.Cell) (a : Nat) : Byte := Memory.read 0#8 m a

/-- The bit at position `p`: bit `p mod 8` of `BUF[p div 8]` (R53). -/
def bufBit (m : List Host.Cell) (p : Nat) : Bool := (readByte m (p / 8)).getLsbD (p % 8)

/-- The OR-write of one bit, `BUF[p div 8] <-| (v << (p mod 8))` (R58). -/
def orBit (m : List Host.Cell) (p : Nat) (v : Bool) : List Host.Cell :=
  Memory.write 0#8 m (p / 8) (readByte m (p / 8) ||| (BitVec.ofNat 8 v.toNat <<< (p % 8)))

/-- OR-write a run of bits at consecutive positions, the first bit at `p` (R54, R58). -/
def orBits (m : List Host.Cell) (p : Nat) : List Bool → List Host.Cell
  | [] => m
  | b :: bs => orBits (orBit m p b) (p + 1) bs

/-- The `w` bits from position `p` on, as an integer, bit `i` at position `p + i` (R54). -/
def fieldAt (m : List Host.Cell) (p : Nat) : Nat → Nat
  | 0 => 0
  | w + 1 => (bufBit m p).toNat + 2 * fieldAt m (p + 1) w

/-- The number of one-bits from position `p` on before the first 0, among the next `n` positions; none where all `n`
are 1 (41_bit_cursor.md R117). -/
def onesAt (m : List Host.Cell) (p : Nat) : Nat → Option Nat
  | 0 => none
  | n + 1 => if bufBit m p then (onesAt m (p + 1) n).map (· + 1) else some 0

/-- The low `w` bits of `v`, least significant first (R54). -/
def uintBits (w v : Nat) : List Bool := (List.range w).map v.testBit

/-! ## `SMP` -/

/-- `SMP[i]`. -/
def readSample (m : List (Nat × Int)) (i : Nat) : Int := Memory.read 0 m i

/-- `SMP[i] <- x`. -/
def State.storeSample (s : State) (i : Nat) (x : Int) : State := s.withSmp (Memory.write 0 s.smp i x)

/-! ## Sub-operations and faults (00_scope.md R14, R15) -/

/-- Do the next step, unless the one before raised a fault. -/
def Done.andThen (d : Done α) (f : α → State → Done β) : Done β :=
  match d with
  | .ok a s => f a s
  | .raised c info s => .raised c info s

/-- The state a body ends in, with its result or with a fault. -/
def Done.state : Done α → State
  | .ok _ s => s
  | .raised _ _ s => s

/-- TAKING A FAULT (60_exceptions.md R200, R203, R207, R208): the response holds the cause code and the info value, the
sticky log notes the cause, and nothing else happens. The core goes on, so this is a NEXT state. There is no return
from a fault: "a fault is over when its response is delivered" (R208). -/
def takeFault (c : Cause) (info : Word) (s : State) : Host.Outcome State Fault Refusal :=
  .next ((s.withStatus (logFault c s.status)).answered { status := causeCode c, r0 := info, r1 := 0 })

/-- End a command (30_encoding.md R72): status 0 and its results, or the fault. -/
def respond (r0 r1 : α → Word) : Done α → Host.Outcome State Fault Refusal
  | .ok a s => .next (s.answered { status := 0, r0 := r0 a, r1 := r1 a })
  | .raised c info s => takeFault c info s

/-- End a command that has no results: `r0` and `r1` are 0 (R72). -/
def respondPlain (d : Done Unit) : Host.Outcome State Fault Refusal := respond (fun _ => 0) (fun _ => 0) d

/-! ## The cursor (10_state.md R22, R23; 20_memory.md R69) -/

/-- Advance the cursor by `n` bits (10_state.md R23). -/
def State.advance (s : State) (n : Nat) : State := s.seek (s.pos + n)

/-- OR-write `w` bits, bit `i` being `f i`, and advance; the bound is checked before any bit is written (R69). -/
def putBits (w : Nat) (f : Nat → Bool) (s : State) : Done Unit :=
  if s.pos + w ≤ s.bufBits then
    .ok () ((s.withBuf (orBits s.buf s.pos ((List.range w).map f))).advance w)
  else .raised .bufBounds (word s.pos) s

/-- Read `w` bits and advance; the bound is checked before any bit is read (R69). -/
def takeBits (w : Nat) (s : State) : Done Nat :=
  if s.pos + w ≤ s.bufBits then .ok (fieldAt s.buf s.pos w) (s.advance w)
  else .raised .bufBounds (word s.pos) s

/-! ## Blocks of samples (10_state.md R39) -/

/-- The first index of the block's `n` samples from sample `i` on that is outside `SMP` (20_memory.md R69). -/
def firstOutside (s : State) (frame0 ch : Nat) : Nat → Nat → Option Nat
  | 0, _ => none
  | n + 1, i =>
    if s.cfg.smpElems ≤ s.smpIndex (frame0 + i) ch then some (s.smpIndex (frame0 + i) ch)
    else firstOutside s frame0 ch n (i + 1)

/-- The samples of the block, in frame order. -/
def blockSamples (s : State) (frame0 n ch : Nat) : List Int :=
  (List.range n).map fun i => readSample s.smp (s.smpIndex (frame0 + i) ch)

/-! ## Registers (10_state.md R36) -/

/-- What `RDREG` returns for a register (40_system_host.md R102). -/
def readReg (s : State) : Reg → Word
  | .channels => word s.channels.toNat
  | .bps => word s.bps.toNat
  | .rate => word s.rate.toNat
  | .count => s.count
  | .k => word s.k.toNat
  | .prev => toBits64 s.prev
  | .acc => s.acc
  | .avg => s.avg
  | .bprl => word s.bprl
  | .status => statusWord s.status
  | .curByte => s.curByte
  | .curBit => word s.curBit.toNat
  | .idSampleW => word (sampleBits s.cfg.sampleW)
  | .idBufBytes => word s.cfg.bufBytes
  | .idSmpElems => word s.cfg.smpElems
  | .idCfg => idCfgWord s.cfg

/-- Numbers 0 to 5 are writable (R36). -/
def regWritable : Reg → Bool
  | .channels => true
  | .bps => true
  | .rate => true
  | .count => true
  | .k => true
  | .prev => true
  | .acc => false
  | .avg => false
  | .bprl => false
  | .status => false
  | .curByte => false
  | .curBit => false
  | .idSampleW => false
  | .idBufBytes => false
  | .idSmpElems => false
  | .idCfg => false

/-- The values `WRREG` accepts for a register (R36, R101); none for a read-only one. -/
def regAccepts (s : State) (value : Word) : Reg → Bool
  | .channels => fitsRegister32 value
  | .bps => fitsRegister32 value
  | .rate => fitsRegister32 value
  | .count => true
  | .k => fitsRegister32 value
  | .prev => s.holdsSample (sext64 value)
  | .acc => false
  | .avg => false
  | .bprl => false
  | .status => false
  | .curByte => false
  | .curBit => false
  | .idSampleW => false
  | .idBufBytes => false
  | .idSmpElems => false
  | .idCfg => false

/-- Write an accepted value (R101); a read-only register keeps its value. -/
def writeReg (s : State) (value : Word) : Reg → State
  | .channels => { s with channels := BitVec.ofNat 32 value.toNat }
  | .bps => { s with bps := BitVec.ofNat 32 value.toNat }
  | .rate => { s with rate := BitVec.ofNat 32 value.toNat }
  | .count => { s with count := value }
  | .k => s.withK value.toNat
  | .prev => s.withPrev (sext64 value)
  | .acc => s
  | .avg => s
  | .bprl => s
  | .status => s
  | .curByte => s
  | .curBit => s
  | .idSampleW => s
  | .idBufBytes => s
  | .idSmpElems => s
  | .idCfg => s

/-! ## The next command word (10_state.md R24, R45) -/

/-- The word the host issues next, and the state once the core has accepted it. -/
def fetch (s : State) : Option (CommandWord × State) :=
  match s.pending with
  | [] => none
  | w :: rest => some (w, { s with pending := rest })

/-- No command has been issued: the core waits (10_state.md R45), and no response is delivered (log 6). -/
def await (s : State) : Host.Outcome State Fault Refusal := .next { s with rsp := none }

/-- A reserved opcode raises `IllegalCommand(op)` and changes only the fault log (30_encoding.md R74). -/
def rejectWord (e : DecodeError) (s : State) : Host.Outcome State Fault Refusal :=
  match e with
  | .reservedOpcode op => takeFault .illegalCommand (word op.toNat) s

/-! ## The response word (30_encoding.md R72) -/

/-- The 132 bits of a response: `status` in 3:0, `r0` in 67:4, `r1` in 131:68. -/
def responseWord (r : Response) : BitVec 132 :=
  r.status.setWidth 132 ||| (r.r0.setWidth 132 <<< 4) ||| (r.r1.setWidth 132 <<< 68)

end Sys2Proof.Machine
end

