-- ==== Sys2Proof/Machine/Cursor.lean ====
section
/-! DEFINITION. Bit cursor commands (41_bit_cursor.md): SETPOS, GETPOS, WRBIT, RDBIT, WRUINT, RDUINT, WRONES, RDUNARY,
ALIGN, BITLEN. The bodies take unsigned operands as integers, so that composite commands use them too (R15). -/

namespace Sys2Proof.Machine

/-- Body of `SETPOS` (R110): the bit is checked first, then the position. -/
def opSetpos (byte bit : Nat) (s : State) : Done Unit :=
  if bit ≤ 7 then
    if 8 * byte + bit ≤ s.bufBits then .ok () (s.seek (8 * byte + bit))
    else .raised .illegalOperand (word byte) s
  else .raised .illegalOperand (word bit) s

/-- Body of `WRBIT` (R112). -/
def opWrbit (v : Nat) (s : State) : Done Unit :=
  if v ≤ 1 then putBits 1 v.testBit s else .raised .illegalOperand (word v) s

/-- Body of `RDBIT` (R113). -/
def opRdbit (s : State) : Done Nat := takeBits 1 s

/-- Body of `WRUINT` (R114): the bits of `value` at and above `width` are not looked at. -/
def opWruint (width value : Nat) (s : State) : Done Unit :=
  if width ≤ uintMaxWidth then putBits width value.testBit s else .raised .illegalOperand (word width) s

/-- Body of `RDUINT` (R115). -/
def opRduint (width : Nat) (s : State) : Done Nat :=
  if width ≤ uintMaxWidth then takeBits width s else .raised .illegalOperand (word width) s

/-- Body of `WRONES` (R116). -/
def opWrones (count : Nat) (s : State) : Done Unit := putBits count (fun _ => true) s

/-- Body of `RDUNARY` (R117): the run must end, with its terminator, inside `BUF`. -/
def opRdunary (s : State) : Done Nat :=
  match onesAt s.buf s.pos (s.bufBits - s.pos) with
  | some q => .ok q (s.advance (q + 1))
  | none => .raised .bufBounds (word s.pos) s

/-- Body of `ALIGN` (R118). -/
def opAlign (s : State) : Done Unit :=
  if s.curBit = 0 then .ok () s else .ok () (s.seek (8 * (s.curByte.toNat + 1)))

/-- `SETPOS byte, bit` (R110). -/
def execSetpos (byte bit : Word) (s : State) : Host.Outcome State Fault Refusal :=
  respondPlain (opSetpos byte.toNat bit.toNat s)

/-- `GETPOS` (R111): `r0` is `CUR.BYTE`, `r1` is `CUR.BIT`. -/
def execGetpos (s : State) : Host.Outcome State Fault Refusal :=
  respond (fun p => p.1) (fun p => p.2) (.ok (s.curByte, word s.curBit.toNat) s)

/-- `WRBIT v` (R112). -/
def execWrbit (v : Word) (s : State) : Host.Outcome State Fault Refusal := respondPlain (opWrbit v.toNat s)

/-- `RDBIT` (R113): `r0` is the bit. -/
def execRdbit (s : State) : Host.Outcome State Fault Refusal := respond word (fun _ => 0) (opRdbit s)

/-- `WRUINT width, value` (R114). -/
def execWruint (width value : Word) (s : State) : Host.Outcome State Fault Refusal :=
  respondPlain (opWruint width.toNat value.toNat s)

/-- `RDUINT width` (R115): `r0` is the value, zero-extended. -/
def execRduint (width : Word) (s : State) : Host.Outcome State Fault Refusal :=
  respond word (fun _ => 0) (opRduint width.toNat s)

/-- `WRONES count` (R116). -/
def execWrones (count : Word) (s : State) : Host.Outcome State Fault Refusal := respondPlain (opWrones count.toNat s)

/-- `RDUNARY` (R117): `r0` is the length of the run. -/
def execRdunary (s : State) : Host.Outcome State Fault Refusal := respond word (fun _ => 0) (opRdunary s)

/-- `ALIGN` (R118). -/
def execAlign (s : State) : Host.Outcome State Fault Refusal := respondPlain (opAlign s)

/-- `BITLEN n` (R119): a free function of its operand. -/
def execBitlen (n : Word) (s : State) : Host.Outcome State Fault Refusal :=
  respond word (fun _ => 0) (.ok (bitLength n.toNat) s)

end Sys2Proof.Machine
end

