-- ==== Sys2Proof/Machine/Codeword.lean ====
section
/-! DEFINITION. Rice parameter field and codeword commands (44_rice_codeword.md): WRK, RDK, RENC, RDEC. The format is
30_encoding.md R80 to R86. -/

namespace Sys2Proof.Machine

/-- The largest `K` a codeword can be coded with: the remainder is one fixed-width access (R157, R158). -/
def maxRiceWidth : Nat := uintMaxWidth

/-- Body of `WRK` (R155): the low `BPRL` bits of `K`. -/
def opWrk (s : State) : Done Unit := opWruint s.bprl s.k.toNat s

/-- Body of `RDK` (R156): `K <- RDUINT BPRL`. -/
def opRdk (s : State) : Done Nat :=
  (opRduint s.bprl s).andThen fun k s1 => .ok k (s1.withK k)

/-- Body of `RENC` (R157): everything is checked before any bit is written; the result is the codeword's length. -/
def opRenc (diff : Word) (s : State) : Done Nat :=
  let d := sext64 diff
  let k := s.k.toNat
  let a := d.natAbs
  let q := a >>> k
  let r := a % 2 ^ k
  if d = -(2 ^ 63) then .raised .illegalOperand diff s
  else if k ≤ maxRiceWidth then
    if s.pos + (2 + q + k) ≤ s.bufBits then
      (opWrbit (if d < 0 then 1 else 0) s).andThen fun _ s1 =>
      (opWrones q s1).andThen fun _ s2 =>
      (opWrbit 0 s2).andThen fun _ s3 =>
      (opWruint k r s3).andThen fun _ s4 =>
      .ok (2 + q + k) s4
    else .raised .bufBounds (word s.pos) s
  else .raised .illegalOperand (word k) s

/-- The sign, the unary run and the remainder of `RDEC`, and what they stand for (R158, 30_encoding.md R84): the
difference and the number of bits. -/
def readCodeword (k : Nat) (s : State) : Done (Int × Nat) :=
  (opRdbit s).andThen fun sg s1 =>
  (opRdunary s1).andThen fun q s2 =>
  (opRduint k s2).andThen fun r s3 =>
  let a := (q <<< k) ||| r
  if a ≤ 2 ^ 63 - 1 then .ok (if sg = 1 then -(a : Int) else (a : Int), 2 + q + k) s3
  else .raised .sampleRange (word s.pos) s3

/-- Body of `RDEC` (R158): on any fault the cursor is put back to the start of the codeword and the info value is that
position. -/
def opRdec (s : State) : Done (Int × Nat) :=
  if s.k.toNat ≤ maxRiceWidth then
    match readCodeword s.k.toNat s with
    | .ok r s1 => .ok r s1
    | .raised c _ s1 => .raised c (word s.pos) (s1.seek s.pos)
  else .raised .illegalOperand (word s.k.toNat) s

/-- `WRK` (R155). -/
def execWrk (s : State) : Host.Outcome State Fault Refusal := respondPlain (opWrk s)

/-- `RDK` (R156): `r0` is `K`. -/
def execRdk (s : State) : Host.Outcome State Fault Refusal := respond word (fun _ => 0) (opRdk s)

/-- `RENC diff` (R157): `r0` is the number of bits written. -/
def execRenc (diff : Word) (s : State) : Host.Outcome State Fault Refusal :=
  respond word (fun _ => 0) (opRenc diff s)

/-- `RDEC` (R158): `r0` is the difference, `r1` the number of bits consumed. -/
def execRdec (s : State) : Host.Outcome State Fault Refusal :=
  respond (fun p => toBits64 p.1) (fun p => word p.2) (opRdec s)

end Sys2Proof.Machine
end

