-- ==== Sys2Proof/Machine/Predictor.lean ====
section
/-! DEFINITION. Adaptive parameter estimator and differential predictor (43_estimator_predictor.md): ESTIMATE, PRDRST,
PRDENC, PRDDEC. All arithmetic is on integers and exact (R141). -/

namespace Sys2Proof.Machine

/-- `Σ |sample[i] − sample[i−1]|` with `ref` before the first sample (R140). -/
def absDiffSum (ref : Int) : List Int → Nat
  | [] => 0
  | x :: xs => (x - ref).natAbs + absDiffSum x xs

/-- `AVG` for a block of samples (R140): floor division (R141). -/
def blockAverage (cfg : Config) (xs : List Int) : Nat := absDiffSum 0 xs / estDivisor cfg xs.length

/-- The Rice parameter the estimator gives a block of samples (R140). -/
def blockParameter (cfg : Config) (xs : List Int) : Nat := bitLength (blockAverage cfg xs)

/-- Body of `ESTIMATE` (R140): `n`, then `ch`, then the indices are checked; results `K` and `AVG`. -/
def opEstimate (frame0 n ch : Nat) (s : State) : Done (Nat × Nat) :=
  if n ≤ blockSize then
    if ch < s.channels.toNat then
      match firstOutside s frame0 ch n 0 with
      | some index => .raised .smpBounds (saturated index) s
      | none =>
        let xs := blockSamples s frame0 n ch
        let avg := blockAverage s.cfg xs
        let k := blockParameter s.cfg xs
        .ok (k, avg) (s.withEstimate (absDiffSum 0 xs) avg k)
    else .raised .illegalOperand (word ch) s
  else .raised .illegalOperand (word n) s

/-- Body of `PRDRST` (R143). -/
def opPrdrst (s : State) : Done Unit := .ok () (s.withPrev 0)

/-- Body of `PRDENC` (R144): the exact difference, then the sample is the new reference. -/
def opPrdenc (sample : Word) (s : State) : Done Int :=
  if s.holdsSample (sext64 sample) then .ok (sext64 sample - s.prev) (s.withPrev (sext64 sample))
  else .raised .illegalOperand sample s

/-- Body of `PRDDEC` (R145): the sum must be a container value. -/
def opPrddec (diff : Word) (s : State) : Done Int :=
  if s.holdsSample (s.prev + sext64 diff) then .ok (s.prev + sext64 diff) (s.withPrev (s.prev + sext64 diff))
  else .raised .sampleRange (toBits64 (s.prev + sext64 diff)) s

/-- `ESTIMATE frame0, n, ch` (R140): `r0` is `K`, `r1` is `AVG`. -/
def execEstimate (frame0 n ch : Word) (s : State) : Host.Outcome State Fault Refusal :=
  respond (fun p => word p.1) (fun p => word p.2) (opEstimate frame0.toNat n.toNat ch.toNat s)

/-- `PRDRST` (R143). -/
def execPrdrst (s : State) : Host.Outcome State Fault Refusal := respondPlain (opPrdrst s)

/-- `PRDENC sample` (R144): `r0` is the difference. -/
def execPrdenc (sample : Word) (s : State) : Host.Outcome State Fault Refusal :=
  respond toBits64 (fun _ => 0) (opPrdenc sample s)

/-- `PRDDEC diff` (R145): `r0` is the sample. -/
def execPrddec (diff : Word) (s : State) : Host.Outcome State Fault Refusal :=
  respond toBits64 (fun _ => 0) (opPrddec diff s)

end Sys2Proof.Machine
end

