-- ==== Sys2Proof/Machine/Block.lean ====
section
/-! DEFINITION. Block commands (45_block.md): ENCBLK, DECBLK. Each is a sequence of the smaller commands; a fault of one
of them ends it and keeps what was done before (60_exceptions.md R206). -/

namespace Sys2Proof.Machine

/-- The coding loop of `ENCBLK` over the block's samples (R170): the codeword of `sample − prev`, then `prev = sample`. -/
def encSamples : List Int → State → Done Unit
  | [], s => .ok () s
  | x :: xs, s =>
    (opRenc (toBits64 (x - s.prev)) s).andThen fun _ s1 => encSamples xs (s1.withPrev x)

/-- Body of `ENCBLK` (R170). The samples are those the estimate read: nothing changes `SMP` or `CHANNELS` in between.
Where `WRK` faults, `PREV` keeps its old value, as the steps of R170 and 60_exceptions.md R206 have it; one sentence of R170
says 0 (DESIGN CHOICE, log 18, unsafe). -/
def opEncblk (frame0 n ch : Nat) (s : State) : Done Nat :=
  if n ≤ blockSize then
    if ch < s.channels.toNat then
      (opEstimate frame0 n ch s).andThen fun _ s1 =>
      (opWrk s1).andThen fun _ s2 =>
      (opPrdrst s2).andThen fun _ s3 =>
      (encSamples (blockSamples s3 frame0 n ch) s3).andThen fun _ s4 =>
      .ok s4.k.toNat s4
    else .raised .illegalOperand (word ch) s
  else .raised .illegalOperand (word n) s

/-- The decoding loop of `DECBLK` (R171): `n` samples from sample `i` on. -/
def decSamples (frame0 ch : Nat) : Nat → Nat → State → Done Unit
  | 0, _, s => .ok () s
  | n + 1, i, s =>
    (opRdec s).andThen fun d s1 =>
    (opPrddec (toBits64 d.1) s1).andThen fun x s2 =>
    decSamples frame0 ch n (i + 1) (s2.storeSample (s2.smpIndex (frame0 + i) ch) x)

/-- Body of `DECBLK` (R171): operands and indices are checked before anything changes. Where `RDK` faults, `K` and `PREV`
keep their old values, as the steps have it (DESIGN CHOICE, log 18, unsafe). -/
def opDecblk (frame0 n ch : Nat) (s : State) : Done Nat :=
  if n ≤ blockSize then
    if ch < s.channels.toNat then
      match firstOutside s frame0 ch n 0 with
      | some index => .raised .smpBounds (saturated index) s
      | none =>
        (opRdk s).andThen fun _ s1 =>
        (opPrdrst s1).andThen fun _ s2 =>
        (decSamples frame0 ch n 0 s2).andThen fun _ s3 =>
        .ok s3.k.toNat s3
    else .raised .illegalOperand (word ch) s
  else .raised .illegalOperand (word n) s

/-- `ENCBLK frame0, n, ch` (R170): `r0` is `K`. -/
def execEncblk (frame0 n ch : Word) (s : State) : Host.Outcome State Fault Refusal :=
  respond word (fun _ => 0) (opEncblk frame0.toNat n.toNat ch.toNat s)

/-- `DECBLK frame0, n, ch` (R171): `r0` is `K`. -/
def execDecblk (frame0 n ch : Word) (s : State) : Host.Outcome State Fault Refusal :=
  respond word (fun _ => 0) (opDecblk frame0.toNat n.toNat ch.toNat s)

end Sys2Proof.Machine
end

