-- ==== Sys2Proof/Machine/Header.lean ====
section
/-! DEFINITION. Header codec commands (42_header.md): WRHDR, RDHDR. The layout is 30_encoding.md R78. -/

namespace Sys2Proof.Machine

/-- Body of `WRHDR` (R130): five fields through the cursor from `(0, 0)`; `CHANNELS` and `BPS` give their low 16 bits
(R132). -/
def opWrhdr (s : State) : Done Unit :=
  (opWruint 32 magic (s.seek 0)).andThen fun _ s1 =>
  (opWruint 64 s1.count.toNat s1).andThen fun _ s2 =>
  (opWruint 16 s2.channels.toNat s2).andThen fun _ s3 =>
  (opWruint 16 s3.bps.toNat s3).andThen fun _ s4 =>
  opWruint 32 s4.rate.toNat s4

/-- The four fields after the magic, into their registers, zero-extended (R131, R132). The registers are written once
all four are read, which is the same as one after the other since none of the reads can fault (log 15). -/
def loadParams (s : State) : Done Unit :=
  (opRduint 64 s).andThen fun count s1 =>
  (opRduint 16 s1).andThen fun channels s2 =>
  (opRduint 16 s2).andThen fun bps s3 =>
  (opRduint 32 s3).andThen fun rate s4 =>
  .ok () (s4.withParams count channels bps rate)

/-- Body of `RDHDR` (R131): the result says whether the magic matched; a mismatch is an outcome, not a fault
(60_exceptions.md R211), leaves the parameter registers alone and the cursor at `(4, 0)`. -/
def opRdhdr (s : State) : Done Bool :=
  (opRduint 32 (s.seek 0)).andThen fun m s1 =>
  if m = magic then
    (loadParams s1).andThen fun _ s2 => .ok true (s2.withStatus (setHdrOk true s2.status))
  else .ok false (s1.withStatus (setHdrOk false s1.status))

/-- `WRHDR` (R130). -/
def execWrhdr (s : State) : Host.Outcome State Fault Refusal := respondPlain (opWrhdr s)

/-- `RDHDR` (R131): `r0` is 1 when the header was recognised, else 0. -/
def execRdhdr (s : State) : Host.Outcome State Fault Refusal :=
  respond (fun b => word b.toNat) (fun _ => 0) (opRdhdr s)

end Sys2Proof.Machine
end

