-- ==== Sys2Proof/Machine/Stream.lean ====
section
/-! DEFINITION. Stream commands (46_stream.md): ENCODE, DECODE. -/

namespace Sys2Proof.Machine

/-- The register number of the first zero stream parameter, in the order `CHANNELS`, `BPS`, `RATE`, `COUNT` (R187);
none exactly when `ParamsValid` (10_state.md R33). -/
def firstZeroParam (s : State) : Option Nat :=
  if s.channels = 0 then some 0
  else if s.bps = 0 then some 1
  else if s.rate = 0 then some 2
  else if s.count = 0 then some 3
  else none

/-- The number of elements of the whole sample buffer, `COUNT * CHANNELS`, exact (10_state.md R31). -/
def State.elements (s : State) : Nat := s.count.toNat * s.channels.toNat

/-- The validity check (R187), then the capacity check (R188). -/
def checkStream (s : State) : Done Unit :=
  match firstZeroParam s with
  | some reg => .raised .invalidParams (word reg) s
  | none => if s.elements ≤ s.cfg.smpElems then .ok () s else .raised .resource (saturated s.elements) s

/-- One block command per channel, `todo` channels from `c` on in increasing order (R183). -/
def overChannels (cmd : Nat → State → Done Nat) : Nat → Nat → State → Done Unit
  | 0, _, s => .ok () s
  | todo + 1, c, s => (cmd c s).andThen fun _ s1 => overChannels cmd todo (c + 1) s1

/-- The number of frames of block `b` (R180). -/
def blockFrames (count b : Nat) : Nat := min blockSize (count - blockSize * b)

/-- The number of blocks (R180). -/
def blockCount (count : Nat) : Nat := ceilDiv count blockSize

/-- The block loop (R183), with the alignment rule after all channels of each block (R184): `todo` blocks from `b` on.
`cmd frame0 n c` is the block command. -/
def overBlocks (cmd : Nat → Nat → Nat → State → Done Nat) (align : Bool) (count channels : Nat) :
    Nat → Nat → State → Done Unit
  | 0, _, s => .ok () s
  | todo + 1, b, s =>
    (overChannels (cmd (blockSize * b) (blockFrames count b)) channels 0 s).andThen fun _ s1 =>
    (if align then opAlign s1 else .ok () s1).andThen fun _ s2 =>
    overBlocks cmd align count channels todo (b + 1) s2

/-- The length result of `ENCODE` (R185). -/
def State.lengthInBytes (s : State) : Nat := s.curByte.toNat + (if s.curBit = 0 then 0 else 1)

/-- Body of `ENCODE` (R181): checks, clear all of `BUF`, header, block loop. -/
def opEncode (s : State) : Done Nat :=
  (checkStream s).andThen fun _ s0 =>
  (opWrhdr (s0.withBuf (Memory.clearBelow s0.cfg.bufBytes s0.buf))).andThen fun _ s1 =>
  (overBlocks opEncblk s1.cfg.encAlign s1.count.toNat s1.channels.toNat (blockCount s1.count.toNat) 0 s1).andThen
    fun _ s2 => .ok s2.lengthInBytes s2

/-- Body of `DECODE` (R182): header, recognition, checks on the parameters just loaded, block loop. -/
def opDecode (s : State) : Done Nat :=
  (opRdhdr s).andThen fun recognised s0 =>
  if recognised then
    (checkStream s0).andThen fun _ s1 =>
    (overBlocks opDecblk s1.cfg.decAlign s1.count.toNat s1.channels.toNat (blockCount s1.count.toNat) 0 s1).andThen
      fun _ s2 => .ok s2.elements s2
  else .raised .notRecognized (word (fieldAt s0.buf 0 32)) s0

/-- `ENCODE` (R181): `r0` is the length of the stream in bytes. -/
def execEncode (s : State) : Host.Outcome State Fault Refusal := respond word (fun _ => 0) (opEncode s)

/-- `DECODE` (R182): `r0` is the number of elements produced. -/
def execDecode (s : State) : Host.Outcome State Fault Refusal := respond word (fun _ => 0) (opDecode s)

end Sys2Proof.Machine
end

