-- ==== Sys2Proof/Machine/System.lean ====
section
/-! DEFINITION. System and host-port commands (40_system_host.md): RESET, WRREG, RDREG, LDB, STB, LDS, STS. -/

namespace Sys2Proof.Machine

/-- Body of `WRREG` (R101): the register number is checked first, then the value. -/
def opWrreg (reg value : Word) (s : State) : Done Unit :=
  match regOfNumber reg.toNat with
  | none => .raised .illegalOperand reg s
  | some r =>
    if regWritable r then
      if regAccepts s value r then .ok () (writeReg s value r) else .raised .illegalOperand value s
    else .raised .illegalOperand reg s

/-- Body of `RDREG` (R102). -/
def opRdreg (reg : Word) (s : State) : Done Word :=
  match regOfNumber reg.toNat with
  | none => .raised .illegalOperand reg s
  | some r => .ok (readReg s r) s

/-- Body of `LDB` (R103). -/
def opLdb (addr : Word) (s : State) : Done Word :=
  if addr.toNat < s.cfg.bufBytes then .ok (word (readByte s.buf addr.toNat).toNat) s
  else .raised .bufBounds addr s

/-- Body of `STB` (R104): a plain store; the address is checked first, then the byte. -/
def opStb (addr byte : Word) (s : State) : Done Unit :=
  if addr.toNat < s.cfg.bufBytes then
    if byte.toNat ≤ 255 then .ok () (s.withBuf (Memory.write 0#8 s.buf addr.toNat (BitVec.ofNat 8 byte.toNat)))
    else .raised .illegalOperand byte s
  else .raised .bufBounds addr s

/-- Body of `LDS` (R105). -/
def opLds (index : Word) (s : State) : Done Word :=
  if index.toNat < s.cfg.smpElems then .ok (toBits64 (readSample s.smp index.toNat)) s
  else .raised .smpBounds index s

/-- Body of `STS` (R106): the index is checked first, then the sample against the container. -/
def opSts (index sample : Word) (s : State) : Done Unit :=
  if index.toNat < s.cfg.smpElems then
    if s.holdsSample (sext64 sample) then .ok () (s.storeSample index.toNat (sext64 sample))
    else .raised .illegalOperand sample s
  else .raised .smpBounds index s

/-- `RESET` (R100): every register at its reset value, `BUF` and `SMP` kept. -/
def execReset (s : State) : Host.Outcome State Fault Refusal := respondPlain (.ok () s.resetRegisters)

/-- `WRREG reg, value` (R101). -/
def execWrreg (reg value : Word) (s : State) : Host.Outcome State Fault Refusal := respondPlain (opWrreg reg value s)

/-- `RDREG reg` (R102): `r0` is the value. -/
def execRdreg (reg : Word) (s : State) : Host.Outcome State Fault Refusal := respond id (fun _ => 0) (opRdreg reg s)

/-- `LDB addr` (R103): `r0` is the byte. -/
def execLdb (addr : Word) (s : State) : Host.Outcome State Fault Refusal := respond id (fun _ => 0) (opLdb addr s)

/-- `STB addr, byte` (R104). -/
def execStb (addr byte : Word) (s : State) : Host.Outcome State Fault Refusal := respondPlain (opStb addr byte s)

/-- `LDS index` (R105): `r0` is the sample. -/
def execLds (index : Word) (s : State) : Host.Outcome State Fault Refusal := respond id (fun _ => 0) (opLds index s)

/-- `STS index, sample` (R106). -/
def execSts (index sample : Word) (s : State) : Host.Outcome State Fault Refusal := respondPlain (opSts index sample s)

end Sys2Proof.Machine
end

