-- ==== Sys2Proof/Machine/Dispatch.lean ====
section
/-! DEFINITION. One arm per command, each one call of its meaning. -/

namespace Sys2Proof.Machine

/-- What a command does (30_encoding.md R73). -/
def exec (i : Instr) (s : State) : Host.Outcome State Fault Refusal :=
  match i with
  | .reset => Sys2Proof.Machine.execReset s
  | .wrreg reg value => Sys2Proof.Machine.execWrreg reg value s
  | .rdreg reg => Sys2Proof.Machine.execRdreg reg s
  | .ldb addr => Sys2Proof.Machine.execLdb addr s
  | .stb addr byte => Sys2Proof.Machine.execStb addr byte s
  | .lds index => Sys2Proof.Machine.execLds index s
  | .sts index sample => Sys2Proof.Machine.execSts index sample s
  | .setpos byte bit => Sys2Proof.Machine.execSetpos byte bit s
  | .getpos => Sys2Proof.Machine.execGetpos s
  | .wrbit v => Sys2Proof.Machine.execWrbit v s
  | .rdbit => Sys2Proof.Machine.execRdbit s
  | .wruint width value => Sys2Proof.Machine.execWruint width value s
  | .rduint width => Sys2Proof.Machine.execRduint width s
  | .wrones count => Sys2Proof.Machine.execWrones count s
  | .rdunary => Sys2Proof.Machine.execRdunary s
  | .align => Sys2Proof.Machine.execAlign s
  | .bitlen n => Sys2Proof.Machine.execBitlen n s
  | .wrhdr => Sys2Proof.Machine.execWrhdr s
  | .rdhdr => Sys2Proof.Machine.execRdhdr s
  | .estimate frame0 n ch => Sys2Proof.Machine.execEstimate frame0 n ch s
  | .prdrst => Sys2Proof.Machine.execPrdrst s
  | .prdenc sample => Sys2Proof.Machine.execPrdenc sample s
  | .prddec diff => Sys2Proof.Machine.execPrddec diff s
  | .wrk => Sys2Proof.Machine.execWrk s
  | .rdk => Sys2Proof.Machine.execRdk s
  | .renc diff => Sys2Proof.Machine.execRenc diff s
  | .rdec => Sys2Proof.Machine.execRdec s
  | .encblk frame0 n ch => Sys2Proof.Machine.execEncblk frame0 n ch s
  | .decblk frame0 n ch => Sys2Proof.Machine.execDecblk frame0 n ch s
  | .encode => Sys2Proof.Machine.execEncode s
  | .decode => Sys2Proof.Machine.execDecode s

end Sys2Proof.Machine
end

