-- ==== Sys2Proof/Machine/Step.lean ====
section
/-! DEFINITION. One step: take the host's next command word, decode it, run it (10_state.md R24; 20_memory.md R65). -/

namespace Sys2Proof.Machine

/-- Without a command word the core waits (R45); a word that is no command raises `IllegalCommand` (30_encoding.md R74);
a command is run on the state from which its word has been taken. -/
def step (s : State) : Host.Outcome State Fault Refusal :=
  match fetch s with
  | none => await s
  | some (w, s1) =>
    match decode w with
    | .ok i => exec i s1
    | .error e => rejectWord e s1

/-- `s` with one command word put where `step` fetches next: in front of the words still to be issued (log 4). -/
def State.withFetchWord (s : State) (nbits w : Nat) : State := { s with pending := tableWord nbits w :: s.pending }

end Sys2Proof.Machine
end

