-- ==== Sys2Proof/Machine/Assembly.lean ====
section
/-! DEFINITION. Assembler syntax and pseudo-instructions (30_encoding.md R75, R76). `encode` is the assembler proper:
unused operand fields assemble to 0. -/

namespace Sys2Proof.Machine

/-- The mnemonic of R73. -/
def mnemonic : Instr → String
  | .reset => "RESET"
  | .wrreg _ _ => "WRREG"
  | .rdreg _ => "RDREG"
  | .ldb _ => "LDB"
  | .stb _ _ => "STB"
  | .lds _ => "LDS"
  | .sts _ _ => "STS"
  | .setpos _ _ => "SETPOS"
  | .getpos => "GETPOS"
  | .wrbit _ => "WRBIT"
  | .rdbit => "RDBIT"
  | .wruint _ _ => "WRUINT"
  | .rduint _ => "RDUINT"
  | .wrones _ => "WRONES"
  | .rdunary => "RDUNARY"
  | .align => "ALIGN"
  | .bitlen _ => "BITLEN"
  | .wrhdr => "WRHDR"
  | .rdhdr => "RDHDR"
  | .estimate _ _ _ => "ESTIMATE"
  | .prdrst => "PRDRST"
  | .prdenc _ => "PRDENC"
  | .prddec _ => "PRDDEC"
  | .wrk => "WRK"
  | .rdk => "RDK"
  | .renc _ => "RENC"
  | .rdec => "RDEC"
  | .encblk _ _ _ => "ENCBLK"
  | .decblk _ _ _ => "DECBLK"
  | .encode => "ENCODE"
  | .decode => "DECODE"

/-- The operands a command uses, in the order `a0, a1, a2`, as numbers: the columns "u" and "s" of R73. The value of
`WRREG` is signed when the register is `PREV`. -/
def operandValues : Instr → List Int
  | .reset => []
  | .wrreg reg value => [reg.toNat, if reg.toNat = 5 then sext64 value else value.toNat]
  | .rdreg reg => [reg.toNat]
  | .ldb addr => [addr.toNat]
  | .stb addr byte => [addr.toNat, byte.toNat]
  | .lds index => [index.toNat]
  | .sts index sample => [index.toNat, sext64 sample]
  | .setpos byte bit => [byte.toNat, bit.toNat]
  | .getpos => []
  | .wrbit v => [v.toNat]
  | .rdbit => []
  | .wruint width value => [width.toNat, value.toNat]
  | .rduint width => [width.toNat]
  | .wrones count => [count.toNat]
  | .rdunary => []
  | .align => []
  | .bitlen n => [n.toNat]
  | .wrhdr => []
  | .rdhdr => []
  | .estimate frame0 n ch => [frame0.toNat, n.toNat, ch.toNat]
  | .prdrst => []
  | .prdenc sample => [sext64 sample]
  | .prddec diff => [sext64 diff]
  | .wrk => []
  | .rdk => []
  | .renc diff => [sext64 diff]
  | .rdec => []
  | .encblk frame0 n ch => [frame0.toNat, n.toNat, ch.toNat]
  | .decblk frame0 n ch => [frame0.toNat, n.toNat, ch.toNat]
  | .encode => []
  | .decode => []

/-- One line of assembler text (R75), numbers in decimal. -/
def assemblyLine (i : Instr) : String :=
  match operandValues i with
  | [] => mnemonic i
  | ops => mnemonic i ++ " " ++ String.intercalate ", " (ops.map toString)

/-- The expansion of a pseudo-instruction (R76). An address of `BUFZERO` beyond 64 bits has no command word; it stands
as the largest address, which is outside every `BUF`. -/
def expand : Pseudo → List Instr
  | .wrunary q => [.wrones q, .wrbit 0]
  | .seek p => [.setpos (word (p.toNat / 8)) (word (p.toNat % 8))]
  | .rewind => [.setpos 0 0]
  | .payload => [.setpos 20 0]
  | .config ch bps rate count => [.wrreg 0 ch, .wrreg 1 bps, .wrreg 2 rate, .wrreg 3 count]
  | .bufzero a n => (List.range n.toNat).map fun i => .stb (saturated (a.toNat + i)) 0

end Sys2Proof.Machine
end

