-- ==== Sys2Proof/Machine/Format.lean ====
section
/-! DEFINITION. The bitstream as 30_encoding.md defines it (R77 to R86, R89, R90), without the machine: first as the
lists of bits an encoder writes (header, `K` field, codeword, block record, padding, stream), then as what a decoder
accepts in `BUF`, which is more. The claims compare what the commands write and read with these. -/

namespace Sys2Proof.Machine

/-- The bits of `BUF` at the `n` positions from `p` on. -/
def bitsAt (m : List Host.Cell) (p n : Nat) : List Bool := (List.range n).map fun i => bufBit m (p + i)

/-- The codeword of the difference `d` under parameter `k` (R82). -/
def codeword (k : Nat) (d : Int) : List Bool :=
  [decide (d < 0)] ++ List.replicate (d.natAbs >>> k) true ++ [false] ++ uintBits k (d.natAbs % 2 ^ k)

/-- The differences of a block, the first against `ref` (43_estimator_predictor.md R144, R147). -/
def residuals (ref : Int) : List Int → List Int
  | [] => []
  | x :: xs => (x - ref) :: residuals x xs

/-- The last sample of a block, 0 for an empty one: the value `PREV` ends with (43_estimator_predictor.md R143). -/
def lastSample (ref : Int) : List Int → Int
  | [] => ref
  | x :: xs => lastSample x xs

/-- A block record (R80): the `K` field, then one codeword per sample. The field holds `k mod 2^bprl` (R81). -/
def recordBits (bprl k : Nat) (xs : List Int) : List Bool :=
  uintBits bprl k ++ (residuals 0 xs).flatMap (codeword k)

/-- The header (R78); `channels` and `bps` give their low 16 bits. -/
def headerBits (count channels bps rate : Nat) : List Bool :=
  uintBits 32 magic ++ uintBits 64 count ++ uintBits 16 channels ++ uintBits 16 bps ++ uintBits 32 rate

/-- The padding after `len` bits up to the next byte boundary, where the alignment parameter is set (R89). -/
def paddingBits (align : Bool) (len : Nat) : List Bool :=
  if align then List.replicate ((8 - len % 8) % 8) false else []

/-- The records of one block, channel 0 first (R77). `k c` and `samples c` are channel `c`'s. -/
def blockBits (bprl channels : Nat) (k : Nat → Nat) (samples : Nat → List Int) : List Bool :=
  (List.range channels).flatMap fun c => recordBits bprl (k c) (samples c)

/-- The block records of the first `nb` blocks with their padding (R77, R89). The first record starts at bit 160, a
byte boundary, so lengths from there tell the padding. -/
def payloadBits (align : Bool) (bprl channels : Nat) (k : Nat → Nat → Nat) (samples : Nat → Nat → List Int) :
    Nat → List Bool
  | 0 => []
  | nb + 1 =>
    let body := payloadBits align bprl channels k samples nb ++ blockBits bprl channels (k nb) (samples nb)
    body ++ paddingBits align body.length

/-- The samples of block `b` of one channel, where `sample f` is the channel's sample of frame `f` (R77). -/
def framesOfBlock (count : Nat) (sample : Nat → Int) (b : Nat) : List Int :=
  (List.range (blockFrames count b)).map fun i => sample (blockSize * b + i)

/-- A whole stream (R77): the header, then the payload. -/
def streamBits (align : Bool) (count channels bps rate : Nat) (k : Nat → Nat → Nat) (sample : Nat → Nat → Int) :
    List Bool :=
  headerBits count channels bps rate ++
    payloadBits align (bitLength bps) channels k (fun b c => framesOfBlock count (fun f => sample f c) b)
      (blockCount count)

/-- The sample of frame `f` and channel `c` in `SMP` (10_state.md R39). -/
def State.sampleOf (s : State) (f c : Nat) : Int := readSample s.smp (s.smpIndex f c)

/-- The parameter the estimator gives block `b` of channel `c` of the samples in `SMP` (43_estimator_predictor.md R140). -/
def State.parameterOf (s : State) (b c : Nat) : Nat :=
  blockParameter s.cfg (framesOfBlock s.count.toNat (fun f => s.sampleOf f c) b)

/-- The stream of the samples in `SMP` under the parameter registers, each block with the estimator's parameter. -/
def State.encodedStream (s : State) : List Bool :=
  streamBits s.cfg.encAlign s.count.toNat s.channels.toNat s.bps.toNat s.rate.toNat s.parameterOf s.sampleOf

/-- The samples of block `b` of channel `c` in `SMP`. -/
def State.blockOf (s : State) (b c : Nat) : List Int := framesOfBlock s.count.toNat (fun f => s.sampleOf f c) b

/-- The records and padding of the first `b` blocks. -/
def State.payloadOf (s : State) (b : Nat) : List Bool :=
  payloadBits s.cfg.encAlign s.bprl s.channels.toNat s.parameterOf s.blockOf b

/-- The stream before the record of block `b` and channel `c`. -/
def State.soFar (s : State) (b c : Nat) : List Bool :=
  headerBits s.count.toNat s.channels.toNat s.bps.toNat s.rate.toNat ++
    (s.payloadOf b ++ blockBits s.bprl c (s.parameterOf b) (s.blockOf b))

/-- Which record comes before the one of block `b` and channel `c` (46_stream.md R183), if one does. -/
def recordBefore (channels b c : Nat) : Option (Nat × Nat) :=
  if c = 0 then (if b = 0 then none else some (b - 1, channels - 1)) else some (b, c - 1)

/-! ## What a decoder accepts

`m` holds the bits and `limit` is their number; a position is a position in `m`. -/

/-- `q` ones from position `p` on, then a 0, all below `limit` (R84). -/
def UnaryAt (m : List Host.Cell) (limit p q : Nat) : Prop :=
  p + q < limit ∧ bufBit m (p + q) = false ∧ ∀ j, j < q → bufBit m (p + j) = true

/-- The magnitude of a codeword at `p` whose quotient is `q`: the remainder follows the sign, the ones and the 0 (R84). -/
def magnitudeAt (m : List Host.Cell) (k p q : Nat) : Nat := q * 2 ^ k + fieldAt m (p + (2 + q)) k

/-- At `p` stands a codeword of the difference `d` under parameter `k`, and it ends at `e` (R84). Sign 1 with magnitude 0
is one too: it stands for 0 (R83). -/
def CodewordAt (m : List Host.Cell) (limit k p : Nat) (d : Int) (e : Nat) : Prop :=
  k ≤ 64 ∧ ∃ q, UnaryAt m limit (p + 1) q ∧ e = p + (2 + q + k) ∧ e ≤ limit ∧ magnitudeAt m k p q ≤ 2 ^ 63 - 1 ∧
    d = if bufBit m p then -(magnitudeAt m k p q : Int) else (magnitudeAt m k p q : Int)

/-- From `p` on stand codewords of the samples `xs`, container values, the first difference against `ref`; the last
codeword ends at `e`. -/
def SamplesAt (w : SampleWidth) (m : List Host.Cell) (limit k : Nat) : Nat → Int → List Int → Nat → Prop
  | p, _, [], e => e = p
  | p, ref, x :: xs, e =>
    inContainer w x = true ∧ ∃ p', CodewordAt m limit k p (x - ref) p' ∧ SamplesAt w m limit k p' x xs e

/-- At `p` no sample can be decoded: the cause and the info value, and where the cursor is left (44_rice_codeword.md
R158; 43_estimator_predictor.md R145; 45_block.md R171). The parameter is too large, or the ones run to the end of the
bits, or the remainder runs off it, or the magnitude is out of range, or the sample is. -/
def CodewordFault (w : SampleWidth) (m : List Host.Cell) (limit k p : Nat) (ref : Int) (c : Cause) (info : Word)
    (stop : Nat) : Prop :=
  (64 < k ∧ c = .illegalOperand ∧ info = word k ∧ stop = p) ∨
  (k ≤ 64 ∧ (∀ x, p < x → x < limit → bufBit m x = true) ∧ c = .bufBounds ∧ info = word p ∧ stop = p) ∨
  (k ≤ 64 ∧ ∃ q, UnaryAt m limit (p + 1) q ∧ limit < p + (2 + q + k) ∧ c = .bufBounds ∧ info = word p ∧ stop = p) ∨
  (k ≤ 64 ∧ ∃ q, UnaryAt m limit (p + 1) q ∧ p + (2 + q + k) ≤ limit ∧ 2 ^ 63 - 1 < magnitudeAt m k p q ∧
    c = .sampleRange ∧ info = word p ∧ stop = p) ∨
  ∃ d, CodewordAt m limit k p d stop ∧ inContainer w (ref + d) = false ∧ c = .sampleRange ∧ info = toBits64 (ref + d)

/-- At `p` stands a record of the samples `xs`, under the parameter its own `K` field holds, and it ends at `e` (R80). -/
def RecordAt (w : SampleWidth) (m : List Host.Cell) (limit bprl p : Nat) (xs : List Int) (e : Nat) : Prop :=
  p + bprl ≤ limit ∧ SamplesAt w m limit (fieldAt m p bprl) (p + bprl) 0 xs e

/-- Where the next block starts after one that ends at `p`: the padding is skipped, whatever its bits are (R89). -/
def afterBlock (align : Bool) (p : Nat) : Nat := if align then p + (8 - p % 8) % 8 else p

/-- From position 160 on stand the records of `sample` before the one of block `b` and channel `c`, each where `start`
says (R77; 46_stream.md R183, R184). The whole payload is what stands before block `blockCount count`, channel 0. -/
def PayloadAt (w : SampleWidth) (m : List Host.Cell) (limit : Nat) (align : Bool) (bprl count channels : Nat)
    (sample : Nat → Nat → Int) (start : Nat → Nat → Nat) (b c : Nat) : Prop :=
  start 0 0 = 160 ∧
  (∀ b' c', c' < channels → b' < b ∨ b' = b ∧ c' < c →
    RecordAt w m limit bprl (start b' c') (framesOfBlock count (fun f => sample f c') b') (start b' (c' + 1))) ∧
  ∀ b', b' < b → start (b' + 1) 0 = afterBlock align (start b' channels)

/-- `SMP` index `i` belongs to a frame and channel decoded before sample `j` of block `b` and channel `c`. -/
abbrev decodedBefore (count channels b c j i : Nat) : Prop :=
  i / channels < count ∧
    (i / channels < 512 * b ∨ (i / channels < 512 * (b + 1) ∧ i % channels < c) ∨
      (i % channels = c ∧ i / channels < 512 * b + j))

end Sys2Proof.Machine
end

