-- ==== Sys2Proof/Safety.lean ====
section
/-! DEFINITION. What the claims call a legal state, a completed command and a safe run. -/

namespace Sys2Proof.Machine

/-- The memory is in canonical form and lists only addresses below `n`. -/
def Memory.within {α : Type} [DecidableEq α] (d : α) (n : Nat) (m : List (Nat × α)) : Bool :=
  Memory.wf d m && m.all fun c => decide (c.1 < n)

/-- The invariants the spec states of the registers and memories, one field each. -/
structure State.Inv (s : State) : Prop where
  /-- the parameter ranges of 00_scope.md R6 -/
  cfg : s.cfg.legal = true
  /-- the cursor invariant, 10_state.md R22 -/
  cursor : s.pos ≤ s.bufBits
  /-- `PREV` is a container value, 10_state.md R26 -/
  prev : s.holdsSample s.prev = true
  /-- the bound on `ACC`, 10_state.md R27 -/
  acc : s.acc.toNat ≤ 512 * (2 ^ 32 - 1)
  /-- the bound on `AVG`, 10_state.md R27 -/
  avg : s.avg.toNat < 2 ^ 32
  /-- `FCAUSE` is 0 while `FSEEN` is 0 (10_state.md R34), and else a cause code of 60_exceptions.md R201 -/
  log : if s.status.fseen then 1 ≤ s.status.fcause.toNat ∧ s.status.fcause.toNat ≤ 8 else s.status.fcause = 0
  /-- `BUF` has `BUF_BYTES` bytes, 10_state.md R37 -/
  buf : Memory.within 0#8 s.cfg.bufBytes s.buf = true
  /-- `SMP` has `SMP_ELEMS` elements, 10_state.md R38 -/
  smp : Memory.within 0 s.cfg.smpElems s.smp = true
  /-- every element of `SMP` is a container value, 10_state.md R38 -/
  samples : (s.smp.all fun c => s.holdsSample c.2) = true

/-- The next state of an outcome, if it is one. -/
def nextState (o : Host.Outcome State Fault Refusal) : Option State :=
  match o with
  | .next t => some t
  | .fault _ => none
  | .refused _ => none

/-- The response a step delivered, if it ended in a next state and delivered one. -/
def responseOf (o : Host.Outcome State Fault Refusal) : Option Response := (nextState o).bind State.rsp

/-- The response of a completed command with results `r0` and `r1` (30_encoding.md R72). -/
def okResponse (r0 r1 : Word) : Response := { status := 0, r0 := r0, r1 := r1 }

/-- The state a fault leaves where the command itself changed `s` to this: the log notes the cause, the response
holds the cause code and the info value (60_exceptions.md R200, R207). -/
def State.faulted (s : State) (c : Cause) (info : Word) : State :=
  { s with status := logFault c s.status, rsp := some { status := causeCode c, r0 := info, r1 := 0 } }

/-- The commands one after the other, each on the state the one before left. -/
def execAll : List Instr → State → Host.Outcome State Fault Refusal
  | [], s => .next s
  | i :: rest, s =>
    match exec i s with
    | .next t => execAll rest t
    | .fault r => .fault r
    | .refused r => .refused r

/-- The responses the host takes when it issues the commands one after the other. -/
def responsesOf : List Instr → State → List Response
  | [], _ => []
  | i :: rest, s =>
    match exec i s with
    | .next t => t.rsp.toList ++ responsesOf rest t
    | .fault _ => []
    | .refused _ => []

/-- `m'` is `m` with the bits OR-written at consecutive positions from `p` on, and no other bit of any byte different
(20_memory.md R58, R60). -/
def OrWritten (m m' : List Host.Cell) (p : Nat) (bits : List Bool) : Prop :=
  ∀ x, bufBit m' x = (bufBit m x || (decide (p ≤ x) && bits.getD (x - p) false))

/-- The four commands that keep what was done before a fault (60_exceptions.md R205, R206). -/
def composite : Instr → Bool
  | .reset => false
  | .wrreg _ _ => false
  | .rdreg _ => false
  | .ldb _ => false
  | .stb _ _ => false
  | .lds _ => false
  | .sts _ _ => false
  | .setpos _ _ => false
  | .getpos => false
  | .wrbit _ => false
  | .rdbit => false
  | .wruint _ _ => false
  | .rduint _ => false
  | .wrones _ => false
  | .rdunary => false
  | .align => false
  | .bitlen _ => false
  | .wrhdr => false
  | .rdhdr => false
  | .estimate _ _ _ => false
  | .prdrst => false
  | .prdenc _ => false
  | .prddec _ => false
  | .wrk => false
  | .rdk => false
  | .renc _ => false
  | .rdec => false
  | .encblk _ _ _ => true
  | .decblk _ _ _ => true
  | .encode => true
  | .decode => true

/-- The table of 60_exceptions.md R202: the causes a command can raise. -/
def raisedBy : Instr → List Cause
  | .reset => []
  | .wrreg _ _ => [.illegalOperand]
  | .rdreg _ => [.illegalOperand]
  | .ldb _ => [.bufBounds]
  | .stb _ _ => [.illegalOperand, .bufBounds]
  | .lds _ => [.smpBounds]
  | .sts _ _ => [.illegalOperand, .smpBounds]
  | .setpos _ _ => [.illegalOperand]
  | .getpos => []
  | .wrbit _ => [.illegalOperand, .bufBounds]
  | .rdbit => [.bufBounds]
  | .wruint _ _ => [.illegalOperand, .bufBounds]
  | .rduint _ => [.illegalOperand, .bufBounds]
  | .wrones _ => [.bufBounds]
  | .rdunary => [.bufBounds]
  | .align => []
  | .bitlen _ => []
  | .wrhdr => []
  | .rdhdr => []
  | .estimate _ _ _ => [.illegalOperand, .smpBounds]
  | .prdrst => []
  | .prdenc _ => [.illegalOperand]
  | .prddec _ => [.sampleRange]
  | .wrk => [.bufBounds]
  | .rdk => [.bufBounds]
  | .renc _ => [.illegalOperand, .bufBounds]
  | .rdec => [.illegalOperand, .bufBounds, .sampleRange]
  | .encblk _ _ _ => [.illegalOperand, .bufBounds, .smpBounds]
  | .decblk _ _ _ => [.illegalOperand, .bufBounds, .smpBounds, .sampleRange]
  | .encode => [.bufBounds, .invalidParams, .resource]
  | .decode => [.illegalOperand, .bufBounds, .invalidParams, .sampleRange, .notRecognized, .resource]

/-- The pieces of state a command's rule can name as written; `estimate` is `ACC` and `AVG`, `params` the four stream
parameters. The fault log, which every command can write, is not among them. -/
inductive Target where
  | cursor
  | k
  | prev
  | estimate
  | params
  | hdrOk
  | buf
  | smp
  deriving DecidableEq, Repr

/-- What each command's rule says it writes (R100 to R182). -/
def writes : Instr → List Target
  | .reset => [.cursor, .k, .prev, .estimate, .params, .hdrOk]
  | .wrreg _ _ => [.params, .k, .prev]
  | .rdreg _ => []
  | .ldb _ => []
  | .stb _ _ => [.buf]
  | .lds _ => []
  | .sts _ _ => [.smp]
  | .setpos _ _ => [.cursor]
  | .getpos => []
  | .wrbit _ => [.buf, .cursor]
  | .rdbit => [.cursor]
  | .wruint _ _ => [.buf, .cursor]
  | .rduint _ => [.cursor]
  | .wrones _ => [.buf, .cursor]
  | .rdunary => [.cursor]
  | .align => [.cursor]
  | .bitlen _ => []
  | .wrhdr => [.buf, .cursor]
  | .rdhdr => [.cursor, .params, .hdrOk]
  | .estimate _ _ _ => [.estimate, .k]
  | .prdrst => [.prev]
  | .prdenc _ => [.prev]
  | .prddec _ => [.prev]
  | .wrk => [.buf, .cursor]
  | .rdk => [.k, .cursor]
  | .renc _ => [.buf, .cursor]
  | .rdec => [.cursor]
  | .encblk _ _ _ => [.estimate, .k, .prev, .buf, .cursor]
  | .decblk _ _ _ => [.k, .prev, .smp, .cursor]
  | .encode => [.buf, .cursor, .k, .prev, .estimate]
  | .decode => [.params, .hdrOk, .smp, .cursor, .k, .prev]

end Sys2Proof.Machine
end

