-- ==== Sys2Proof/Certificates/Slice0/Obligations.lean ====
section
/-! DEFINITION. The statements about the model. `s.Inv` (Safety.lean) collects the invariants the spec states; where a
statement does not need it, it is not assumed. A frame is written as `t = { s with … }`: every field not named there is
that of `s`. What happens to `BUF` is said bit by bit, for every position, which says it for every byte. -/

open Sys2Proof Sys2Proof.Machine

/-! ## Command words -/

/-- Words written out from the encodings of 30_encoding.md sections 1 and 2 (fields `a2_a1_a0_op`) decode to the commands
they stand for; the first is the worked example of that file. -/
def Obligations.DecodeReadsSpecWords : Prop :=
  decode 0x0000000000000000_0000000000000ABC_000000000000000C_14#200 = .ok (.wruint 12 0xABC) ∧
  decode 0x0000000000000000_0000000000000000_0000000000000000_01#200 = .ok .reset ∧
  decode 0x0000000000000000_0000000000000010_0000000000000001_02#200 = .ok (.wrreg 1 16) ∧
  decode 0x0000000000000000_0000000000000007_0000000000000014_10#200 = .ok (.setpos 20 7) ∧
  decode 0x0000000000000000_0000000000000000_0000000000000000_21#200 = .ok .rdhdr ∧
  decode 0x0000000000000003_0000000000000002_0000000000000001_30#200 = .ok (.estimate 1 2 3) ∧
  decode 0x0000000000000000_0000000000000000_FFFFFFFFFFFFFFFB_42#200 = .ok (.renc 0xFFFFFFFFFFFFFFFB) ∧
  decode 0x0000000000000001_0000000000000200_0000000000000400_51#200 = .ok (.decblk 1024 512 1) ∧
  decode 0x0000000000000000_0000000000000000_0000000000000000_60#200 = .ok .encode

/-- Every command, with every operand value, is what the decoder reads from its command word. -/
def Obligations.DecodeEncodeIsIdentity : Prop := ∀ i : Instr, decode (encode i) = .ok i

/-- The opcode and the operand fields a command uses determine what is decoded: words that agree there decode to the
same command, and the command's own word agrees with the decoded one there and is 0 elsewhere. -/
def Obligations.UnusedFieldsAreIgnored : Prop :=
  ∀ (w : CommandWord) (i : Instr), decode w = .ok i →
    (∀ v : CommandWord, opField v = opField w →
      (1 ≤ (operandValues i).length → a0Field v = a0Field w) →
      (2 ≤ (operandValues i).length → a1Field v = a1Field w) →
      (3 ≤ (operandValues i).length → a2Field v = a2Field w) → decode v = .ok i) ∧
    opField (encode i) = opField w ∧
    a0Field (encode i) = (if 1 ≤ (operandValues i).length then a0Field w else 0) ∧
    a1Field (encode i) = (if 2 ≤ (operandValues i).length then a1Field w else 0) ∧
    a2Field (encode i) = (if 3 ≤ (operandValues i).length then a2Field w else 0)

/-- R74: exactly the opcodes it lists are no command, and such a word raises `IllegalCommand(op)` and changes nothing
but the fault log; the all-zero word is one of them. -/
def Obligations.ReservedOpcodesRaiseIllegalCommand : Prop :=
  (∀ w : CommandWord, (∃ e, decode w = .error e) ↔
    ((opField w).toNat = 0x00 ∨ (0x08 ≤ (opField w).toNat ∧ (opField w).toNat ≤ 0x0F) ∨
      (0x1A ≤ (opField w).toNat ∧ (opField w).toNat ≤ 0x1F) ∨ (0x22 ≤ (opField w).toNat ∧ (opField w).toNat ≤ 0x2F) ∨
      (0x34 ≤ (opField w).toNat ∧ (opField w).toNat ≤ 0x3F) ∨ (0x44 ≤ (opField w).toNat ∧ (opField w).toNat ≤ 0x4F) ∨
      (0x52 ≤ (opField w).toNat ∧ (opField w).toNat ≤ 0x5F) ∨ 0x62 ≤ (opField w).toNat)) ∧
  (∀ (s : State) (w : CommandWord) (rest : List CommandWord), s.pending = w :: rest → (∃ e, decode w = .error e) →
    step s = .next ({ s with pending := rest }.faulted .illegalCommand ((opField w).setWidth 64))) ∧
  ∃ e, decode 0#200 = .error e

/-! ## Steps and runs -/

/-- When the host's next command word decodes to `i`, the step is `exec` of `i` on the state from which the word has
been taken, and on nothing else. -/
def Obligations.StepRunsDecodedCommand : Prop :=
  ∀ (s : State) (w : CommandWord) (rest : List CommandWord) (i : Instr), s.pending = w :: rest → decode w = .ok i →
    step s = exec i { s with pending := rest }

/-- The model's reading of "After reset the core waits for the first command" (10_state.md section 8; log 6): with no
command issued, a step delivers no response and changes nothing else. -/
def Obligations.StepWithoutCommandWaits : Prop :=
  ∀ s : State, s.pending = [] → step s = .next { s with rsp := none }

/-- Every command word gets exactly one response, whose status is at most 8 and whose `r1` is 0 when the command faulted;
the core then goes on with the next word, on the same instance. -/
def Obligations.EveryCommandAnsweredOnce : Prop :=
  ∀ (s : State) (w : CommandWord) (rest : List CommandWord), s.pending = w :: rest →
    ∃ (t : State) (r : Response), step s = .next t ∧ t.rsp = some r ∧ t.pending = rest ∧ t.cfg = s.cfg ∧
      r.status.toNat ≤ 8 ∧ (r.status ≠ 0 → r.r1 = 0)

/-- No run stops, and `n` steps take the first `n` command words, in the order in which the host issues them; that a step
without a word is a waiting step is the model's choice, log 6. -/
def Obligations.RunConsumesItsCommands : Prop :=
  ∀ (n : Nat) (s : State), ∃ t : State, Host.Core.run core n s = .next t ∧ t.pending = s.pending.drop n ∧ t.cfg = s.cfg

/-! ## Reset and invariants -/

/-- R43: the registers after power-on and after `RESET`. -/
def Obligations.ResetValuesOfRegisters : Prop :=
  let atReset (t : State) : Prop :=
    t.curByte = 0 ∧ t.curBit = 0 ∧ t.k = 0 ∧ t.prev = 0 ∧ t.acc = 0 ∧ t.avg = 0 ∧ t.channels = 0 ∧ t.bps = 0 ∧
      t.rate = 0 ∧ t.count = 0 ∧ statusWord t.status = 0 ∧ t.status = { fseen := false, fcause := 0, hdrOk := false } ∧
      t.bprl = 0 ∧ ¬ (t.channels ≠ 0 ∧ t.bps ≠ 0 ∧ t.rate ≠ 0 ∧ t.count ≠ 0)
  (∀ (cfg : Config) (buf : List Host.Cell) (smp : List (Nat × Int)), atReset (State.powerOn cfg buf smp)) ∧
  ∀ s : State, ∃ t : State, exec .reset s = .next t ∧ atReset t

/-- R100: `RESET` puts every register at its reset value, keeps both memories, and is the only command that clears the
fault log. -/
def Obligations.ResetCommandKeepsMemories : Prop :=
  (∀ s : State, exec .reset s =
    .next { s with
      curByte := 0, curBit := 0, k := 0, prev := 0, acc := 0, avg := 0, channels := 0, bps := 0, rate := 0, count := 0,
      status := { fseen := false, fcause := 0, hdrOk := false }, rsp := some (okResponse 0 0) }) ∧
  ∀ (i : Instr) (s t : State), i ≠ .reset → exec i s = .next t → s.status.fseen = true →
    t.status.fseen = true ∧ t.status.fcause = s.status.fcause

/-- Power-on of any legal instance, with any contents of the memories that their rules allow, meets the invariant, and so
does `State.reset`, whose instance and contents are the model's choice (logs 2 and 3). -/
def Obligations.InitialStatesMeetInvariant : Prop :=
  State.reset.Inv ∧
  ∀ (cfg : Config) (buf : List Host.Cell) (smp : List (Nat × Int)), cfg.legal = true →
    Memory.within 0#8 cfg.bufBytes buf = true → Memory.within 0 cfg.smpElems smp = true →
    (smp.all fun c => inContainer cfg.sampleW c.2) = true → (State.powerOn cfg buf smp).Inv

/-- From every state that meets the invariant, whatever the host issues, the next state meets it. -/
def Obligations.EveryStepKeepsInvariant : Prop := ∀ s t : State, s.Inv → step s = .next t → t.Inv

/-! ## Faults -/

/-- The log takes the status of the first command that faults and keeps it; a command that completes, and every later
fault, leaves it. -/
def Obligations.FaultLogIsSticky : Prop :=
  ∀ (i : Instr) (s t : State) (r : Response), i ≠ .reset → exec i s = .next t → t.rsp = some r →
    (r.status ≠ 0 → s.status.fseen = false → t.status.fseen = true ∧ t.status.fcause = r.status) ∧
    (r.status = 0 ∨ s.status.fseen = true → t.status.fseen = s.status.fseen ∧ t.status.fcause = s.status.fcause)

/-- A precise command that faults has changed nothing but the response and the fault log. -/
def Obligations.PreciseCommandsChangeNothingOnFault : Prop :=
  ∀ (i : Instr) (s t : State) (r : Response), s.Inv → composite i = false → exec i s = .next t → t.rsp = some r →
    r.status ≠ 0 → t = { s with status := t.status, rsp := t.rsp } ∧ t.status.hdrOk = s.status.hdrOk

/-- A command with an operand outside the range its rule fixes faults and changes nothing else: no operand is truncated
silently (30_encoding.md R71). Which ranges count as a command's form is the model's choice, log 12. -/
def Obligations.IllFormedCommandsFault : Prop :=
  ∀ (i : Instr) (s : State), i.wellFormed = false →
    ∃ (t : State) (r : Response), exec i s = .next t ∧ t.rsp = some r ∧ r.status ≠ 0 ∧
      t = { s with status := t.status, rsp := t.rsp }

/-- A command completes or raises one of the causes that the table of R202 gives it, and no other. -/
def Obligations.OnlyTabledCausesAreRaised : Prop :=
  ∀ (i : Instr) (s t : State) (r : Response), s.Inv → exec i s = .next t → t.rsp = some r →
    r.status = 0 ∨ ∃ c ∈ raisedBy i, r.status = causeCode c

/-- A command changes only the pieces of state its rule says it writes, and the fault log, however it ends. -/
def Obligations.OnlyNamedTargetsChange : Prop :=
  ∀ (i : Instr) (s t : State), exec i s = .next t →
    (t.cfg = s.cfg ∧ t.pending = s.pending) ∧
    (.cursor ∉ writes i → t.curByte = s.curByte ∧ t.curBit = s.curBit) ∧
    (.k ∉ writes i → t.k = s.k) ∧
    (.prev ∉ writes i → t.prev = s.prev) ∧
    (.estimate ∉ writes i → t.acc = s.acc ∧ t.avg = s.avg) ∧
    (.params ∉ writes i → t.channels = s.channels ∧ t.bps = s.bps ∧ t.rate = s.rate ∧ t.count = s.count) ∧
    (.hdrOk ∉ writes i → t.status.hdrOk = s.status.hdrOk) ∧
    (.buf ∉ writes i → t.buf = s.buf) ∧
    (.smp ∉ writes i → t.smp = s.smp)

/-! ## System and host port -/

/-- R101, number by number, with both faults in their order. -/
def Obligations.WrregWritesOneRegister : Prop :=
  ∀ (reg value : Word) (s : State),
    (reg.toNat = 0 → value.toNat < 2 ^ 32 →
      exec (.wrreg reg value) s = .next { s with channels := value.setWidth 32, rsp := some (okResponse 0 0) }) ∧
    (reg.toNat = 1 → value.toNat < 2 ^ 32 →
      exec (.wrreg reg value) s = .next { s with bps := value.setWidth 32, rsp := some (okResponse 0 0) } ∧
      ∀ t : State, exec (.wrreg reg value) s = .next t → readReg t .bprl = word (bitLength value.toNat)) ∧
    (reg.toNat = 2 → value.toNat < 2 ^ 32 →
      exec (.wrreg reg value) s = .next { s with rate := value.setWidth 32, rsp := some (okResponse 0 0) }) ∧
    (reg.toNat = 3 → exec (.wrreg reg value) s = .next { s with count := value, rsp := some (okResponse 0 0) }) ∧
    (reg.toNat = 4 → value.toNat < 2 ^ 32 →
      exec (.wrreg reg value) s = .next { s with k := value.setWidth 32, rsp := some (okResponse 0 0) }) ∧
    (reg.toNat = 5 → smpMin s.cfg.sampleW ≤ value.toInt → value.toInt ≤ smpMax s.cfg.sampleW →
      exec (.wrreg reg value) s = .next { s with prev := value.toInt, rsp := some (okResponse 0 0) }) ∧
    (5 < reg.toNat → exec (.wrreg reg value) s = .next (s.faulted .illegalOperand reg)) ∧
    (reg.toNat = 0 ∨ reg.toNat = 1 ∨ reg.toNat = 2 ∨ reg.toNat = 4 → 2 ^ 32 ≤ value.toNat →
      exec (.wrreg reg value) s = .next (s.faulted .illegalOperand value)) ∧
    (reg.toNat = 5 → value.toInt < smpMin s.cfg.sampleW ∨ smpMax s.cfg.sampleW < value.toInt →
      exec (.wrreg reg value) s = .next (s.faulted .illegalOperand value))

/-- R102 with the sixteen registers of R36. -/
def Obligations.RdregReadsRegister : Prop :=
  ∀ (reg : Word) (s : State),
    let reads (n : Nat) (v : Word) : Prop :=
      reg.toNat = n → exec (.rdreg reg) s = .next { s with rsp := some (okResponse v 0) }
    reads 0 (s.channels.setWidth 64) ∧ reads 1 (s.bps.setWidth 64) ∧ reads 2 (s.rate.setWidth 64) ∧ reads 3 s.count ∧
    reads 4 (s.k.setWidth 64) ∧ reads 5 (BitVec.ofInt 64 s.prev) ∧ reads 6 s.acc ∧ reads 7 s.avg ∧
    reads 8 (BitVec.ofNat 64 (Nat.log2 s.bps.toNat)) ∧
    reads 9 ((if s.status.fseen then 1 else 0) + (s.status.fcause.setWidth 64 <<< 1) + (if s.status.hdrOk then 32 else 0)) ∧
    reads 10 s.curByte ∧ reads 11 (s.curBit.setWidth 64) ∧
    reads 12 (match s.cfg.sampleW with
      | .w8 => 8
      | .w16 => 16
      | .w32 => 32) ∧
    reads 13 (BitVec.ofNat 64 s.cfg.bufBytes) ∧ reads 14 (BitVec.ofNat 64 s.cfg.smpElems) ∧
    reads 15 ((if s.cfg.encAlign then 1 else 0) + (if s.cfg.decAlign then 2 else 0) +
      (if s.cfg.estDiv = .actual then 4 else 0)) ∧
    (15 < reg.toNat → exec (.rdreg reg) s = .next (s.faulted .illegalOperand reg))

/-- R103. -/
def Obligations.LdbReadsByte : Prop :=
  ∀ (addr : Word) (s : State),
    (addr.toNat < s.cfg.bufBytes →
      exec (.ldb addr) s = .next { s with rsp := some (okResponse ((readByte s.buf addr.toNat).setWidth 64) 0) }) ∧
    (s.cfg.bufBytes ≤ addr.toNat → exec (.ldb addr) s = .next (s.faulted .bufBounds addr))

/-- R104: a plain store of one byte; every other byte keeps its value. -/
def Obligations.StbStoresOneByte : Prop :=
  ∀ (addr byte : Word) (s : State), s.Inv →
    (addr.toNat < s.cfg.bufBytes → byte.toNat ≤ 255 →
      ∃ t : State, exec (.stb addr byte) s = .next t ∧
        (∀ a, readByte t.buf a = if a = addr.toNat then byte.setWidth 8 else readByte s.buf a) ∧
        t = { s with buf := t.buf, rsp := some (okResponse 0 0) }) ∧
    (s.cfg.bufBytes ≤ addr.toNat → exec (.stb addr byte) s = .next (s.faulted .bufBounds addr)) ∧
    (addr.toNat < s.cfg.bufBytes → 255 < byte.toNat →
      exec (.stb addr byte) s = .next (s.faulted .illegalOperand byte))

/-- R105. -/
def Obligations.LdsReadsSample : Prop :=
  ∀ (index : Word) (s : State),
    (index.toNat < s.cfg.smpElems →
      exec (.lds index) s = .next { s with rsp := some (okResponse (BitVec.ofInt 64 (readSample s.smp index.toNat)) 0) }) ∧
    (s.cfg.smpElems ≤ index.toNat → exec (.lds index) s = .next (s.faulted .smpBounds index))

/-- R106: one element is stored; every other element keeps its value. -/
def Obligations.StsStoresOneSample : Prop :=
  ∀ (index sample : Word) (s : State), s.Inv →
    (index.toNat < s.cfg.smpElems → smpMin s.cfg.sampleW ≤ sample.toInt → sample.toInt ≤ smpMax s.cfg.sampleW →
      ∃ t : State, exec (.sts index sample) s = .next t ∧
        (∀ i, readSample t.smp i = if i = index.toNat then sample.toInt else readSample s.smp i) ∧
        t = { s with smp := t.smp, rsp := some (okResponse 0 0) }) ∧
    (s.cfg.smpElems ≤ index.toNat → exec (.sts index sample) s = .next (s.faulted .smpBounds index)) ∧
    (index.toNat < s.cfg.smpElems → sample.toInt < smpMin s.cfg.sampleW ∨ smpMax s.cfg.sampleW < sample.toInt →
      exec (.sts index sample) s = .next (s.faulted .illegalOperand sample))

/-! ## Bit cursor -/

/-- R110. -/
def Obligations.SetposMovesCursor : Prop :=
  ∀ (byte bit : Word) (s : State),
    (bit.toNat ≤ 7 → 8 * byte.toNat + bit.toNat ≤ 8 * s.cfg.bufBytes →
      exec (.setpos byte bit) s =
        .next { s with curByte := byte, curBit := bit.setWidth 3, rsp := some (okResponse 0 0) }) ∧
    (7 < bit.toNat → exec (.setpos byte bit) s = .next (s.faulted .illegalOperand bit)) ∧
    (bit.toNat ≤ 7 → 8 * s.cfg.bufBytes < 8 * byte.toNat + bit.toNat →
      exec (.setpos byte bit) s = .next (s.faulted .illegalOperand byte))

/-- R111. -/
def Obligations.GetposReadsCursor : Prop :=
  ∀ s : State, exec .getpos s = .next { s with rsp := some (okResponse s.curByte (s.curBit.setWidth 64)) }

/-- R112: the OR-write of one bit; a 0 never changes memory. -/
def Obligations.WrbitOrsOneBit : Prop :=
  ∀ (v : Word) (s : State), s.Inv →
    (v.toNat ≤ 1 → s.pos + 1 ≤ s.bufBits →
      ∃ t : State, exec (.wrbit v) s = .next t ∧ t.pos = s.pos + 1 ∧
        OrWritten s.buf t.buf s.pos [decide (v.toNat = 1)] ∧ (v = 0 → t.buf = s.buf) ∧
        t = { s with curByte := t.curByte, curBit := t.curBit, buf := t.buf, rsp := some (okResponse 0 0) }) ∧
    (1 < v.toNat → exec (.wrbit v) s = .next (s.faulted .illegalOperand v)) ∧
    (v.toNat ≤ 1 → s.bufBits < s.pos + 1 → exec (.wrbit v) s = .next (s.faulted .bufBounds (word s.pos)))

/-- R113. -/
def Obligations.RdbitReadsOneBit : Prop :=
  ∀ s : State, s.Inv →
    (s.pos + 1 ≤ s.bufBits →
      ∃ t : State, exec .rdbit s = .next t ∧ t.pos = s.pos + 1 ∧
        t = { s with
          curByte := t.curByte, curBit := t.curBit,
          rsp := some (okResponse (if (readByte s.buf s.curByte.toNat).getLsbD s.curBit.toNat then 1 else 0) 0) }) ∧
    (s.bufBits < s.pos + 1 → exec .rdbit s = .next (s.faulted .bufBounds (word s.pos)))

/-- R114: the low `width` bits of `value`, least significant first; the bound is checked before any bit is written. -/
def Obligations.WruintOrsField : Prop :=
  ∀ (width value : Word) (s : State), s.Inv →
    (width.toNat ≤ 64 → s.pos + width.toNat ≤ s.bufBits →
      ∃ t : State, exec (.wruint width value) s = .next t ∧ t.pos = s.pos + width.toNat ∧
        OrWritten s.buf t.buf s.pos ((List.range width.toNat).map value.getLsbD) ∧
        t = { s with curByte := t.curByte, curBit := t.curBit, buf := t.buf, rsp := some (okResponse 0 0) }) ∧
    (64 < width.toNat → exec (.wruint width value) s = .next (s.faulted .illegalOperand width)) ∧
    (width.toNat ≤ 64 → s.bufBits < s.pos + width.toNat →
      exec (.wruint width value) s = .next (s.faulted .bufBounds (word s.pos)))

/-- R115: the bits at the cursor, least significant first, zero-extended. -/
def Obligations.RduintReadsField : Prop :=
  ∀ (width : Word) (s : State), s.Inv →
    (width.toNat ≤ 64 → s.pos + width.toNat ≤ s.bufBits →
      ∃ (t : State) (v : Word), exec (.rduint width) s = .next t ∧ t.pos = s.pos + width.toNat ∧
        (∀ i, v.getLsbD i = (decide (i < width.toNat) && bufBit s.buf (s.pos + i))) ∧
        t = { s with curByte := t.curByte, curBit := t.curBit, rsp := some (okResponse v 0) }) ∧
    (64 < width.toNat → exec (.rduint width) s = .next (s.faulted .illegalOperand width)) ∧
    (width.toNat ≤ 64 → s.bufBits < s.pos + width.toNat →
      exec (.rduint width) s = .next (s.faulted .bufBounds (word s.pos)))

/-- R116: a run of ones, written whole or not at all. -/
def Obligations.WronesOrsRun : Prop :=
  ∀ (count : Word) (s : State), s.Inv →
    (s.pos + count.toNat ≤ s.bufBits →
      ∃ t : State, exec (.wrones count) s = .next t ∧ t.pos = s.pos + count.toNat ∧
        OrWritten s.buf t.buf s.pos (List.replicate count.toNat true) ∧
        t = { s with curByte := t.curByte, curBit := t.curBit, buf := t.buf, rsp := some (okResponse 0 0) }) ∧
    (s.bufBits < s.pos + count.toNat → exec (.wrones count) s = .next (s.faulted .bufBounds (word s.pos)))

/-- R117: `q` is the least run that a 0 inside `BUF` ends; without one the command faults. -/
def Obligations.RdunaryReadsRun : Prop :=
  ∀ s : State, s.Inv →
    (∀ q : Nat, s.pos + q < s.bufBits → bufBit s.buf (s.pos + q) = false →
      (∀ j, j < q → bufBit s.buf (s.pos + j) = true) →
      ∃ t : State, exec .rdunary s = .next t ∧ t.pos = s.pos + q + 1 ∧
        t = { s with curByte := t.curByte, curBit := t.curBit, rsp := some (okResponse (word q) 0) }) ∧
    ((∀ j, s.pos + j < s.bufBits → bufBit s.buf (s.pos + j) = true) →
      exec .rdunary s = .next (s.faulted .bufBounds (word s.pos)))

/-- R118: to the next byte boundary unless on one; never past the end of `BUF`. -/
def Obligations.AlignMovesToByteBoundary : Prop :=
  ∀ s : State,
    exec .align s =
      .next { s with
        curByte := if s.curBit = 0 then s.curByte else s.curByte + 1, curBit := 0, rsp := some (okResponse 0 0) } ∧
    (s.Inv → ∀ t : State, exec .align s = .next t → t.pos ≤ s.bufBits ∧ s.pos ≤ t.pos ∧ t.pos < s.pos + 8)

/-- R119: `bit_length` of the operand, the floor of its binary logarithm, 0 for 0 and 1. -/
def Obligations.BitlenIsFloorLog : Prop :=
  ∀ (n : Word) (s : State), ∃ k : Nat,
    exec (.bitlen n) s = .next { s with rsp := some (okResponse (BitVec.ofNat 64 k) 0) } ∧ k ≤ 63 ∧
      (n.toNat ≤ 1 → k = 0) ∧ (2 ≤ n.toNat → 2 ^ k ≤ n.toNat ∧ n.toNat < 2 ^ (k + 1))

/-- A field written or read at once and bit by bit, and a run written at once and bit by bit, agree where they fit. -/
def Obligations.WideAccessesEqualSingleBits : Prop :=
  ∀ (s : State), s.Inv →
    (∀ width value : Word, width.toNat ≤ 64 → s.pos + width.toNat ≤ s.bufBits →
      ∃ t u : State, exec (.wruint width value) s = .next t ∧
        execAll ((List.range width.toNat).map fun i => .wrbit (if value.getLsbD i then 1 else 0)) s = .next u ∧
        t = { u with rsp := t.rsp }) ∧
    (∀ count : Word, s.pos + count.toNat ≤ s.bufBits →
      ∃ t u : State, exec (.wrones count) s = .next t ∧
        execAll (List.replicate count.toNat (.wrbit 1)) s = .next u ∧ t = { u with rsp := t.rsp }) ∧
    (∀ width : Word, width.toNat ≤ 64 → s.pos + width.toNat ≤ s.bufBits →
      ∃ (t u : State) (v : Word), exec (.rduint width) s = .next t ∧ t.rsp = some (okResponse v 0) ∧
        execAll (List.replicate width.toNat .rdbit) s = .next u ∧ t = { u with rsp := t.rsp } ∧
        responsesOf (List.replicate width.toNat .rdbit) s =
          (List.range width.toNat).map fun i => okResponse (if v.getLsbD i then 1 else 0) 0)

/-- R121: what is read back after a field or a unary code is written, where the bits were 0 before and in general. -/
def Obligations.ReadAfterWrite : Prop :=
  ∀ (s : State), s.Inv →
    (∀ width value : Word, width.toNat ≤ 64 → s.pos + width.toNat ≤ s.bufBits →
      (∀ i, i < width.toNat → bufBit s.buf (s.pos + i) = false) →
      ∃ t : State,
        execAll [.wruint width value, .setpos s.curByte (s.curBit.setWidth 64), .rduint width] s = .next t ∧
        t.rsp = some (okResponse (BitVec.ofNat 64 (value.toNat % 2 ^ width.toNat)) 0) ∧ t.pos = s.pos + width.toNat) ∧
    (∀ count : Word, s.pos + count.toNat + 1 ≤ s.bufBits →
      (∀ i, i ≤ count.toNat → bufBit s.buf (s.pos + i) = false) →
      ∃ t : State,
        execAll [.wrones count, .wrbit 0, .setpos s.curByte (s.curBit.setWidth 64), .rdunary] s = .next t ∧
        t.rsp = some (okResponse count 0) ∧ t.pos = s.pos + count.toNat + 1) ∧
    (∀ width value : Word, width.toNat ≤ 64 → s.pos + width.toNat ≤ s.bufBits →
      ∃ (t : State) (v : Word),
        execAll [.wruint width value, .setpos s.curByte (s.curBit.setWidth 64), .rduint width] s = .next t ∧
        t.rsp = some (okResponse v 0) ∧
        ∀ i, v.getLsbD i = (decide (i < width.toNat) && (bufBit s.buf (s.pos + i) || value.getLsbD i)))

/-! ## Header -/

/-- R130: the five fields, OR-written from position 0 on whatever the cursor held; `CHANNELS` and `BPS` give their low 16
bits (R132). -/
def Obligations.WrhdrWritesHeader : Prop :=
  ∀ s : State, s.Inv →
    ∃ t : State, exec .wrhdr s = .next t ∧
      OrWritten s.buf t.buf 0 (uintBits 32 0x66777462 ++ uintBits 64 s.count.toNat ++ uintBits 16 s.channels.toNat ++
        uintBits 16 s.bps.toNat ++ uintBits 32 s.rate.toNat) ∧
      t = { s with curByte := 20, curBit := 0, buf := t.buf, rsp := some (okResponse 0 0) }

/-- R131: both outcomes of reading the magic. -/
def Obligations.RdhdrReadsHeader : Prop :=
  ∀ s : State, s.Inv →
    (fieldAt s.buf 0 32 ≠ 0x66777462 →
      exec .rdhdr s =
        .next { s with
          curByte := 4, curBit := 0, status := { s.status with hdrOk := false }, rsp := some (okResponse 0 0) }) ∧
    (fieldAt s.buf 0 32 = 0x66777462 →
      exec .rdhdr s =
        .next { s with
          curByte := 20, curBit := 0, count := BitVec.ofNat 64 (fieldAt s.buf 32 64),
          channels := BitVec.ofNat 32 (fieldAt s.buf 96 16), bps := BitVec.ofNat 32 (fieldAt s.buf 112 16),
          rate := BitVec.ofNat 32 (fieldAt s.buf 128 32), status := { s.status with hdrOk := true },
          rsp := some (okResponse 1 0) })

/-- R133. -/
def Obligations.HeaderReadsBackAsWritten : Prop :=
  ∀ s : State, s.Inv → (∀ a, a < 20 → readByte s.buf a = 0) → s.channels.toNat < 2 ^ 16 → s.bps.toNat < 2 ^ 16 →
    ∃ t : State, execAll [.wrhdr, .rdhdr] s = .next t ∧ t.rsp = some (okResponse 1 0) ∧ t.count = s.count ∧
      t.channels = s.channels ∧ t.bps = s.bps ∧ t.rate = s.rate

/-! ## Estimator and predictor -/

/-- R140, with the sum written out and the three faults in their order. -/
def Obligations.EstimateComputesParameter : Prop :=
  ∀ (frame0 n ch : Word) (s : State),
    let x (i : Nat) : Int := readSample s.smp ((frame0.toNat + i) * s.channels.toNat + ch.toNat)
    (s.Inv → n.toNat ≤ 512 → ch.toNat < s.channels.toNat →
      (∀ i, i < n.toNat → (frame0.toNat + i) * s.channels.toNat + ch.toNat < s.cfg.smpElems) →
      ∃ (t : State) (k : Nat), exec (.estimate frame0 n ch) s = .next t ∧
        t.acc.toNat = ∑ i ∈ Finset.range n.toNat, (x i - if i = 0 then 0 else x (i - 1)).natAbs ∧
        t.avg.toNat = t.acc.toNat / (if s.cfg.estDiv = .nominal then 512 else max n.toNat 1) ∧
        k = Nat.log2 t.avg.toNat ∧ t.k.toNat = k ∧
        t = { s with acc := t.acc, avg := t.avg, k := t.k, rsp := some (okResponse (word k) t.avg) }) ∧
    (512 < n.toNat → exec (.estimate frame0 n ch) s = .next (s.faulted .illegalOperand n)) ∧
    (n.toNat ≤ 512 → s.channels.toNat ≤ ch.toNat →
      exec (.estimate frame0 n ch) s = .next (s.faulted .illegalOperand ch)) ∧
    (n.toNat ≤ 512 → ch.toNat < s.channels.toNat → ∀ i, i < n.toNat →
      s.cfg.smpElems ≤ (frame0.toNat + i) * s.channels.toNat + ch.toNat →
      (∀ j, j < i → (frame0.toNat + j) * s.channels.toNat + ch.toNat < s.cfg.smpElems) →
      exec (.estimate frame0 n ch) s =
        .next (s.faulted .smpBounds (word (min ((frame0.toNat + i) * s.channels.toNat + ch.toNat) (2 ^ 64 - 1)))))

/-- The bounds on the estimate, and that it fits the `K` field where `BPS` is a power of two up to 32 and the samples of
the block lie in a signed or in an unsigned range of `BPS` bits. -/
def Obligations.EstimateFitsItsField : Prop :=
  ∀ (frame0 n ch : Word) (s t : State) (r : Response), s.Inv → exec (.estimate frame0 n ch) s = .next t →
    t.rsp = some r → r.status = 0 →
      t.avg.toNat ≤ 2 ^ sampleBits s.cfg.sampleW - 1 ∧ t.k.toNat ≤ sampleBits s.cfg.sampleW - 1 ∧
      ∀ (m : Nat) (lo : Int), s.bps.toNat = 2 ^ m → m ≤ 5 →
        lo = 0 ∨ lo = -(2 ^ (s.bps.toNat - 1)) →
        (∀ x ∈ blockSamples s frame0.toNat n.toNat ch.toNat, lo ≤ x ∧ x < lo + 2 ^ s.bps.toNat) →
        t.k.toNat ≤ s.bps.toNat - 1 ∧ t.k.toNat < 2 ^ s.bprl

/-- R143. -/
def Obligations.PrdrstClearsReference : Prop :=
  ∀ s : State, exec .prdrst s = .next { s with prev := 0, rsp := some (okResponse 0 0) }

/-- R144: the exact difference, and the sample is the new reference. -/
def Obligations.PrdencReturnsDifference : Prop :=
  ∀ (sample : Word) (s : State),
    (smpMin s.cfg.sampleW ≤ sample.toInt → sample.toInt ≤ smpMax s.cfg.sampleW →
      exec (.prdenc sample) s =
        .next { s with prev := sample.toInt, rsp := some (okResponse (BitVec.ofInt 64 (sample.toInt - s.prev)) 0) } ∧
      (s.Inv → (sample.toInt - s.prev).natAbs ≤ 2 ^ sampleBits s.cfg.sampleW - 1)) ∧
    (sample.toInt < smpMin s.cfg.sampleW ∨ smpMax s.cfg.sampleW < sample.toInt →
      exec (.prdenc sample) s = .next (s.faulted .illegalOperand sample))

/-- R145: the sum, if a container holds it. -/
def Obligations.PrddecReturnsSample : Prop :=
  ∀ (diff : Word) (s : State),
    (smpMin s.cfg.sampleW ≤ s.prev + diff.toInt → s.prev + diff.toInt ≤ smpMax s.cfg.sampleW →
      exec (.prddec diff) s =
        .next { s with
          prev := s.prev + diff.toInt, rsp := some (okResponse (BitVec.ofInt 64 (s.prev + diff.toInt)) 0) }) ∧
    (s.prev + diff.toInt < smpMin s.cfg.sampleW ∨ smpMax s.cfg.sampleW < s.prev + diff.toInt →
      exec (.prddec diff) s = .next (s.faulted .sampleRange (BitVec.ofInt 64 (s.prev + diff.toInt))))

/-- R146: one sample, and a whole block from `PRDRST` on. -/
def Obligations.PredictorInvertsItself : Prop :=
  (∀ (sample : Word) (s u : State), s.Inv → u.cfg = s.cfg → u.prev = s.prev →
    smpMin s.cfg.sampleW ≤ sample.toInt → sample.toInt ≤ smpMax s.cfg.sampleW →
    ∃ (d : Word) (t v : State), exec (.prdenc sample) s = .next t ∧ t.rsp = some (okResponse d 0) ∧
      t.prev = sample.toInt ∧ exec (.prddec d) u = .next v ∧ v.rsp = some (okResponse sample 0) ∧
      v.prev = sample.toInt) ∧
  ∀ (samples : List Word) (s u : State), u.cfg = s.cfg →
    (∀ x ∈ samples, smpMin s.cfg.sampleW ≤ x.toInt ∧ x.toInt ≤ smpMax s.cfg.sampleW) →
    ∃ ds : List Word,
      responsesOf (.prdrst :: samples.map .prdenc) s = okResponse 0 0 :: ds.map (okResponse · 0) ∧
      responsesOf (.prdrst :: ds.map .prddec) u = okResponse 0 0 :: samples.map (okResponse · 0)

/-! ## Rice parameter field and codeword -/

/-- R155: the low `BPRL` bits of `K`, which itself stays. -/
def Obligations.WrkWritesParameterField : Prop :=
  ∀ s : State, s.Inv →
    (s.pos + bitLength s.bps.toNat ≤ s.bufBits →
      ∃ t : State, exec .wrk s = .next t ∧ t.pos = s.pos + bitLength s.bps.toNat ∧
        OrWritten s.buf t.buf s.pos ((List.range (bitLength s.bps.toNat)).map s.k.getLsbD) ∧
        t = { s with curByte := t.curByte, curBit := t.curBit, buf := t.buf, rsp := some (okResponse 0 0) }) ∧
    (s.bufBits < s.pos + bitLength s.bps.toNat → exec .wrk s = .next (s.faulted .bufBounds (word s.pos)))

/-- R156. -/
def Obligations.RdkReadsParameterField : Prop :=
  ∀ s : State, s.Inv →
    (s.pos + bitLength s.bps.toNat ≤ s.bufBits →
      ∃ t : State, exec .rdk s = .next t ∧ t.pos = s.pos + bitLength s.bps.toNat ∧
        (∀ i, t.k.getLsbD i = (decide (i < bitLength s.bps.toNat) && bufBit s.buf (s.pos + i))) ∧
        t.k.toNat < 2 ^ bitLength s.bps.toNat ∧
        t = { s with
          curByte := t.curByte, curBit := t.curBit, k := t.k, rsp := some (okResponse (t.k.setWidth 64) 0) }) ∧
    (s.bufBits < s.pos + bitLength s.bps.toNat → exec .rdk s = .next (s.faulted .bufBounds (word s.pos)))

/-- R157: sign, unary quotient, terminator and remainder at the cursor, or nothing, with the faults in their order. -/
def Obligations.RencWritesCodeword : Prop :=
  ∀ (diff : Word) (s : State), s.Inv →
    let a := diff.toInt.natAbs
    let q := a / 2 ^ s.k.toNat
    let n := 2 + q + s.k.toNat
    (diff.toInt ≠ -(2 ^ 63) → s.k.toNat ≤ 64 → s.pos + n ≤ s.bufBits →
      ∃ t : State, exec (.renc diff) s = .next t ∧ t.pos = s.pos + n ∧
        OrWritten s.buf t.buf s.pos ([decide (diff.toInt < 0)] ++ List.replicate q true ++ [false] ++
          (List.range s.k.toNat).map (a % 2 ^ s.k.toNat).testBit) ∧
        t = { s with curByte := t.curByte, curBit := t.curBit, buf := t.buf, rsp := some (okResponse (word n) 0) }) ∧
    (diff.toInt = -(2 ^ 63) → exec (.renc diff) s = .next (s.faulted .illegalOperand diff)) ∧
    (diff.toInt ≠ -(2 ^ 63) → 64 < s.k.toNat →
      exec (.renc diff) s = .next (s.faulted .illegalOperand (s.k.setWidth 64))) ∧
    (diff.toInt ≠ -(2 ^ 63) → s.k.toNat ≤ 64 → s.bufBits < s.pos + n →
      exec (.renc diff) s = .next (s.faulted .bufBounds (word s.pos)))

/-- R158: by where the unary run after the sign bit ends; on every fault the cursor is where it was. -/
def Obligations.RdecReadsCodeword : Prop :=
  ∀ s : State, s.Inv →
    (64 < s.k.toNat → exec .rdec s = .next (s.faulted .illegalOperand (s.k.setWidth 64))) ∧
    (s.k.toNat ≤ 64 → (∀ x, s.pos + 1 ≤ x → x < s.bufBits → bufBit s.buf x = true) →
      exec .rdec s = .next (s.faulted .bufBounds (word s.pos))) ∧
    ∀ q : Nat, s.k.toNat ≤ 64 → s.pos + 1 + q < s.bufBits → bufBit s.buf (s.pos + 1 + q) = false →
      (∀ j, j < q → bufBit s.buf (s.pos + 1 + j) = true) →
      let n := 2 + q + s.k.toNat
      let a := q * 2 ^ s.k.toNat + fieldAt s.buf (s.pos + 2 + q) s.k.toNat
      let d : Int := if bufBit s.buf s.pos then -(a : Int) else a
      (s.pos + n ≤ s.bufBits → a ≤ 2 ^ 63 - 1 →
        ∃ t : State, exec .rdec s = .next t ∧ t.pos = s.pos + n ∧
          t = { s with
            curByte := t.curByte, curBit := t.curBit, rsp := some (okResponse (BitVec.ofInt 64 d) (word n)) }) ∧
      (s.pos + n ≤ s.bufBits → 2 ^ 63 - 1 < a → exec .rdec s = .next (s.faulted .sampleRange (word s.pos))) ∧
      (s.bufBits < s.pos + n → exec .rdec s = .next (s.faulted .bufBounds (word s.pos)))

/-- R159: on bits that were 0, `RDEC` returns the difference `RENC` was given and consumes what it wrote. -/
def Obligations.CodewordRoundTrip : Prop :=
  ∀ (diff : Word) (s : State), s.Inv → s.k.toNat ≤ 64 → diff.toInt.natAbs ≤ 2 ^ 63 - 1 →
    let n := 2 + diff.toInt.natAbs / 2 ^ s.k.toNat + s.k.toNat
    s.pos + n ≤ s.bufBits → (∀ i, i < n → bufBit s.buf (s.pos + i) = false) →
    ∃ t u : State, exec (.renc diff) s = .next t ∧ t.rsp = some (okResponse (word n) 0) ∧
      execAll [.renc diff, .setpos s.curByte (s.curBit.setWidth 64), .rdec] s = .next u ∧
      u.rsp = some (okResponse diff (word n)) ∧ u.pos = t.pos ∧ u.buf = t.buf ∧ t.pos = s.pos + n

/-! ## Blocks -/

/-- R170: the record of the block's samples under the estimated parameter; the three faults before any change; and, where
the record does not fit, the field and codewords before the part that does not. That `PREV` keeps its old value where the
`K` field does not fit follows the step order of R170, against one sentence of it: the model's choice, log 18. -/
def Obligations.EncblkWritesRecord : Prop :=
  ∀ (frame0 n ch : Word) (s : State), s.Inv →
    let xs := blockSamples s frame0.toNat n.toNat ch.toNat
    let k := blockParameter s.cfg xs
    let estimated (t : State) : Prop :=
      t.acc = BitVec.ofNat 64 (absDiffSum 0 xs) ∧ t.avg = BitVec.ofNat 64 (blockAverage s.cfg xs) ∧
        t.k = BitVec.ofNat 32 k
    let frame (t : State) : Prop :=
      t = { s with
        acc := t.acc, avg := t.avg, k := t.k, prev := t.prev, buf := t.buf, curByte := t.curByte, curBit := t.curBit,
        status := t.status, rsp := t.rsp }
    (512 < n.toNat → exec (.encblk frame0 n ch) s = .next (s.faulted .illegalOperand n)) ∧
    (n.toNat ≤ 512 → s.channels.toNat ≤ ch.toNat →
      exec (.encblk frame0 n ch) s = .next (s.faulted .illegalOperand ch)) ∧
    (n.toNat ≤ 512 → ch.toNat < s.channels.toNat → ∀ i, i < n.toNat →
      s.cfg.smpElems ≤ s.smpIndex (frame0.toNat + i) ch.toNat →
      (∀ j, j < i → s.smpIndex (frame0.toNat + j) ch.toNat < s.cfg.smpElems) →
      exec (.encblk frame0 n ch) s =
        .next (s.faulted .smpBounds (word (min (s.smpIndex (frame0.toNat + i) ch.toNat) (2 ^ 64 - 1))))) ∧
    (n.toNat ≤ 512 → ch.toNat < s.channels.toNat →
      (∀ i, i < n.toNat → s.smpIndex (frame0.toNat + i) ch.toNat < s.cfg.smpElems) →
      (s.pos + (recordBits s.bprl k xs).length ≤ s.bufBits →
        ∃ t : State, exec (.encblk frame0 n ch) s = .next t ∧ t.rsp = some (okResponse (word k) 0) ∧
          t.pos = s.pos + (recordBits s.bprl k xs).length ∧ OrWritten s.buf t.buf s.pos (recordBits s.bprl k xs) ∧
          t.prev = lastSample 0 xs ∧ estimated t ∧ t.status = s.status ∧ frame t) ∧
      (s.bufBits < s.pos + s.bprl →
        ∃ t : State, exec (.encblk frame0 n ch) s = .next t ∧ t.rsp = (s.faulted .bufBounds (word s.pos)).rsp ∧
          t.status = logFault .bufBounds s.status ∧ estimated t ∧ t.pos = s.pos ∧ t.buf = s.buf ∧ t.prev = s.prev ∧
          frame t) ∧
      ∀ j, j < n.toNat → s.pos + (recordBits s.bprl k (xs.take j)).length ≤ s.bufBits →
        s.bufBits < s.pos + (recordBits s.bprl k (xs.take (j + 1))).length →
        ∃ t : State, exec (.encblk frame0 n ch) s = .next t ∧ t.rsp = (s.faulted .bufBounds (word t.pos)).rsp ∧
          t.status = logFault .bufBounds s.status ∧ estimated t ∧
          t.pos = s.pos + (recordBits s.bprl k (xs.take j)).length ∧
          OrWritten s.buf t.buf s.pos (recordBits s.bprl k (xs.take j)) ∧ t.prev = lastSample 0 (xs.take j) ∧ frame t)

/-- What `DECBLK` does on whatever stands at the cursor: the three faults before any change, the `K` field that does not
fit, a whole record (as an encoder writes it, or any other that a decoder accepts), and a record that stops being one
after some samples. One of these four is the case. That `K` and `PREV` keep their old values where the `K` field does not
fit is the model's choice, log 18. -/
def Obligations.DecblkReadsRecord : Prop :=
  (∀ (frame0 n ch : Word) (s : State), s.Inv →
    let k := fieldAt s.buf s.pos s.bprl
    let index (i : Nat) : Nat := s.smpIndex (frame0.toNat + i) ch.toNat
    let left (t : State) (xs : List Int) (p : Nat) : Prop :=
      t.pos = p ∧ t.k.toNat = k ∧ t.prev = lastSample 0 xs ∧
      (∀ j, j < xs.length → readSample t.smp (index j) = xs.getD j 0) ∧
      (∀ i, (∀ j, j < xs.length → i ≠ index j) → readSample t.smp i = readSample s.smp i) ∧
      t = { s with
        k := t.k, prev := t.prev, smp := t.smp, curByte := t.curByte, curBit := t.curBit, status := t.status,
        rsp := t.rsp }
    (512 < n.toNat → exec (.decblk frame0 n ch) s = .next (s.faulted .illegalOperand n)) ∧
    (n.toNat ≤ 512 → s.channels.toNat ≤ ch.toNat →
      exec (.decblk frame0 n ch) s = .next (s.faulted .illegalOperand ch)) ∧
    (n.toNat ≤ 512 → ch.toNat < s.channels.toNat → ∀ i, i < n.toNat → s.cfg.smpElems ≤ index i →
      (∀ j, j < i → index j < s.cfg.smpElems) →
      exec (.decblk frame0 n ch) s = .next (s.faulted .smpBounds (word (min (index i) (2 ^ 64 - 1))))) ∧
    (n.toNat ≤ 512 → ch.toNat < s.channels.toNat → (∀ i, i < n.toNat → index i < s.cfg.smpElems) →
      (s.bufBits < s.pos + s.bprl →
        exec (.decblk frame0 n ch) s = .next (s.faulted .bufBounds (word s.pos))) ∧
      (∀ (xs : List Int) (e : Nat), RecordAt s.cfg.sampleW s.buf s.bufBits s.bprl s.pos xs e →
        (xs.length = n.toNat →
          ∃ t : State, exec (.decblk frame0 n ch) s = .next t ∧ t.rsp = some (okResponse (word k) 0) ∧
            t.status = s.status ∧ left t xs e) ∧
        (xs.length < n.toNat → ∀ (c : Cause) (info : Word) (stop : Nat),
          CodewordFault s.cfg.sampleW s.buf s.bufBits k e (lastSample 0 xs) c info stop →
          ∃ t : State, exec (.decblk frame0 n ch) s = .next t ∧ t.rsp = (s.faulted c info).rsp ∧
            t.status = logFault c s.status ∧ left t xs stop)) ∧
      (s.bufBits < s.pos + s.bprl ∨
        ∃ (xs : List Int) (e : Nat), RecordAt s.cfg.sampleW s.buf s.bufBits s.bprl s.pos xs e ∧
          (xs.length = n.toNat ∨ xs.length < n.toNat ∧ ∃ (c : Cause) (info : Word) (stop : Nat),
            CodewordFault s.cfg.sampleW s.buf s.bufBits k e (lastSample 0 xs) c info stop)))) ∧
  ∀ (w : SampleWidth) (m : List Host.Cell) (limit bprl k p : Nat) (xs : List Int),
    (∀ x ∈ xs, smpMin w ≤ x ∧ x ≤ smpMax w) → k < 2 ^ bprl → k ≤ 64 → p + (recordBits bprl k xs).length ≤ limit →
    bitsAt m p (recordBits bprl k xs).length = recordBits bprl k xs →
    fieldAt m p bprl = k ∧ RecordAt w m limit bprl p xs (p + (recordBits bprl k xs).length)

/-- R172: whatever the host does in between, if it leaves the record's bits and puts the cursor back, `DECBLK` restores
the samples of the block and touches no other element. -/
def Obligations.BlockRoundTrip : Prop :=
  ∀ (frame0 n ch : Word) (s t u : State) (r : Response), s.Inv → exec (.encblk frame0 n ch) s = .next t →
    t.rsp = some r → r.status = 0 → (∀ x, s.pos ≤ x → x < t.pos → bufBit s.buf x = false) → t.k.toNat < 2 ^ s.bprl →
    u.Inv → u.cfg = s.cfg → u.channels = s.channels → u.bps = s.bps → u.pos = s.pos →
    (∀ x, s.pos ≤ x → x < t.pos → bufBit u.buf x = bufBit t.buf x) →
    ∃ v : State, exec (.decblk frame0 n ch) u = .next v ∧ v.rsp = t.rsp ∧ v.pos = t.pos ∧ v.k = t.k ∧ v.prev = t.prev ∧
      (∀ j, j < n.toNat → readSample v.smp (s.smpIndex (frame0.toNat + j) ch.toNat) =
        readSample s.smp (s.smpIndex (frame0.toNat + j) ch.toNat)) ∧
      (∀ i, (∀ j, j < n.toNat → i ≠ s.smpIndex (frame0.toNat + j) ch.toNat) →
        readSample v.smp i = readSample u.smp i) ∧ t.smp = s.smp

/-- The bounds on the size of a record that `ENCBLK` writes, for both values of `EST_DIV`, and its size when every sample
is 0. -/
def Obligations.RecordSizeIsBounded : Prop :=
  ∀ (frame0 n ch : Word) (s t : State) (r : Response), s.Inv → exec (.encblk frame0 n ch) s = .next t →
    t.rsp = some r → r.status = 0 →
      s.pos + s.bprl + 2 * n.toNat ≤ t.pos ∧
      (s.cfg.estDiv = .nominal → t.pos ≤ s.pos + s.bprl + n.toNat * (2 + t.k.toNat) + 1023) ∧
      (s.cfg.estDiv = .nominal → t.pos ≤ s.pos + s.bprl + 512 * (sampleBits s.cfg.sampleW + 1) + 1023) ∧
      (s.cfg.estDiv = .actual → 1 ≤ n.toNat →
        t.pos ≤ s.pos + s.bprl + n.toNat * (2 + t.k.toNat) + (2 * n.toNat - 1)) ∧
      ((∀ x ∈ blockSamples s frame0.toNat n.toNat ch.toNat, x = 0) → t.pos = s.pos + s.bprl + 2 * n.toNat)

/-! ## Streams -/

/-- What `ENCODE` leaves where the checks pass and the stream fits: `BUF` holds exactly the stream, every other bit is 0,
and the registers are those of the last block of the last channel. -/
def Obligations.EncodeWritesStream : Prop :=
  ∀ s : State, s.Inv → s.channels ≠ 0 → s.bps ≠ 0 → s.rate ≠ 0 → s.count ≠ 0 →
    s.count.toNat * s.channels.toNat ≤ s.cfg.smpElems → s.encodedStream.length ≤ s.bufBits →
    ∃ t : State, exec .encode s = .next t ∧
      t.rsp = some (okResponse (word (ceilDiv s.encodedStream.length 8)) 0) ∧ t.pos = s.encodedStream.length ∧
      (∀ x, bufBit t.buf x = s.encodedStream.getD x false) ∧
      (∃ last : List Int,
        last = framesOfBlock s.count.toNat (fun f => s.sampleOf f (s.channels.toNat - 1)) (blockCount s.count.toNat - 1) ∧
        t.acc = BitVec.ofNat 64 (absDiffSum 0 last) ∧ t.avg = BitVec.ofNat 64 (blockAverage s.cfg last) ∧
        t.k = BitVec.ofNat 32 (blockParameter s.cfg last) ∧ t.prev = lastSample 0 last) ∧
      t = { s with
        buf := t.buf, curByte := t.curByte, curBit := t.curBit, k := t.k, prev := t.prev, acc := t.acc, avg := t.avg,
        rsp := t.rsp }

/-- Where the stream does not fit, `ENCODE` ends with `BufBounds` at the start of the `K` field or codeword that does not:
`BUF` holds the stream up to there and 0 bits from there on, the block registers are those of the block in progress, and
nothing else has changed. That `PREV` keeps its value where a `K` field does not fit is the model's choice, log 18. -/
def Obligations.EncodeKeepsPrefixWhenFull : Prop :=
  ∀ s : State, s.Inv → s.channels ≠ 0 → s.bps ≠ 0 → s.rate ≠ 0 → s.count ≠ 0 →
    s.count.toNat * s.channels.toNat ≤ s.cfg.smpElems → s.bufBits < s.encodedStream.length →
    ∃ (t : State) (b c : Nat), exec .encode s = .next t ∧ b < blockCount s.count.toNat ∧ c < s.channels.toNat ∧
      (let xs := s.blockOf b c
        let k := s.parameterOf b c
        t.acc = BitVec.ofNat 64 (absDiffSum 0 xs) ∧ t.avg = BitVec.ofNat 64 (blockAverage s.cfg xs) ∧
        t.k = BitVec.ofNat 32 k ∧
        ((t.pos = (s.soFar b c).length ∧ s.bufBits < t.pos + s.bprl ∧
            t.prev = (recordBefore s.channels.toNat b c).elim s.prev fun r => lastSample 0 (s.blockOf r.1 r.2)) ∨
          ∃ j, j < xs.length ∧ t.pos = (s.soFar b c ++ recordBits s.bprl k (xs.take j)).length ∧
            s.bufBits < (s.soFar b c ++ recordBits s.bprl k (xs.take (j + 1))).length ∧
            t.prev = lastSample 0 (xs.take j))) ∧
      t.rsp = (s.faulted .bufBounds (word t.pos)).rsp ∧ t.status = logFault .bufBounds s.status ∧ 160 ≤ t.pos ∧
      t.pos ≤ s.bufBits ∧ (∀ x, bufBit t.buf x = (decide (x < t.pos) && s.encodedStream.getD x false)) ∧
      t = { s with
        buf := t.buf, curByte := t.curByte, curBit := t.curBit, k := t.k, prev := t.prev, acc := t.acc, avg := t.avg,
        status := t.status, rsp := t.rsp }

/-- R187 and R188: the validity check, then the capacity check, for `ENCODE` on the registers and for `DECODE` on the
fields of a recognised header, which it has loaded by then. -/
def Obligations.StreamCommandsCheckParameters : Prop :=
  let refusal (channels bps rate count elems : Nat) (c : Cause) (info : Word) : Prop :=
    (channels = 0 ∧ c = .invalidParams ∧ info = 0) ∨
    (channels ≠ 0 ∧ bps = 0 ∧ c = .invalidParams ∧ info = 1) ∨
    (channels ≠ 0 ∧ bps ≠ 0 ∧ rate = 0 ∧ c = .invalidParams ∧ info = 2) ∨
    (channels ≠ 0 ∧ bps ≠ 0 ∧ rate ≠ 0 ∧ count = 0 ∧ c = .invalidParams ∧ info = 3) ∨
    (channels ≠ 0 ∧ bps ≠ 0 ∧ rate ≠ 0 ∧ count ≠ 0 ∧ elems < count * channels ∧ c = .resource ∧
      info = word (min (count * channels) (2 ^ 64 - 1)))
  (∀ (s : State) (c : Cause) (info : Word),
    refusal s.channels.toNat s.bps.toNat s.rate.toNat s.count.toNat s.cfg.smpElems c info →
    exec .encode s = .next (s.faulted c info)) ∧
  ∀ (s : State) (c : Cause) (info : Word), s.Inv → fieldAt s.buf 0 32 = 0x66777462 →
    refusal (fieldAt s.buf 96 16) (fieldAt s.buf 112 16) (fieldAt s.buf 128 32) (fieldAt s.buf 32 64) s.cfg.smpElems
      c info →
    exec .decode s =
      .next ({ s with
        curByte := 20, curBit := 0, count := BitVec.ofNat 64 (fieldAt s.buf 32 64),
        channels := BitVec.ofNat 32 (fieldAt s.buf 96 16), bps := BitVec.ofNat 32 (fieldAt s.buf 112 16),
        rate := BitVec.ofNat 32 (fieldAt s.buf 128 32), status := { s.status with hdrOk := true } }.faulted c info)

/-- R211: a wrong magic completes `RDHDR` and faults `DECODE`; neither changes a parameter register. -/
def Obligations.WrongMagicIsOutcomeOrFault : Prop :=
  ∀ s : State, s.Inv → fieldAt s.buf 0 32 ≠ 0x66777462 →
    exec .rdhdr s =
      .next { s with
        curByte := 4, curBit := 0, status := { s.status with hdrOk := false }, rsp := some (okResponse 0 0) } ∧
    exec .decode s =
      .next ({ s with curByte := 4, curBit := 0, status := { s.status with hdrOk := false } }.faulted .notRecognized
        (word (fieldAt s.buf 0 32)))

/-- What `DECODE` does on a stream that stands in `BUF`, whoever wrote it, and where only a part of one does: the
parameters of the header, the samples of the payload up to the fault if there is one, the cursor, and nothing else but
the registers of the last record. What an encoder writes is such a stream. That `K` and `PREV` keep their values where a
`K` field does not fit is the model's choice, log 18. -/
def Obligations.DecodeReadsStream : Prop :=
  (∀ (s : State) (sample : Nat → Nat → Int) (start : Nat → Nat → Nat), s.Inv → fieldAt s.buf 0 32 = 0x66777462 →
    let count := fieldAt s.buf 32 64
    let channels := fieldAt s.buf 96 16
    let bps := fieldAt s.buf 112 16
    let rate := fieldAt s.buf 128 32
    let bprl := bitLength bps
    let field (b c : Nat) : Nat := fieldAt s.buf (start b c) bprl
    let samples (b c : Nat) : List Int := framesOfBlock count (fun f => sample f c) b
    let standsBefore (b c : Nat) : Prop :=
      PayloadAt s.cfg.sampleW s.buf s.bufBits s.cfg.decAlign bprl count channels sample start b c
    let left (t : State) (b c j : Nat) : Prop :=
      t.count.toNat = count ∧ t.channels.toNat = channels ∧ t.bps.toNat = bps ∧ t.rate.toNat = rate ∧
      t.status.hdrOk = true ∧
      (∀ i, readSample t.smp i =
        if decodedBefore count channels b c j i then sample (i / channels) (i % channels) else readSample s.smp i) ∧
      t = { s with
        curByte := t.curByte, curBit := t.curBit, count := t.count, channels := t.channels, bps := t.bps, rate := t.rate,
        status := t.status, smp := t.smp, k := t.k, prev := t.prev, rsp := t.rsp }
    let ofRecordBefore (t : State) (b c : Nat) : Prop :=
      t.k = ((recordBefore channels b c).elim s.k fun r => BitVec.ofNat 32 (field r.1 r.2)) ∧
      t.prev = (recordBefore channels b c).elim s.prev fun r => lastSample 0 (samples r.1 r.2)
    count ≠ 0 → channels ≠ 0 → bps ≠ 0 → rate ≠ 0 → count * channels ≤ s.cfg.smpElems →
    (standsBefore (blockCount count) 0 →
      ∃ t : State, exec .decode s = .next t ∧ t.rsp = some (okResponse (word (count * channels)) 0) ∧
        t.status = { s.status with hdrOk := true } ∧ t.pos = start (blockCount count) 0 ∧
        left t (blockCount count) 0 0 ∧ ofRecordBefore t (blockCount count) 0 ∧
        ∀ i, i < count * channels → readSample t.smp i = sample (i / channels) (i % channels)) ∧
    ∀ b c, b < blockCount count → c < channels → standsBefore b c →
      (s.bufBits < start b c + bprl →
        ∃ t : State, exec .decode s = .next t ∧ t.rsp = (s.faulted .bufBounds (word (start b c))).rsp ∧
          t.status = logFault .bufBounds { s.status with hdrOk := true } ∧ t.pos = start b c ∧ left t b c 0 ∧
          ofRecordBefore t b c) ∧
      ∀ (j e stop : Nat) (cause : Cause) (info : Word), j < blockFrames count b →
        RecordAt s.cfg.sampleW s.buf s.bufBits bprl (start b c) ((samples b c).take j) e →
        CodewordFault s.cfg.sampleW s.buf s.bufBits (field b c) e (lastSample 0 ((samples b c).take j)) cause info stop →
        ∃ t : State, exec .decode s = .next t ∧ t.rsp = (s.faulted cause info).rsp ∧
          t.status = logFault cause { s.status with hdrOk := true } ∧ t.pos = stop ∧ left t b c j ∧
          t.k.toNat = field b c ∧ t.prev = lastSample 0 ((samples b c).take j)) ∧
  ∀ (w : SampleWidth) (m : List Host.Cell) (limit : Nat) (align : Bool) (count channels bps rate : Nat)
    (k : Nat → Nat → Nat) (sample : Nat → Nat → Int), count < 2 ^ 64 → channels < 2 ^ 16 → bps < 2 ^ 16 → rate < 2 ^ 32 →
    (∀ f c, f < count → c < channels → smpMin w ≤ sample f c ∧ sample f c ≤ smpMax w) →
    (∀ b c, b < blockCount count → c < channels → k b c < 2 ^ bitLength bps ∧ k b c ≤ 64) →
    let bits := streamBits align count channels bps rate k sample
    bits.length ≤ limit → bitsAt m 0 bits.length = bits →
    fieldAt m 0 32 = 0x66777462 ∧ fieldAt m 32 64 = count ∧ fieldAt m 96 16 = channels ∧ fieldAt m 112 16 = bps ∧
      fieldAt m 128 32 = rate ∧
      ∃ start : Nat → Nat → Nat,
        PayloadAt w m limit align (bitLength bps) count channels sample start (blockCount count) 0 ∧
        start (blockCount count) 0 = bits.length ∧
        ∀ b c, b < blockCount count → c < channels → fieldAt m (start b c) (bitLength bps) = k b c

/-- R186 under its preconditions (a) to (f): after `ENCODE`, whatever the host does that leaves the stream's bytes,
`DECODE` restores the parameters and the samples and ends at the same cursor. -/
def Obligations.StreamRoundTrip : Prop :=
  ∀ (s t u : State) (r : Response), s.Inv → exec .encode s = .next t → t.rsp = some r → r.status = 0 →
    (s.cfg.encAlign = s.cfg.decAlign ∨
      ∀ b, b ≤ blockCount s.count.toNat →
        (payloadBits false s.bprl s.channels.toNat s.parameterOf
          (fun b c => framesOfBlock s.count.toNat (fun f => s.sampleOf f c) b) b).length % 8 = 0) →
    s.channels.toNat < 2 ^ 16 → s.bps.toNat < 2 ^ 16 →
    (∀ b c, b < blockCount s.count.toNat → c < s.channels.toNat → s.parameterOf b c < 2 ^ s.bprl) →
    u.Inv → u.cfg = s.cfg → (∀ a, a < r.r0.toNat → readByte u.buf a = readByte t.buf a) →
    ∃ v : State, exec .decode u = .next v ∧ v.rsp = some (okResponse (word (s.count.toNat * s.channels.toNat)) 0) ∧
      v.channels = s.channels ∧ v.bps = s.bps ∧ v.rate = s.rate ∧ v.count = s.count ∧
      (∀ i, i < s.count.toNat * s.channels.toNat → readSample v.smp i = readSample s.smp i) ∧ v.pos = t.pos

/-- `ENCODE` and `DECODE` do not depend on what the cursor, `K`, `PREV`, `ACC` and `AVG` held before: the response, both
memories, the parameters and the flags come out the same, and a completed command leaves the same state (but for `ACC`
and `AVG`, which `DECODE` does not write). -/
def Obligations.StreamCommandsIgnoreOldRegisters : Prop :=
  ∀ (s u : State),
    u = { s with curByte := u.curByte, curBit := u.curBit, k := u.k, prev := u.prev, acc := u.acc, avg := u.avg } →
    let same (a b : State) : Prop :=
      b.rsp = a.rsp ∧ b.buf = a.buf ∧ b.smp = a.smp ∧ b.channels = a.channels ∧ b.bps = a.bps ∧ b.rate = a.rate ∧
        b.count = a.count ∧ b.status = a.status
    (∃ a b : State, exec .encode s = .next a ∧ exec .encode u = .next b ∧ same a b ∧
      ((∃ r, a.rsp = some r ∧ r.status = 0) → b = a)) ∧
    ∃ a b : State, exec .decode s = .next a ∧ exec .decode u = .next b ∧ same a b ∧
      ((∃ r, a.rsp = some r ∧ r.status = 0) → b = { a with acc := u.acc, avg := u.avg })
end

