-- ==== Sys2Proof/Laws/Memory.lean ====
section
/-! SUPPORT. The laws of a memory: a read gives the last write, other addresses stay, and every operation keeps the
canonical form. -/

namespace Sys2Proof.Machine

variable {α : Type} [DecidableEq α] {d : α} {m : List (Nat × α)}

omit [DecidableEq α] in
@[simp] theorem Memory.read_nil (a : Nat) : Memory.read d [] a = d := rfl

omit [DecidableEq α] in
theorem Memory.read_cons (b : Nat) (w : α) (a : Nat) :
    Memory.read d ((b, w) :: m) a = if a = b then w else Memory.read d m a := rfl

@[simp] theorem Memory.wfFrom_nil (lo : Nat) : Memory.wfFrom d lo [] = true := rfl

@[simp] theorem Memory.wfFrom_cons (lo b : Nat) (w : α) :
    Memory.wfFrom d lo ((b, w) :: m) = true ↔ lo ≤ b ∧ w ≠ d ∧ Memory.wfFrom d (b + 1) m = true := by
  simp [Memory.wfFrom, and_assoc]

theorem Memory.wfFrom_mono {lo lo' : Nat} (h : lo' ≤ lo) (hm : Memory.wfFrom d lo m = true) :
    Memory.wfFrom d lo' m = true := by
  cases m with
  | nil => rfl
  | cons c m => obtain ⟨b, w⟩ := c; simp at hm ⊢; exact ⟨by omega, hm.2⟩

theorem Memory.read_of_lt {lo : Nat} (hm : Memory.wfFrom d lo m = true) {a : Nat} (h : a < lo) :
    Memory.read d m a = d := by
  induction m generalizing lo with
  | nil => rfl
  | cons c m ih =>
    obtain ⟨b, w⟩ := c
    simp at hm
    rw [Memory.read_cons, if_neg (by omega), ih hm.2.2 (by omega)]

theorem Memory.wfFrom_write {lo : Nat} (hm : Memory.wfFrom d lo m = true) (a : Nat) (ha : lo ≤ a) (v : α) :
    Memory.wfFrom d lo (Memory.write d m a v) = true := by
  induction m generalizing lo with
  | nil => unfold Memory.write; split <;> simp_all
  | cons c m ih =>
    obtain ⟨b, w⟩ := c
    simp at hm
    unfold Memory.write
    split
    · split <;> simp_all
    · split
      · split
        · exact Memory.wfFrom_mono (by omega) hm.2.2
        · subst_vars; simp_all
      · simp only [Memory.wfFrom_cons]
        exact ⟨hm.1, hm.2.1, ih hm.2.2 (by omega)⟩

/-- A write keeps the canonical form. -/
theorem Memory.wf_write (hm : Memory.wf d m = true) (a : Nat) (v : α) :
    Memory.wf d (Memory.write d m a v) = true := Memory.wfFrom_write hm a (Nat.zero_le a) v

theorem Memory.read_write_from {lo : Nat} (hm : Memory.wfFrom d lo m = true) (a : Nat) (v : α) (x : Nat) :
    Memory.read d (Memory.write d m a v) x = if x = a then v else Memory.read d m x := by
  induction m generalizing lo with
  | nil => unfold Memory.write; split <;> simp_all [Memory.read]
  | cons c m ih =>
    obtain ⟨b, w⟩ := c
    simp at hm
    unfold Memory.write
    split
    · have hr : Memory.read d m a = d := Memory.read_of_lt hm.2.2 (by omega)
      by_cases hv : v = d
      · by_cases hx : x = a
        · rw [if_pos hv, Memory.read_cons, if_neg (by omega), hx, hr, if_pos rfl, hv]
        · rw [if_pos hv, if_neg hx]
      · rw [if_neg hv, Memory.read_cons]
    · split
      · rename_i _ hab
        have hr : Memory.read d m a = d := Memory.read_of_lt hm.2.2 (by omega)
        by_cases hx : x = a
        · by_cases hv : v = d
          · rw [if_pos hv, if_pos hx, hx, hr, hv]
          · rw [if_neg hv, Memory.read_cons]; simp [hx]
        · have hxb : x ≠ b := by omega
          by_cases hv : v = d
          · rw [if_pos hv, if_neg hx, Memory.read_cons, if_neg hxb]
          · rw [if_neg hv, Memory.read_cons, Memory.read_cons, if_neg hx, if_neg hxb, if_neg hx]
      · rw [Memory.read_cons, ih hm.2.2, Memory.read_cons]
        by_cases hx : x = a
        · rw [if_pos hx, if_neg (by omega), if_pos hx]
        · rw [if_neg hx, if_neg hx]

/-- A read gives the value last written there, and what was there before anywhere else. -/
theorem Memory.read_write (hm : Memory.wf d m = true) (a : Nat) (v : α) (x : Nat) :
    Memory.read d (Memory.write d m a v) x = if x = a then v else Memory.read d m x := Memory.read_write_from hm a v x

/-- Memories in canonical form with the same contents are the same list. -/
theorem Memory.ext_from {lo : Nat} {m' : List (Nat × α)} (hm : Memory.wfFrom d lo m = true)
    (hm' : Memory.wfFrom d lo m' = true) (h : ∀ a, Memory.read d m a = Memory.read d m' a) : m = m' := by
  induction m generalizing lo m' with
  | nil =>
    cases m' with
    | nil => rfl
    | cons c m' =>
      obtain ⟨b, w⟩ := c
      simp at hm'
      have := h b
      simp [Memory.read_cons] at this
      exact absurd this.symm hm'.2.1
  | cons c m ih =>
    obtain ⟨b, w⟩ := c
    simp at hm
    cases m' with
    | nil =>
      have := h b
      simp [Memory.read_cons] at this
      exact absurd this hm.2.1
    | cons c' m' =>
      obtain ⟨b', w'⟩ := c'
      simp at hm'
      have hb : b = b' := by
        have h1 := h b
        have h2 := h b'
        simp only [Memory.read_cons] at h1 h2
        rcases Nat.lt_trichotomy b b' with hlt | heq | hgt
        · rw [if_pos trivial, if_neg (by omega), Memory.read_of_lt hm'.2.2 (by omega)] at h1
          exact absurd h1 hm.2.1
        · exact heq
        · rw [if_pos trivial, if_neg (by omega), Memory.read_of_lt hm.2.2 (by omega)] at h2
          exact absurd h2.symm hm'.2.1
      subst hb
      have hw : w = w' := by have := h b; simpa [Memory.read_cons] using this
      subst hw
      have : m = m' := by
        refine ih hm.2.2 hm'.2.2 fun a => ?_
        by_cases ha : a = b
        · subst ha
          rw [Memory.read_of_lt hm.2.2 (by omega), Memory.read_of_lt hm'.2.2 (by omega)]
        · have := h a
          simpa [Memory.read_cons, ha] using this
      rw [this]

theorem Memory.ext {m' : List (Nat × α)} (hm : Memory.wf d m = true) (hm' : Memory.wf d m' = true)
    (h : ∀ a, Memory.read d m a = Memory.read d m' a) : m = m' := Memory.ext_from hm hm' h

/-! ## Within a size -/

theorem Memory.within_iff {n : Nat} :
    Memory.within d n m = true ↔ Memory.wf d m = true ∧ ∀ c ∈ m, c.1 < n := by simp [Memory.within]

theorem Memory.wf_of_within {n : Nat} (h : Memory.within d n m = true) : Memory.wf d m = true :=
  (Memory.within_iff.mp h).1

omit [DecidableEq α] in
theorem Memory.read_of_notin {a : Nat} (h : ∀ c ∈ m, c.1 ≠ a) : Memory.read d m a = d := by
  induction m with
  | nil => rfl
  | cons c m ih =>
    obtain ⟨b, w⟩ := c
    have hb := h (b, w) (by simp)
    rw [Memory.read_cons, if_neg (fun e => hb e.symm), ih fun c hc => h c (by simp [hc])]

/-- Beyond its size a memory lists nothing. -/
theorem Memory.read_beyond {n a : Nat} (h : Memory.within d n m = true) (ha : n ≤ a) : Memory.read d m a = d :=
  Memory.read_of_notin fun c hc => by have := (Memory.within_iff.mp h).2 c hc; omega

theorem Memory.mem_write {a : Nat} {v : α} {c : Nat × α} (h : c ∈ Memory.write d m a v) : c ∈ m ∨ c = (a, v) := by
  induction m with
  | nil => unfold Memory.write at h; split at h <;> simp_all
  | cons e m ih =>
    obtain ⟨b, w⟩ := e
    unfold Memory.write at h
    split at h
    · split at h <;> simp_all
      tauto
    · split at h
      · split at h
        · simp [h]
        · simp only [List.mem_cons] at h ⊢; tauto
      · simp only [List.mem_cons] at h ⊢
        rcases h with h | h
        · exact .inl (.inl h)
        · rcases ih h with h | h <;> simp [h]

theorem Memory.within_write {n : Nat} (h : Memory.within d n m = true) {a : Nat} (ha : a < n) (v : α) :
    Memory.within d n (Memory.write d m a v) = true := by
  rw [Memory.within_iff] at h ⊢
  refine ⟨Memory.wf_write h.1 a v, fun c hc => ?_⟩
  rcases Memory.mem_write hc with hc | rfl
  · exact h.2 c hc
  · exact ha

/-! ## Clearing -/

theorem Memory.wfFrom_filter {lo : Nat} (hm : Memory.wfFrom d lo m = true) (p : Nat × α → Bool) :
    Memory.wfFrom d lo (m.filter p) = true := by
  induction m generalizing lo with
  | nil => rfl
  | cons c m ih =>
    obtain ⟨b, w⟩ := c
    simp at hm
    simp only [List.filter_cons]
    split
    · simp only [Memory.wfFrom_cons]; exact ⟨hm.1, hm.2.1, ih hm.2.2⟩
    · exact Memory.wfFrom_mono (by omega) (ih hm.2.2)

theorem Memory.wf_clearBelow (hm : Memory.wf d m = true) (n : Nat) : Memory.wf d (Memory.clearBelow n m) = true :=
  Memory.wfFrom_filter hm _

/-- Clearing a whole memory leaves the empty list. -/
theorem Memory.clearBelow_within {n : Nat} (h : Memory.within d n m = true) : Memory.clearBelow n m = [] := by
  simp only [Memory.clearBelow, List.filter_eq_nil_iff, decide_eq_true_eq]
  exact fun c hc => by have := (Memory.within_iff.mp h).2 c hc; omega

omit [DecidableEq α] in
theorem Memory.read_clearBelow (n a : Nat) :
    Memory.read d (Memory.clearBelow n m) a = if a < n then d else Memory.read d m a := by
  induction m with
  | nil => simp [Memory.clearBelow]
  | cons c m ih =>
    obtain ⟨b, w⟩ := c
    simp only [Memory.clearBelow, List.filter_cons] at ih ⊢
    by_cases hb : n ≤ b
    · rw [if_pos (by simpa using hb), Memory.read_cons, ih, Memory.read_cons]
      by_cases ha : a = b
      · simp [ha]; omega
      · simp [ha]
    · rw [if_neg (by simpa using hb), ih, Memory.read_cons]
      by_cases ha : a = b
      · rw [if_pos (by omega), if_pos (by omega)]
      · simp [ha]

/-- The memories of `State.reset` are in canonical form. -/
theorem State.reset_memories_wf :
    Memory.wf 0#8 State.reset.buf = true ∧ Memory.wf 0 State.reset.smp = true := ⟨rfl, rfl⟩

/-! ## Elements -/

theorem Memory.all_write {p : Nat × α → Bool} (h : m.all p = true) {a : Nat} {v : α} (hv : p (a, v) = true) :
    (Memory.write d m a v).all p = true := by
  rw [List.all_eq_true] at h ⊢
  intro c hc
  rcases Memory.mem_write hc with hc | rfl
  · exact h c hc
  · exact hv

omit [DecidableEq α] in
/-- A property of `d` and of every listed value holds of whatever is read. -/
theorem Memory.read_of_all {p : α → Bool} (h : (m.all fun c => p c.2) = true) (hd : p d = true) (a : Nat) :
    p (Memory.read d m a) = true := by
  induction m with
  | nil => exact hd
  | cons c m ih =>
    obtain ⟨b, w⟩ := c
    simp at h
    rw [Memory.read_cons]
    split
    · exact h.1
    · exact ih (by simpa using h.2)

end Sys2Proof.Machine
end

