-- ==== Sys2Proof/Laws/Bits.lean ====
section
/-! SUPPORT. The bits of `BUF`: what an OR-write changes, and what fields and runs read back. -/

namespace Sys2Proof.Machine

variable {m m' : List Host.Cell}

/-! ## Lists of bits -/

@[simp] theorem uintBits_length (w v : Nat) : (uintBits w v).length = w := by simp [uintBits]

@[simp] theorem uintBits_zero (v : Nat) : uintBits 0 v = [] := rfl

theorem uintBits_getD (w v i : Nat) : (uintBits w v).getD i false = (decide (i < w) && v.testBit i) := by
  by_cases h : i < w <;> simp [uintBits, List.getD, h]

/-- Only the low `w` bits count. -/
theorem uintBits_mod (w v : Nat) : uintBits w (v % 2 ^ w) = uintBits w v := by
  apply List.map_congr_left
  intro i hi
  rw [List.mem_range] at hi
  simp [Nat.testBit_mod_two_pow, hi]

theorem replicate_getD (w i : Nat) (b : Bool) : (List.replicate w b).getD i false = (decide (i < w) && b) := by
  by_cases h : i < w <;> simp [List.getD, h]

theorem getD_append (a b : List Bool) (i : Nat) :
    (a ++ b).getD i false = if i < a.length then a.getD i false else b.getD (i - a.length) false := by
  by_cases h : i < a.length <;> simp [List.getD, List.getElem?_append, h]

theorem getD_of_ge {bs : List Bool} {i : Nat} (h : bs.length ≤ i) : bs.getD i false = false := by simp [List.getD, h]

/-! ## One bit -/

theorem byte_bit (b : Byte) (v : Bool) {k : Nat} (hk : k < 8) (i : Nat) :
    (b ||| (BitVec.ofNat 8 v.toNat <<< k)).getLsbD i = (b.getLsbD i || (decide (i = k) && v)) := by
  by_cases hi : i < 8
  · have hv : (BitVec.ofNat 8 v.toNat).getLsbD (i - k) = (decide (i - k = 0) && v) := by
      cases v <;> simp [BitVec.getLsbD_one]
    simp only [BitVec.getLsbD_or, BitVec.getLsbD_shiftLeft, hv, hi, decide_true, Bool.true_and]
    by_cases h : i = k
    · simp [h]
    · by_cases h2 : i < k
      · simp [h, h2]
      · have : i - k ≠ 0 := by omega
        simp [h, this]
  · have h : i ≠ k := by omega
    simp [BitVec.getLsbD_of_ge _ _ (Nat.le_of_not_lt hi), h]

/-- The OR-write sets the bit it writes and leaves every other bit (20_memory.md R58, R60). -/
theorem bufBit_orBit (hm : Memory.wf 0#8 m = true) (p : Nat) (v : Bool) (x : Nat) :
    bufBit (orBit m p v) x = (bufBit m x || (decide (x = p) && v)) := by
  unfold bufBit orBit readByte
  rw [Memory.read_write hm]
  split
  · rename_i h
    rw [byte_bit _ _ (Nat.mod_lt _ (by omega)), h]
    have : (x % 8 = p % 8) ↔ (x = p) := by omega
    simp [this]
  · have : x ≠ p := by rintro rfl; contradiction
    simp [this]

theorem wf_orBit (hm : Memory.wf 0#8 m = true) (p : Nat) (v : Bool) : Memory.wf 0#8 (orBit m p v) = true :=
  Memory.wf_write hm _ _

theorem within_orBit {n : Nat} (hm : Memory.within 0#8 n m = true) {p : Nat} (hp : p < 8 * n) (v : Bool) :
    Memory.within 0#8 n (orBit m p v) = true :=
  Memory.within_write hm (by omega) _

/-! ## Runs -/

@[simp] theorem orBits_nil (p : Nat) : orBits m p [] = m := rfl

theorem wf_orBits (hm : Memory.wf 0#8 m = true) (p : Nat) (bs : List Bool) : Memory.wf 0#8 (orBits m p bs) = true := by
  induction bs generalizing m p with
  | nil => exact hm
  | cons b bs ih => exact ih (wf_orBit hm p b) (p + 1)

theorem within_orBits {n : Nat} (hm : Memory.within 0#8 n m = true) {p : Nat} {bs : List Bool}
    (hp : p + bs.length ≤ 8 * n) : Memory.within 0#8 n (orBits m p bs) = true := by
  induction bs generalizing m p with
  | nil => exact hm
  | cons b bs ih =>
    simp only [List.length_cons] at hp
    exact ih (within_orBit hm (by omega) b) (by omega)

/-- A run of OR-writes changes the bits it writes and no other. -/
theorem bufBit_orBits (hm : Memory.wf 0#8 m = true) (p : Nat) (bs : List Bool) (x : Nat) :
    bufBit (orBits m p bs) x = (bufBit m x || (decide (p ≤ x) && bs.getD (x - p) false)) := by
  induction bs generalizing m p with
  | nil => simp
  | cons b bs ih =>
    simp only [orBits]
    rw [ih (wf_orBit hm p b), bufBit_orBit hm]
    by_cases h : x = p
    · simp [h]
    · by_cases h2 : p ≤ x
      · have h3 : x - p = (x - (p + 1)) + 1 := by omega
        have h4 : p + 1 ≤ x := by omega
        rw [h3]
        simp [h, h2, h4]
      · have h4 : ¬ p + 1 ≤ x := by omega
        simp [h, h2, h4]

theorem orBits_append (m : List Host.Cell) (p : Nat) (a b : List Bool) :
    orBits m p (a ++ b) = orBits (orBits m p a) (p + a.length) b := by
  induction a generalizing m p with
  | nil => rfl
  | cons c a ih => simp only [List.cons_append, orBits, ih, List.length_cons]; congr 1; omega

/-- Memories in canonical form with the same bits are the same list. -/
theorem buf_ext (hm : Memory.wf 0#8 m = true) (hm' : Memory.wf 0#8 m' = true)
    (h : ∀ x, bufBit m x = bufBit m' x) : m = m' := by
  refine Memory.ext hm hm' fun a => BitVec.eq_of_getLsbD_eq fun i hi => ?_
  have := h (8 * a + i)
  simpa [bufBit, readByte, show (8 * a + i) / 8 = a by omega, show (8 * a + i) % 8 = i by omega] using this

theorem bufBit_beyond {n p : Nat} (h : Memory.within 0#8 n m = true) (hp : 8 * n ≤ p) : bufBit m p = false := by
  unfold bufBit readByte
  rw [Memory.read_beyond h (by omega)]
  simp

/-! ## Fields -/

theorem fieldAt_testBit (m : List Host.Cell) (p w i : Nat) :
    (fieldAt m p w).testBit i = (decide (i < w) && bufBit m (p + i)) := by
  induction w generalizing p i with
  | zero => simp [fieldAt]
  | succ w ih =>
    have hb : (bufBit m p).toNat < 2 := by cases bufBit m p <;> decide
    cases i with
    | zero =>
      simp only [fieldAt, Nat.testBit_zero, Nat.add_zero, Nat.zero_lt_succ, decide_true, Bool.true_and]
      cases bufBit m p <;> simp [Nat.add_mod]
    | succ i =>
      rw [fieldAt, Nat.testBit_succ, show ((bufBit m p).toNat + 2 * fieldAt m (p + 1) w) / 2 = fieldAt m (p + 1) w by omega,
        ih, show p + 1 + i = p + (i + 1) by omega]
      simp

theorem fieldAt_lt (m : List Host.Cell) (p w : Nat) : fieldAt m p w < 2 ^ w := by
  refine Nat.lt_of_testBit w (by simp [fieldAt_testBit]) (by simp) fun j hj => ?_
  have : ¬ j < w := by omega
  have h2 : w ≠ j := by omega
  simp [fieldAt_testBit, this, h2]

/-- A field whose bits are those of `v` reads as `v mod 2^w` (41_bit_cursor.md R121). -/
theorem fieldAt_of_bits {p w v : Nat} (h : ∀ i, i < w → bufBit m (p + i) = v.testBit i) :
    fieldAt m p w = v % 2 ^ w := by
  apply Nat.eq_of_testBit_eq
  intro i
  rw [fieldAt_testBit, Nat.testBit_mod_two_pow]
  by_cases hi : i < w <;> simp [hi, h]

theorem fieldAt_congr {p w : Nat} (h : ∀ i, i < w → bufBit m (p + i) = bufBit m' (p + i)) :
    fieldAt m p w = fieldAt m' p w := by
  apply Nat.eq_of_testBit_eq
  intro i
  rw [fieldAt_testBit, fieldAt_testBit]
  by_cases hi : i < w <;> simp [hi, h]

@[simp] theorem fieldAt_zero (p : Nat) : fieldAt m p 0 = 0 := rfl

/-! ## Unary runs -/

/-- The run found is the least that ends in a 0 (41_bit_cursor.md R117). -/
theorem onesAt_eq_some {p n q : Nat} :
    onesAt m p n = some q ↔ q < n ∧ bufBit m (p + q) = false ∧ ∀ j, j < q → bufBit m (p + j) = true := by
  induction n generalizing p q with
  | zero => simp [onesAt]
  | succ n ih =>
    unfold onesAt
    cases hb : bufBit m p with
    | false =>
      simp only [Bool.false_eq_true, if_false, Option.some.injEq]
      constructor
      · rintro rfl; simpa using hb
      · rintro ⟨_, _, h⟩
        by_contra h0
        have := h 0 (by omega)
        simp [hb] at this
    | true =>
      simp only [if_true, Option.map_eq_some_iff]
      constructor
      · rintro ⟨q', h, rfl⟩
        obtain ⟨h1, h2, h3⟩ := ih.mp h
        refine ⟨by omega, by rw [← h2]; congr 1; omega, fun j hj => ?_⟩
        cases j with
        | zero => simpa using hb
        | succ j => rw [← h3 j (by omega)]; congr 1; omega
      · rintro ⟨h1, h2, h3⟩
        cases q with
        | zero => simp [hb] at h2
        | succ q =>
          refine ⟨q, ih.mpr ⟨by omega, by rw [← h2]; congr 1; omega, fun j hj => ?_⟩, rfl⟩
          rw [← h3 (j + 1) (by omega)]; congr 1; omega

theorem onesAt_eq_none {p n : Nat} : onesAt m p n = none ↔ ∀ j, j < n → bufBit m (p + j) = true := by
  induction n generalizing p with
  | zero => simp [onesAt]
  | succ n ih =>
    unfold onesAt
    cases hb : bufBit m p with
    | false =>
      simp only [Bool.false_eq_true, if_false, reduceCtorEq, false_iff, not_forall]
      exact ⟨0, by omega, by simp [hb]⟩
    | true =>
      simp only [if_true, Option.map_eq_none_iff, ih]
      constructor
      · intro h j hj
        cases j with
        | zero => simpa using hb
        | succ j => rw [← h j (by omega)]; congr 1; omega
      · intro h j hj
        rw [← h (j + 1) (by omega)]; congr 1; omega

/-! ## Runs of bits as lists -/

@[simp] theorem bitsAt_length (m : List Host.Cell) (p n : Nat) : (bitsAt m p n).length = n := by simp [bitsAt]

theorem bitsAt_eq_iff {p : Nat} {bs : List Bool} :
    bitsAt m p bs.length = bs ↔ ∀ i, i < bs.length → bufBit m (p + i) = bs.getD i false := by
  constructor
  · intro h i hi
    have h2 : (bitsAt m p bs.length).getD i false = bs.getD i false := by rw [h]
    simpa [bitsAt, List.getD, hi] using h2
  · intro h
    apply List.ext_getElem (by simp)
    intro i h1 h2
    have := h i h2
    simpa [bitsAt, List.getD, h2] using this

theorem bitsAt_append {p : Nat} {a b : List Bool} :
    bitsAt m p (a ++ b).length = a ++ b ↔
      bitsAt m p a.length = a ∧ bitsAt m (p + a.length) b.length = b := by
  simp only [bitsAt_eq_iff]
  constructor
  · intro h
    refine ⟨fun i hi => ?_, fun i hi => ?_⟩
    · rw [h i (by simp; omega), getD_append, if_pos hi]
    · have := h (a.length + i) (by simp; omega)
      rw [getD_append, if_neg (by omega), show a.length + i - a.length = i by omega] at this
      rw [← this]; congr 1; omega
  · rintro ⟨h1, h2⟩ i hi
    rw [getD_append]
    split
    · rename_i h; exact h1 i h
    · rename_i h
      rw [← h2 (i - a.length) (by simp at hi; omega)]; congr 1; omega

/-- What an OR-write leaves where the bits were 0 before (70_reset_and_hazards.md R226). -/
theorem bitsAt_orBits (hm : Memory.wf 0#8 m = true) {p : Nat} {bs : List Bool}
    (h : ∀ i, i < bs.length → bufBit m (p + i) = false) : bitsAt (orBits m p bs) p bs.length = bs := by
  rw [bitsAt_eq_iff]
  intro i hi
  rw [bufBit_orBits hm, h i hi]
  simp

end Sys2Proof.Machine
end

