-- ==== Sys2Proof/Laws/State.lean ====
section
/-! SUPPORT. One lemma per field per named update of the state (Machine/Ops.lean), and the derived values of
Machine/Operands.lean that an update leaves alone. -/

namespace Sys2Proof.Machine

variable (s : State)

/-! ## seek -/

@[simp] theorem State.seek_cfg (p : Nat) : (s.seek p).cfg = s.cfg := rfl
@[simp] theorem State.seek_curByte (p : Nat) : (s.seek p).curByte = BitVec.ofNat 64 (p / 8) := rfl
@[simp] theorem State.seek_curBit (p : Nat) : (s.seek p).curBit = BitVec.ofNat 3 (p % 8) := rfl
@[simp] theorem State.seek_k (p : Nat) : (s.seek p).k = s.k := rfl
@[simp] theorem State.seek_prev (p : Nat) : (s.seek p).prev = s.prev := rfl
@[simp] theorem State.seek_acc (p : Nat) : (s.seek p).acc = s.acc := rfl
@[simp] theorem State.seek_avg (p : Nat) : (s.seek p).avg = s.avg := rfl
@[simp] theorem State.seek_channels (p : Nat) : (s.seek p).channels = s.channels := rfl
@[simp] theorem State.seek_bps (p : Nat) : (s.seek p).bps = s.bps := rfl
@[simp] theorem State.seek_rate (p : Nat) : (s.seek p).rate = s.rate := rfl
@[simp] theorem State.seek_count (p : Nat) : (s.seek p).count = s.count := rfl
@[simp] theorem State.seek_status (p : Nat) : (s.seek p).status = s.status := rfl
@[simp] theorem State.seek_buf (p : Nat) : (s.seek p).buf = s.buf := rfl
@[simp] theorem State.seek_smp (p : Nat) : (s.seek p).smp = s.smp := rfl
@[simp] theorem State.seek_pending (p : Nat) : (s.seek p).pending = s.pending := rfl
@[simp] theorem State.seek_rsp (p : Nat) : (s.seek p).rsp = s.rsp := rfl
@[simp] theorem State.seek_bufBits (p : Nat) : (s.seek p).bufBits = s.bufBits := rfl
@[simp] theorem State.seek_bprl (p : Nat) : (s.seek p).bprl = s.bprl := rfl
@[simp] theorem State.seek_smpIndex (p : Nat) (f ch : Nat) : (s.seek p).smpIndex f ch = s.smpIndex f ch := rfl
@[simp] theorem State.seek_holdsSample (p : Nat) (y : Int) : (s.seek p).holdsSample y = s.holdsSample y := rfl
@[simp] theorem State.seek_elements (p : Nat) : (s.seek p).elements = s.elements := rfl

/-! ## withBuf -/

@[simp] theorem State.withBuf_cfg (m : List Host.Cell) : (s.withBuf m).cfg = s.cfg := rfl
@[simp] theorem State.withBuf_curByte (m : List Host.Cell) : (s.withBuf m).curByte = s.curByte := rfl
@[simp] theorem State.withBuf_curBit (m : List Host.Cell) : (s.withBuf m).curBit = s.curBit := rfl
@[simp] theorem State.withBuf_k (m : List Host.Cell) : (s.withBuf m).k = s.k := rfl
@[simp] theorem State.withBuf_prev (m : List Host.Cell) : (s.withBuf m).prev = s.prev := rfl
@[simp] theorem State.withBuf_acc (m : List Host.Cell) : (s.withBuf m).acc = s.acc := rfl
@[simp] theorem State.withBuf_avg (m : List Host.Cell) : (s.withBuf m).avg = s.avg := rfl
@[simp] theorem State.withBuf_channels (m : List Host.Cell) : (s.withBuf m).channels = s.channels := rfl
@[simp] theorem State.withBuf_bps (m : List Host.Cell) : (s.withBuf m).bps = s.bps := rfl
@[simp] theorem State.withBuf_rate (m : List Host.Cell) : (s.withBuf m).rate = s.rate := rfl
@[simp] theorem State.withBuf_count (m : List Host.Cell) : (s.withBuf m).count = s.count := rfl
@[simp] theorem State.withBuf_status (m : List Host.Cell) : (s.withBuf m).status = s.status := rfl
@[simp] theorem State.withBuf_buf (m : List Host.Cell) : (s.withBuf m).buf = m := rfl
@[simp] theorem State.withBuf_smp (m : List Host.Cell) : (s.withBuf m).smp = s.smp := rfl
@[simp] theorem State.withBuf_pending (m : List Host.Cell) : (s.withBuf m).pending = s.pending := rfl
@[simp] theorem State.withBuf_rsp (m : List Host.Cell) : (s.withBuf m).rsp = s.rsp := rfl
@[simp] theorem State.withBuf_pos (m : List Host.Cell) : (s.withBuf m).pos = s.pos := rfl
@[simp] theorem State.withBuf_bufBits (m : List Host.Cell) : (s.withBuf m).bufBits = s.bufBits := rfl
@[simp] theorem State.withBuf_bprl (m : List Host.Cell) : (s.withBuf m).bprl = s.bprl := rfl
@[simp] theorem State.withBuf_smpIndex (m : List Host.Cell) (f ch : Nat) : (s.withBuf m).smpIndex f ch = s.smpIndex f ch := rfl
@[simp] theorem State.withBuf_holdsSample (m : List Host.Cell) (y : Int) : (s.withBuf m).holdsSample y = s.holdsSample y := rfl
@[simp] theorem State.withBuf_elements (m : List Host.Cell) : (s.withBuf m).elements = s.elements := rfl

/-! ## withSmp -/

@[simp] theorem State.withSmp_cfg (m : List (Nat × Int)) : (s.withSmp m).cfg = s.cfg := rfl
@[simp] theorem State.withSmp_curByte (m : List (Nat × Int)) : (s.withSmp m).curByte = s.curByte := rfl
@[simp] theorem State.withSmp_curBit (m : List (Nat × Int)) : (s.withSmp m).curBit = s.curBit := rfl
@[simp] theorem State.withSmp_k (m : List (Nat × Int)) : (s.withSmp m).k = s.k := rfl
@[simp] theorem State.withSmp_prev (m : List (Nat × Int)) : (s.withSmp m).prev = s.prev := rfl
@[simp] theorem State.withSmp_acc (m : List (Nat × Int)) : (s.withSmp m).acc = s.acc := rfl
@[simp] theorem State.withSmp_avg (m : List (Nat × Int)) : (s.withSmp m).avg = s.avg := rfl
@[simp] theorem State.withSmp_channels (m : List (Nat × Int)) : (s.withSmp m).channels = s.channels := rfl
@[simp] theorem State.withSmp_bps (m : List (Nat × Int)) : (s.withSmp m).bps = s.bps := rfl
@[simp] theorem State.withSmp_rate (m : List (Nat × Int)) : (s.withSmp m).rate = s.rate := rfl
@[simp] theorem State.withSmp_count (m : List (Nat × Int)) : (s.withSmp m).count = s.count := rfl
@[simp] theorem State.withSmp_status (m : List (Nat × Int)) : (s.withSmp m).status = s.status := rfl
@[simp] theorem State.withSmp_buf (m : List (Nat × Int)) : (s.withSmp m).buf = s.buf := rfl
@[simp] theorem State.withSmp_smp (m : List (Nat × Int)) : (s.withSmp m).smp = m := rfl
@[simp] theorem State.withSmp_pending (m : List (Nat × Int)) : (s.withSmp m).pending = s.pending := rfl
@[simp] theorem State.withSmp_rsp (m : List (Nat × Int)) : (s.withSmp m).rsp = s.rsp := rfl
@[simp] theorem State.withSmp_pos (m : List (Nat × Int)) : (s.withSmp m).pos = s.pos := rfl
@[simp] theorem State.withSmp_bufBits (m : List (Nat × Int)) : (s.withSmp m).bufBits = s.bufBits := rfl
@[simp] theorem State.withSmp_bprl (m : List (Nat × Int)) : (s.withSmp m).bprl = s.bprl := rfl
@[simp] theorem State.withSmp_smpIndex (m : List (Nat × Int)) (f ch : Nat) : (s.withSmp m).smpIndex f ch = s.smpIndex f ch := rfl
@[simp] theorem State.withSmp_holdsSample (m : List (Nat × Int)) (y : Int) : (s.withSmp m).holdsSample y = s.holdsSample y := rfl
@[simp] theorem State.withSmp_elements (m : List (Nat × Int)) : (s.withSmp m).elements = s.elements := rfl

/-! ## withK -/

@[simp] theorem State.withK_cfg (v : Nat) : (s.withK v).cfg = s.cfg := rfl
@[simp] theorem State.withK_curByte (v : Nat) : (s.withK v).curByte = s.curByte := rfl
@[simp] theorem State.withK_curBit (v : Nat) : (s.withK v).curBit = s.curBit := rfl
@[simp] theorem State.withK_k (v : Nat) : (s.withK v).k = BitVec.ofNat 32 v := rfl
@[simp] theorem State.withK_prev (v : Nat) : (s.withK v).prev = s.prev := rfl
@[simp] theorem State.withK_acc (v : Nat) : (s.withK v).acc = s.acc := rfl
@[simp] theorem State.withK_avg (v : Nat) : (s.withK v).avg = s.avg := rfl
@[simp] theorem State.withK_channels (v : Nat) : (s.withK v).channels = s.channels := rfl
@[simp] theorem State.withK_bps (v : Nat) : (s.withK v).bps = s.bps := rfl
@[simp] theorem State.withK_rate (v : Nat) : (s.withK v).rate = s.rate := rfl
@[simp] theorem State.withK_count (v : Nat) : (s.withK v).count = s.count := rfl
@[simp] theorem State.withK_status (v : Nat) : (s.withK v).status = s.status := rfl
@[simp] theorem State.withK_buf (v : Nat) : (s.withK v).buf = s.buf := rfl
@[simp] theorem State.withK_smp (v : Nat) : (s.withK v).smp = s.smp := rfl
@[simp] theorem State.withK_pending (v : Nat) : (s.withK v).pending = s.pending := rfl
@[simp] theorem State.withK_rsp (v : Nat) : (s.withK v).rsp = s.rsp := rfl
@[simp] theorem State.withK_pos (v : Nat) : (s.withK v).pos = s.pos := rfl
@[simp] theorem State.withK_bufBits (v : Nat) : (s.withK v).bufBits = s.bufBits := rfl
@[simp] theorem State.withK_bprl (v : Nat) : (s.withK v).bprl = s.bprl := rfl
@[simp] theorem State.withK_smpIndex (v : Nat) (f ch : Nat) : (s.withK v).smpIndex f ch = s.smpIndex f ch := rfl
@[simp] theorem State.withK_holdsSample (v : Nat) (y : Int) : (s.withK v).holdsSample y = s.holdsSample y := rfl
@[simp] theorem State.withK_elements (v : Nat) : (s.withK v).elements = s.elements := rfl

/-! ## withPrev -/

@[simp] theorem State.withPrev_cfg (x : Int) : (s.withPrev x).cfg = s.cfg := rfl
@[simp] theorem State.withPrev_curByte (x : Int) : (s.withPrev x).curByte = s.curByte := rfl
@[simp] theorem State.withPrev_curBit (x : Int) : (s.withPrev x).curBit = s.curBit := rfl
@[simp] theorem State.withPrev_k (x : Int) : (s.withPrev x).k = s.k := rfl
@[simp] theorem State.withPrev_prev (x : Int) : (s.withPrev x).prev = x := rfl
@[simp] theorem State.withPrev_acc (x : Int) : (s.withPrev x).acc = s.acc := rfl
@[simp] theorem State.withPrev_avg (x : Int) : (s.withPrev x).avg = s.avg := rfl
@[simp] theorem State.withPrev_channels (x : Int) : (s.withPrev x).channels = s.channels := rfl
@[simp] theorem State.withPrev_bps (x : Int) : (s.withPrev x).bps = s.bps := rfl
@[simp] theorem State.withPrev_rate (x : Int) : (s.withPrev x).rate = s.rate := rfl
@[simp] theorem State.withPrev_count (x : Int) : (s.withPrev x).count = s.count := rfl
@[simp] theorem State.withPrev_status (x : Int) : (s.withPrev x).status = s.status := rfl
@[simp] theorem State.withPrev_buf (x : Int) : (s.withPrev x).buf = s.buf := rfl
@[simp] theorem State.withPrev_smp (x : Int) : (s.withPrev x).smp = s.smp := rfl
@[simp] theorem State.withPrev_pending (x : Int) : (s.withPrev x).pending = s.pending := rfl
@[simp] theorem State.withPrev_rsp (x : Int) : (s.withPrev x).rsp = s.rsp := rfl
@[simp] theorem State.withPrev_pos (x : Int) : (s.withPrev x).pos = s.pos := rfl
@[simp] theorem State.withPrev_bufBits (x : Int) : (s.withPrev x).bufBits = s.bufBits := rfl
@[simp] theorem State.withPrev_bprl (x : Int) : (s.withPrev x).bprl = s.bprl := rfl
@[simp] theorem State.withPrev_smpIndex (x : Int) (f ch : Nat) : (s.withPrev x).smpIndex f ch = s.smpIndex f ch := rfl
@[simp] theorem State.withPrev_holdsSample (x : Int) (y : Int) : (s.withPrev x).holdsSample y = s.holdsSample y := rfl
@[simp] theorem State.withPrev_elements (x : Int) : (s.withPrev x).elements = s.elements := rfl

/-! ## withEstimate -/

@[simp] theorem State.withEstimate_cfg (a b c : Nat) : (s.withEstimate a b c).cfg = s.cfg := rfl
@[simp] theorem State.withEstimate_curByte (a b c : Nat) : (s.withEstimate a b c).curByte = s.curByte := rfl
@[simp] theorem State.withEstimate_curBit (a b c : Nat) : (s.withEstimate a b c).curBit = s.curBit := rfl
@[simp] theorem State.withEstimate_k (a b c : Nat) : (s.withEstimate a b c).k = BitVec.ofNat 32 c := rfl
@[simp] theorem State.withEstimate_prev (a b c : Nat) : (s.withEstimate a b c).prev = s.prev := rfl
@[simp] theorem State.withEstimate_acc (a b c : Nat) : (s.withEstimate a b c).acc = BitVec.ofNat 64 a := rfl
@[simp] theorem State.withEstimate_avg (a b c : Nat) : (s.withEstimate a b c).avg = BitVec.ofNat 64 b := rfl
@[simp] theorem State.withEstimate_channels (a b c : Nat) : (s.withEstimate a b c).channels = s.channels := rfl
@[simp] theorem State.withEstimate_bps (a b c : Nat) : (s.withEstimate a b c).bps = s.bps := rfl
@[simp] theorem State.withEstimate_rate (a b c : Nat) : (s.withEstimate a b c).rate = s.rate := rfl
@[simp] theorem State.withEstimate_count (a b c : Nat) : (s.withEstimate a b c).count = s.count := rfl
@[simp] theorem State.withEstimate_status (a b c : Nat) : (s.withEstimate a b c).status = s.status := rfl
@[simp] theorem State.withEstimate_buf (a b c : Nat) : (s.withEstimate a b c).buf = s.buf := rfl
@[simp] theorem State.withEstimate_smp (a b c : Nat) : (s.withEstimate a b c).smp = s.smp := rfl
@[simp] theorem State.withEstimate_pending (a b c : Nat) : (s.withEstimate a b c).pending = s.pending := rfl
@[simp] theorem State.withEstimate_rsp (a b c : Nat) : (s.withEstimate a b c).rsp = s.rsp := rfl
@[simp] theorem State.withEstimate_pos (a b c : Nat) : (s.withEstimate a b c).pos = s.pos := rfl
@[simp] theorem State.withEstimate_bufBits (a b c : Nat) : (s.withEstimate a b c).bufBits = s.bufBits := rfl
@[simp] theorem State.withEstimate_bprl (a b c : Nat) : (s.withEstimate a b c).bprl = s.bprl := rfl
@[simp] theorem State.withEstimate_smpIndex (a b c : Nat) (f ch : Nat) : (s.withEstimate a b c).smpIndex f ch = s.smpIndex f ch := rfl
@[simp] theorem State.withEstimate_holdsSample (a b c : Nat) (y : Int) : (s.withEstimate a b c).holdsSample y = s.holdsSample y := rfl
@[simp] theorem State.withEstimate_elements (a b c : Nat) : (s.withEstimate a b c).elements = s.elements := rfl

/-! ## withParams -/

@[simp] theorem State.withParams_cfg (a b c d : Nat) : (s.withParams a b c d).cfg = s.cfg := rfl
@[simp] theorem State.withParams_curByte (a b c d : Nat) : (s.withParams a b c d).curByte = s.curByte := rfl
@[simp] theorem State.withParams_curBit (a b c d : Nat) : (s.withParams a b c d).curBit = s.curBit := rfl
@[simp] theorem State.withParams_k (a b c d : Nat) : (s.withParams a b c d).k = s.k := rfl
@[simp] theorem State.withParams_prev (a b c d : Nat) : (s.withParams a b c d).prev = s.prev := rfl
@[simp] theorem State.withParams_acc (a b c d : Nat) : (s.withParams a b c d).acc = s.acc := rfl
@[simp] theorem State.withParams_avg (a b c d : Nat) : (s.withParams a b c d).avg = s.avg := rfl
@[simp] theorem State.withParams_channels (a b c d : Nat) : (s.withParams a b c d).channels = BitVec.ofNat 32 b := rfl
@[simp] theorem State.withParams_bps (a b c d : Nat) : (s.withParams a b c d).bps = BitVec.ofNat 32 c := rfl
@[simp] theorem State.withParams_rate (a b c d : Nat) : (s.withParams a b c d).rate = BitVec.ofNat 32 d := rfl
@[simp] theorem State.withParams_count (a b c d : Nat) : (s.withParams a b c d).count = BitVec.ofNat 64 a := rfl
@[simp] theorem State.withParams_status (a b c d : Nat) : (s.withParams a b c d).status = s.status := rfl
@[simp] theorem State.withParams_buf (a b c d : Nat) : (s.withParams a b c d).buf = s.buf := rfl
@[simp] theorem State.withParams_smp (a b c d : Nat) : (s.withParams a b c d).smp = s.smp := rfl
@[simp] theorem State.withParams_pending (a b c d : Nat) : (s.withParams a b c d).pending = s.pending := rfl
@[simp] theorem State.withParams_rsp (a b c d : Nat) : (s.withParams a b c d).rsp = s.rsp := rfl
@[simp] theorem State.withParams_pos (a b c d : Nat) : (s.withParams a b c d).pos = s.pos := rfl
@[simp] theorem State.withParams_bufBits (a b c d : Nat) : (s.withParams a b c d).bufBits = s.bufBits := rfl
@[simp] theorem State.withParams_holdsSample (a b c d : Nat) (y : Int) : (s.withParams a b c d).holdsSample y = s.holdsSample y := rfl

/-! ## withStatus -/

@[simp] theorem State.withStatus_cfg (st : Status) : (s.withStatus st).cfg = s.cfg := rfl
@[simp] theorem State.withStatus_curByte (st : Status) : (s.withStatus st).curByte = s.curByte := rfl
@[simp] theorem State.withStatus_curBit (st : Status) : (s.withStatus st).curBit = s.curBit := rfl
@[simp] theorem State.withStatus_k (st : Status) : (s.withStatus st).k = s.k := rfl
@[simp] theorem State.withStatus_prev (st : Status) : (s.withStatus st).prev = s.prev := rfl
@[simp] theorem State.withStatus_acc (st : Status) : (s.withStatus st).acc = s.acc := rfl
@[simp] theorem State.withStatus_avg (st : Status) : (s.withStatus st).avg = s.avg := rfl
@[simp] theorem State.withStatus_channels (st : Status) : (s.withStatus st).channels = s.channels := rfl
@[simp] theorem State.withStatus_bps (st : Status) : (s.withStatus st).bps = s.bps := rfl
@[simp] theorem State.withStatus_rate (st : Status) : (s.withStatus st).rate = s.rate := rfl
@[simp] theorem State.withStatus_count (st : Status) : (s.withStatus st).count = s.count := rfl
@[simp] theorem State.withStatus_status (st : Status) : (s.withStatus st).status = st := rfl
@[simp] theorem State.withStatus_buf (st : Status) : (s.withStatus st).buf = s.buf := rfl
@[simp] theorem State.withStatus_smp (st : Status) : (s.withStatus st).smp = s.smp := rfl
@[simp] theorem State.withStatus_pending (st : Status) : (s.withStatus st).pending = s.pending := rfl
@[simp] theorem State.withStatus_rsp (st : Status) : (s.withStatus st).rsp = s.rsp := rfl
@[simp] theorem State.withStatus_pos (st : Status) : (s.withStatus st).pos = s.pos := rfl
@[simp] theorem State.withStatus_bufBits (st : Status) : (s.withStatus st).bufBits = s.bufBits := rfl
@[simp] theorem State.withStatus_bprl (st : Status) : (s.withStatus st).bprl = s.bprl := rfl
@[simp] theorem State.withStatus_smpIndex (st : Status) (f ch : Nat) : (s.withStatus st).smpIndex f ch = s.smpIndex f ch := rfl
@[simp] theorem State.withStatus_holdsSample (st : Status) (y : Int) : (s.withStatus st).holdsSample y = s.holdsSample y := rfl
@[simp] theorem State.withStatus_elements (st : Status) : (s.withStatus st).elements = s.elements := rfl

/-! ## answered -/

@[simp] theorem State.answered_cfg (r : Response) : (s.answered r).cfg = s.cfg := rfl
@[simp] theorem State.answered_curByte (r : Response) : (s.answered r).curByte = s.curByte := rfl
@[simp] theorem State.answered_curBit (r : Response) : (s.answered r).curBit = s.curBit := rfl
@[simp] theorem State.answered_k (r : Response) : (s.answered r).k = s.k := rfl
@[simp] theorem State.answered_prev (r : Response) : (s.answered r).prev = s.prev := rfl
@[simp] theorem State.answered_acc (r : Response) : (s.answered r).acc = s.acc := rfl
@[simp] theorem State.answered_avg (r : Response) : (s.answered r).avg = s.avg := rfl
@[simp] theorem State.answered_channels (r : Response) : (s.answered r).channels = s.channels := rfl
@[simp] theorem State.answered_bps (r : Response) : (s.answered r).bps = s.bps := rfl
@[simp] theorem State.answered_rate (r : Response) : (s.answered r).rate = s.rate := rfl
@[simp] theorem State.answered_count (r : Response) : (s.answered r).count = s.count := rfl
@[simp] theorem State.answered_status (r : Response) : (s.answered r).status = s.status := rfl
@[simp] theorem State.answered_buf (r : Response) : (s.answered r).buf = s.buf := rfl
@[simp] theorem State.answered_smp (r : Response) : (s.answered r).smp = s.smp := rfl
@[simp] theorem State.answered_pending (r : Response) : (s.answered r).pending = s.pending := rfl
@[simp] theorem State.answered_rsp (r : Response) : (s.answered r).rsp = some r := rfl
@[simp] theorem State.answered_pos (r : Response) : (s.answered r).pos = s.pos := rfl
@[simp] theorem State.answered_bufBits (r : Response) : (s.answered r).bufBits = s.bufBits := rfl
@[simp] theorem State.answered_bprl (r : Response) : (s.answered r).bprl = s.bprl := rfl
@[simp] theorem State.answered_smpIndex (r : Response) (f ch : Nat) : (s.answered r).smpIndex f ch = s.smpIndex f ch := rfl
@[simp] theorem State.answered_holdsSample (r : Response) (y : Int) : (s.answered r).holdsSample y = s.holdsSample y := rfl
@[simp] theorem State.answered_elements (r : Response) : (s.answered r).elements = s.elements := rfl

/-! ## advance -/

@[simp] theorem State.advance_cfg (n : Nat) : (s.advance n).cfg = s.cfg := rfl
@[simp] theorem State.advance_curByte (n : Nat) : (s.advance n).curByte = BitVec.ofNat 64 ((s.pos + n) / 8) := rfl
@[simp] theorem State.advance_curBit (n : Nat) : (s.advance n).curBit = BitVec.ofNat 3 ((s.pos + n) % 8) := rfl
@[simp] theorem State.advance_k (n : Nat) : (s.advance n).k = s.k := rfl
@[simp] theorem State.advance_prev (n : Nat) : (s.advance n).prev = s.prev := rfl
@[simp] theorem State.advance_acc (n : Nat) : (s.advance n).acc = s.acc := rfl
@[simp] theorem State.advance_avg (n : Nat) : (s.advance n).avg = s.avg := rfl
@[simp] theorem State.advance_channels (n : Nat) : (s.advance n).channels = s.channels := rfl
@[simp] theorem State.advance_bps (n : Nat) : (s.advance n).bps = s.bps := rfl
@[simp] theorem State.advance_rate (n : Nat) : (s.advance n).rate = s.rate := rfl
@[simp] theorem State.advance_count (n : Nat) : (s.advance n).count = s.count := rfl
@[simp] theorem State.advance_status (n : Nat) : (s.advance n).status = s.status := rfl
@[simp] theorem State.advance_buf (n : Nat) : (s.advance n).buf = s.buf := rfl
@[simp] theorem State.advance_smp (n : Nat) : (s.advance n).smp = s.smp := rfl
@[simp] theorem State.advance_pending (n : Nat) : (s.advance n).pending = s.pending := rfl
@[simp] theorem State.advance_rsp (n : Nat) : (s.advance n).rsp = s.rsp := rfl
@[simp] theorem State.advance_bufBits (n : Nat) : (s.advance n).bufBits = s.bufBits := rfl
@[simp] theorem State.advance_bprl (n : Nat) : (s.advance n).bprl = s.bprl := rfl
@[simp] theorem State.advance_smpIndex (n : Nat) (f ch : Nat) : (s.advance n).smpIndex f ch = s.smpIndex f ch := rfl
@[simp] theorem State.advance_holdsSample (n : Nat) (y : Int) : (s.advance n).holdsSample y = s.holdsSample y := rfl
@[simp] theorem State.advance_elements (n : Nat) : (s.advance n).elements = s.elements := rfl

/-! ## storeSample -/

@[simp] theorem State.storeSample_cfg (i : Nat) (x : Int) : (s.storeSample i x).cfg = s.cfg := rfl
@[simp] theorem State.storeSample_curByte (i : Nat) (x : Int) : (s.storeSample i x).curByte = s.curByte := rfl
@[simp] theorem State.storeSample_curBit (i : Nat) (x : Int) : (s.storeSample i x).curBit = s.curBit := rfl
@[simp] theorem State.storeSample_k (i : Nat) (x : Int) : (s.storeSample i x).k = s.k := rfl
@[simp] theorem State.storeSample_prev (i : Nat) (x : Int) : (s.storeSample i x).prev = s.prev := rfl
@[simp] theorem State.storeSample_acc (i : Nat) (x : Int) : (s.storeSample i x).acc = s.acc := rfl
@[simp] theorem State.storeSample_avg (i : Nat) (x : Int) : (s.storeSample i x).avg = s.avg := rfl
@[simp] theorem State.storeSample_channels (i : Nat) (x : Int) : (s.storeSample i x).channels = s.channels := rfl
@[simp] theorem State.storeSample_bps (i : Nat) (x : Int) : (s.storeSample i x).bps = s.bps := rfl
@[simp] theorem State.storeSample_rate (i : Nat) (x : Int) : (s.storeSample i x).rate = s.rate := rfl
@[simp] theorem State.storeSample_count (i : Nat) (x : Int) : (s.storeSample i x).count = s.count := rfl
@[simp] theorem State.storeSample_status (i : Nat) (x : Int) : (s.storeSample i x).status = s.status := rfl
@[simp] theorem State.storeSample_buf (i : Nat) (x : Int) : (s.storeSample i x).buf = s.buf := rfl
@[simp] theorem State.storeSample_smp (i : Nat) (x : Int) : (s.storeSample i x).smp = Memory.write 0 s.smp i x := rfl
@[simp] theorem State.storeSample_pending (i : Nat) (x : Int) : (s.storeSample i x).pending = s.pending := rfl
@[simp] theorem State.storeSample_rsp (i : Nat) (x : Int) : (s.storeSample i x).rsp = s.rsp := rfl
@[simp] theorem State.storeSample_pos (i : Nat) (x : Int) : (s.storeSample i x).pos = s.pos := rfl
@[simp] theorem State.storeSample_bufBits (i : Nat) (x : Int) : (s.storeSample i x).bufBits = s.bufBits := rfl
@[simp] theorem State.storeSample_bprl (i : Nat) (x : Int) : (s.storeSample i x).bprl = s.bprl := rfl
@[simp] theorem State.storeSample_smpIndex (i : Nat) (x : Int) (f ch : Nat) : (s.storeSample i x).smpIndex f ch = s.smpIndex f ch := rfl
@[simp] theorem State.storeSample_holdsSample (i : Nat) (x : Int) (y : Int) : (s.storeSample i x).holdsSample y = s.holdsSample y := rfl
@[simp] theorem State.storeSample_elements (i : Nat) (x : Int) : (s.storeSample i x).elements = s.elements := rfl

/-! ## resetRegisters -/

@[simp] theorem State.resetRegisters_cfg : s.resetRegisters.cfg = s.cfg := rfl
@[simp] theorem State.resetRegisters_curByte : s.resetRegisters.curByte = 0 := rfl
@[simp] theorem State.resetRegisters_curBit : s.resetRegisters.curBit = 0 := rfl
@[simp] theorem State.resetRegisters_k : s.resetRegisters.k = 0 := rfl
@[simp] theorem State.resetRegisters_prev : s.resetRegisters.prev = 0 := rfl
@[simp] theorem State.resetRegisters_acc : s.resetRegisters.acc = 0 := rfl
@[simp] theorem State.resetRegisters_avg : s.resetRegisters.avg = 0 := rfl
@[simp] theorem State.resetRegisters_channels : s.resetRegisters.channels = 0 := rfl
@[simp] theorem State.resetRegisters_bps : s.resetRegisters.bps = 0 := rfl
@[simp] theorem State.resetRegisters_rate : s.resetRegisters.rate = 0 := rfl
@[simp] theorem State.resetRegisters_count : s.resetRegisters.count = 0 := rfl
@[simp] theorem State.resetRegisters_status : s.resetRegisters.status = { fseen := false, fcause := 0, hdrOk := false } := rfl
@[simp] theorem State.resetRegisters_buf : s.resetRegisters.buf = s.buf := rfl
@[simp] theorem State.resetRegisters_smp : s.resetRegisters.smp = s.smp := rfl
@[simp] theorem State.resetRegisters_pending : s.resetRegisters.pending = s.pending := rfl
@[simp] theorem State.resetRegisters_rsp : s.resetRegisters.rsp = s.rsp := rfl
@[simp] theorem State.resetRegisters_bufBits : s.resetRegisters.bufBits = s.bufBits := rfl
@[simp] theorem State.resetRegisters_holdsSample (y : Int) : s.resetRegisters.holdsSample y = s.holdsSample y := rfl

end Sys2Proof.Machine
end

