-- ==== Sys2Proof/Laws/Ops.lean ====
section
/-! SUPPORT. What each shared operation of Machine/Ops.lean and each cursor body of Machine/Cursor.lean can do, said
once. Wherever a position must not wrap, the premise is `s.bufBits < 2 ^ 64`, which every legal instance gives. -/

namespace Sys2Proof.Machine

variable {α β : Type}

/-! ## Endings -/

@[simp] theorem Done.andThen_ok (a : α) (s : State) (f : α → State → Done β) : (Done.ok a s).andThen f = f a s := rfl

@[simp] theorem Done.andThen_raised (c : Cause) (i : Word) (s : State) (f : α → State → Done β) :
    (Done.raised c i s : Done α).andThen f = .raised c i s := rfl

@[simp] theorem Done.state_ok (a : α) (s : State) : (Done.ok a s).state = s := rfl

@[simp] theorem Done.state_raised (c : Cause) (i : Word) (s : State) : (Done.raised c i s : Done α).state = s := rfl

theorem takeFault_eq (c : Cause) (i : Word) (s : State) : takeFault c i s = .next (s.faulted c i) := rfl

theorem respond_ok (r0 r1 : α → Word) (a : α) (s : State) :
    respond r0 r1 (.ok a s) = .next (s.answered (okResponse (r0 a) (r1 a))) := rfl

theorem respond_raised (r0 r1 : α → Word) (c : Cause) (i : Word) (s : State) :
    respond r0 r1 (.raised c i s) = .next (s.faulted c i) := rfl

theorem respondPlain_ok (s : State) : respondPlain (.ok () s) = .next (s.answered (okResponse 0 0)) := rfl

theorem respondPlain_raised (c : Cause) (i : Word) (s : State) :
    respondPlain (.raised c i s) = .next (s.faulted c i) := rfl

/-! ## The invariant's consequences -/

theorem State.Inv.small {s : State} (h : s.Inv) : s.bufBits < 2 ^ 64 := by
  have := h.cfg
  simp [Config.legal] at this
  simp only [State.bufBits]
  omega

theorem State.Inv.atLeastHeader {s : State} (h : s.Inv) : 160 ≤ s.bufBits := by
  have := h.cfg
  simp [Config.legal] at this
  simp only [State.bufBits]
  omega

theorem State.Inv.bufWf {s : State} (h : s.Inv) : Memory.wf 0#8 s.buf = true := Memory.wf_of_within h.buf

theorem State.Inv.smpWf {s : State} (h : s.Inv) : Memory.wf 0 s.smp = true := Memory.wf_of_within h.smp

theorem inContainer_zero (w : SampleWidth) : inContainer w 0 = true := by cases w <;> decide

/-- Every element of `SMP` reads as a container value (10_state.md R38). -/
theorem State.Inv.holdsSample_read {s : State} (h : s.Inv) (i : Nat) : s.holdsSample (readSample s.smp i) = true :=
  Memory.read_of_all (p := s.holdsSample) h.samples (inContainer_zero _) i

/-! ## Containers -/

theorem inContainer_iff (w : SampleWidth) (x : Int) : inContainer w x = true ↔ smpMin w ≤ x ∧ x ≤ smpMax w := by
  simp [inContainer]

theorem inContainer_bounds {w : SampleWidth} {x : Int} (h : inContainer w x = true) : -(2 ^ 31) ≤ x ∧ x < 2 ^ 31 := by
  rw [inContainer_iff] at h
  cases w <;> simp [smpMin, smpMax] at h <;> omega

/-- Differences of container values (43_estimator_predictor.md R144). -/
theorem inContainer_sub {w : SampleWidth} {x y : Int} (hx : inContainer w x = true) (hy : inContainer w y = true) :
    (x - y).natAbs ≤ 2 ^ sampleBits w - 1 := by
  rw [inContainer_iff] at hx hy
  cases w <;> simp [smpMin, smpMax, sampleBits] at * <;> omega

theorem toBits64_sext64 (w : Word) : toBits64 (sext64 w) = w := BitVec.ofInt_toInt

theorem sext64_toBits64 {x : Int} (h : -(2 ^ 63) ≤ x) (h2 : x < 2 ^ 63) : sext64 (toBits64 x) = x := by
  simp only [sext64, toBits64, BitVec.toInt_ofInt]
  exact Int.bmod_eq_of_le (by omega) (by omega)

theorem word_toNat {n : Nat} (h : n < 2 ^ 64) : (word n).toNat = n := by
  simp only [word, BitVec.toNat_ofNat]
  exact Nat.mod_eq_of_lt h

@[simp] theorem word_of_toNat (w : Word) : word w.toNat = w := by simp [word]

/-! ## The cursor -/

theorem State.pos_seek (s : State) {p : Nat} (h : p < 2 ^ 67) : (s.seek p).pos = p := by
  simp only [State.pos, State.seek_curByte, State.seek_curBit, BitVec.toNat_ofNat]
  omega

@[simp] theorem State.seek_pos (s : State) : s.seek s.pos = s := by
  have h1 : BitVec.ofNat 64 (s.pos / 8) = s.curByte := by
    apply BitVec.eq_of_toNat_eq
    have := s.curByte.isLt
    have := s.curBit.isLt
    simp only [State.pos, BitVec.toNat_ofNat]
    omega
  have h2 : BitVec.ofNat 3 (s.pos % 8) = s.curBit := by
    apply BitVec.eq_of_toNat_eq
    have := s.curBit.isLt
    simp only [State.pos, BitVec.toNat_ofNat]
    omega
  unfold State.seek
  rw [h1, h2]

@[simp] theorem State.seek_seek (s : State) (p q : Nat) : (s.seek p).seek q = s.seek q := rfl

theorem State.pos_advance (s : State) {n : Nat} (h : s.pos + n < 2 ^ 67) : (s.advance n).pos = s.pos + n :=
  s.pos_seek h

@[simp] theorem State.advance_zero (s : State) : s.advance 0 = s := s.seek_pos

@[simp] theorem State.advance_seek (s : State) (n p : Nat) : (s.advance n).seek p = s.seek p := rfl

theorem State.advance_advance (s : State) {a : Nat} (b : Nat) (h : s.pos + a < 2 ^ 67) :
    (s.advance a).advance b = s.advance (a + b) := by
  show (s.advance a).seek ((s.advance a).pos + b) = _
  rw [s.pos_advance h, State.advance_seek, Nat.add_assoc]
  rfl

/-! ## Writing bits -/

/-- The state after the bits are OR-written at the cursor and the cursor has passed them. -/
def State.emit (s : State) (bs : List Bool) : State := (s.withBuf (orBits s.buf s.pos bs)).advance bs.length

@[simp] theorem State.emit_nil (s : State) : s.emit [] = s := by
  show (s.withBuf s.buf).advance 0 = s
  rw [State.advance_zero]
  rfl

@[simp] theorem State.emit_buf (s : State) (bs : List Bool) : (s.emit bs).buf = orBits s.buf s.pos bs := rfl
@[simp] theorem State.emit_smp (s : State) (bs : List Bool) : (s.emit bs).smp = s.smp := rfl
@[simp] theorem State.emit_cfg (s : State) (bs : List Bool) : (s.emit bs).cfg = s.cfg := rfl
@[simp] theorem State.emit_k (s : State) (bs : List Bool) : (s.emit bs).k = s.k := rfl
@[simp] theorem State.emit_prev (s : State) (bs : List Bool) : (s.emit bs).prev = s.prev := rfl
@[simp] theorem State.emit_acc (s : State) (bs : List Bool) : (s.emit bs).acc = s.acc := rfl
@[simp] theorem State.emit_avg (s : State) (bs : List Bool) : (s.emit bs).avg = s.avg := rfl
@[simp] theorem State.emit_channels (s : State) (bs : List Bool) : (s.emit bs).channels = s.channels := rfl
@[simp] theorem State.emit_bps (s : State) (bs : List Bool) : (s.emit bs).bps = s.bps := rfl
@[simp] theorem State.emit_rate (s : State) (bs : List Bool) : (s.emit bs).rate = s.rate := rfl
@[simp] theorem State.emit_count (s : State) (bs : List Bool) : (s.emit bs).count = s.count := rfl
@[simp] theorem State.emit_status (s : State) (bs : List Bool) : (s.emit bs).status = s.status := rfl
@[simp] theorem State.emit_pending (s : State) (bs : List Bool) : (s.emit bs).pending = s.pending := rfl
@[simp] theorem State.emit_rsp (s : State) (bs : List Bool) : (s.emit bs).rsp = s.rsp := rfl
@[simp] theorem State.emit_bufBits (s : State) (bs : List Bool) : (s.emit bs).bufBits = s.bufBits := rfl
@[simp] theorem State.emit_bprl (s : State) (bs : List Bool) : (s.emit bs).bprl = s.bprl := rfl

theorem State.pos_emit (s : State) {bs : List Bool} (h : s.pos + bs.length < 2 ^ 67) :
    (s.emit bs).pos = s.pos + bs.length := s.pos_seek h

theorem State.emit_emit (s : State) {a : List Bool} (b : List Bool) (h : s.pos + a.length < 2 ^ 67) :
    (s.emit a).emit b = s.emit (a ++ b) := by
  unfold State.emit
  rw [List.length_append, orBits_append]
  show (((s.withBuf _).advance a.length).withBuf _).advance b.length = _
  have hp : ((s.withBuf (orBits s.buf s.pos a)).advance a.length).pos = s.pos + a.length := s.pos_seek h
  rw [hp]
  exact State.advance_advance (s.withBuf (orBits (orBits s.buf s.pos a) (s.pos + a.length) b)) b.length h

theorem putBits_eq (w : Nat) (f : Nat → Bool) (s : State) :
    putBits w f s =
      if s.pos + w ≤ s.bufBits then .ok () (s.emit ((List.range w).map f)) else .raised .bufBounds (word s.pos) s := by
  unfold putBits State.emit
  simp

theorem opWrbit_eq {v : Nat} (hv : v ≤ 1) (s : State) :
    opWrbit v s =
      if s.pos + 1 ≤ s.bufBits then .ok () (s.emit [decide (v = 1)]) else .raised .bufBounds (word s.pos) s := by
  unfold opWrbit
  rw [if_pos hv, putBits_eq]
  interval_cases v <;> rfl

theorem opWruint_eq {w : Nat} (hw : w ≤ 64) (v : Nat) (s : State) :
    opWruint w v s =
      if s.pos + w ≤ s.bufBits then .ok () (s.emit (uintBits w v)) else .raised .bufBounds (word s.pos) s := by
  unfold opWruint
  rw [if_pos (by simpa [uintMaxWidth] using hw), putBits_eq]
  rfl

theorem opWrones_eq (n : Nat) (s : State) :
    opWrones n s =
      if s.pos + n ≤ s.bufBits then .ok () (s.emit (List.replicate n true)) else .raised .bufBounds (word s.pos) s := by
  unfold opWrones
  rw [putBits_eq, show (List.range n).map (fun _ => true) = List.replicate n true by simp [List.map_const']]

/-! ## Reading bits -/

theorem opRduint_eq {w : Nat} (hw : w ≤ 64) (s : State) :
    opRduint w s =
      if s.pos + w ≤ s.bufBits then .ok (fieldAt s.buf s.pos w) (s.advance w)
      else .raised .bufBounds (word s.pos) s := by
  unfold opRduint takeBits
  rw [if_pos (by simpa [uintMaxWidth] using hw)]

theorem opRdbit_eq (s : State) :
    opRdbit s =
      if s.pos + 1 ≤ s.bufBits then .ok (bufBit s.buf s.pos).toNat (s.advance 1)
      else .raised .bufBounds (word s.pos) s := by
  simp [opRdbit, takeBits, fieldAt]

/-! ## Blocks of samples -/

theorem firstOutside_eq_none {s : State} {frame0 ch n i : Nat} :
    firstOutside s frame0 ch n i = none ↔ ∀ j, j < n → s.smpIndex (frame0 + i + j) ch < s.cfg.smpElems := by
  induction n generalizing i with
  | zero => simp [firstOutside]
  | succ n ih =>
    unfold firstOutside
    split
    · rename_i h
      simp only [reduceCtorEq, false_iff, not_forall]
      exact ⟨0, by omega, by simpa using h⟩
    · rename_i h
      rw [ih]
      constructor
      · intro h2 j hj
        cases j with
        | zero => simpa using h
        | succ j => have := h2 j (by omega); rwa [show frame0 + i + (j + 1) = frame0 + (i + 1) + j by omega]
      · intro h2 j hj
        have := h2 (j + 1) (by omega)
        rwa [show frame0 + i + (j + 1) = frame0 + (i + 1) + j by omega] at this

theorem firstOutside_eq_some {s : State} {frame0 ch n i x : Nat} :
    firstOutside s frame0 ch n i = some x ↔
      ∃ j, j < n ∧ x = s.smpIndex (frame0 + i + j) ch ∧ s.cfg.smpElems ≤ x ∧
        ∀ l, l < j → s.smpIndex (frame0 + i + l) ch < s.cfg.smpElems := by
  induction n generalizing i with
  | zero => simp [firstOutside]
  | succ n ih =>
    unfold firstOutside
    split
    · rename_i h
      simp only [Option.some.injEq]
      constructor
      · rintro rfl; exact ⟨0, by omega, rfl, h, by simp⟩
      · rintro ⟨j, hj, rfl, h2, h3⟩
        cases j with
        | zero => rfl
        | succ j => have := h3 0 (by omega); simp at this; omega
    · rename_i h
      rw [ih]
      constructor
      · rintro ⟨j, hj, rfl, h2, h3⟩
        refine ⟨j + 1, by omega, by congr 1; omega, h2, fun l hl => ?_⟩
        cases l with
        | zero => simpa using h
        | succ l => have := h3 l (by omega); rwa [show frame0 + i + (l + 1) = frame0 + (i + 1) + l by omega]
      · rintro ⟨j, hj, rfl, h2, h3⟩
        cases j with
        | zero => simp at h2; omega
        | succ j =>
          refine ⟨j, by omega, by congr 1; omega, h2, fun l hl => ?_⟩
          have := h3 (l + 1) (by omega)
          rwa [show frame0 + i + (l + 1) = frame0 + (i + 1) + l by omega] at this

@[simp] theorem blockSamples_length (s : State) (frame0 n ch : Nat) : (blockSamples s frame0 n ch).length = n := by
  simp [blockSamples]

end Sys2Proof.Machine
end

