-- ==== Sys2Proof/Laws/Codeword.lean ====
section
/-! SUPPORT. What the bodies of RENC and RDEC do, and that the decoder reads back a codeword (44_rice_codeword.md R157,
R158). -/

namespace Sys2Proof.Machine

theorem codeword_length (k : Nat) (d : Int) : (codeword k d).length = 2 + (d.natAbs >>> k) + k := by
  simp [codeword]; omega

theorem codeword_getD_sign (k : Nat) (d : Int) : (codeword k d).getD 0 false = decide (d < 0) := by
  simp [codeword]

theorem codeword_getD_run (k : Nat) (d : Int) {j : Nat} (h : j < d.natAbs >>> k) :
    (codeword k d).getD (1 + j) false = true := by
  rw [codeword, List.append_assoc, List.append_assoc, getD_append, if_neg (by simp), getD_append, if_pos (by simp; omega),
    replicate_getD]
  simp [h]

theorem codeword_getD_stop (k : Nat) (d : Int) : (codeword k d).getD (1 + d.natAbs >>> k) false = false := by
  rw [codeword, List.append_assoc, List.append_assoc, getD_append, if_neg (by simp), getD_append, if_neg (by simp)]
  simp

theorem codeword_getD_rest (k : Nat) (d : Int) (i : Nat) :
    (codeword k d).getD (2 + d.natAbs >>> k + i) false = (decide (i < k) && (d.natAbs % 2 ^ k).testBit i) := by
  rw [codeword, getD_append, if_neg (by simp; omega), uintBits_getD]
  have : 2 + d.natAbs >>> k + i - ([decide (d < 0)] ++ List.replicate (d.natAbs >>> k) true ++ [false]).length = i := by
    simp; omega
  rw [this]

/-- `RENC` of a magnitude that fits writes the codeword or, where it does not fit in `BUF`, nothing. -/
theorem opRenc_eq {s : State} (hs : s.bufBits < 2 ^ 64) {diff : Word} (hd : sext64 diff ≠ -(2 ^ 63))
    (hk : s.k.toNat ≤ 64) :
    opRenc diff s =
      if s.pos + (codeword s.k.toNat (sext64 diff)).length ≤ s.bufBits then
        .ok (codeword s.k.toNat (sext64 diff)).length (s.emit (codeword s.k.toNat (sext64 diff)))
      else .raised .bufBounds (word s.pos) s := by
  rw [codeword_length]
  unfold opRenc
  simp only
  rw [if_neg hd, if_pos (by simpa [maxRiceWidth, uintMaxWidth] using hk)]
  split
  · rename_i h
    generalize hq : (sext64 diff).natAbs >>> s.k.toNat = q at h
    rw [opWrbit_eq (by split <;> omega), if_pos (by omega), Done.andThen_ok, opWrones_eq]
    have p1 : ∀ b : Bool, (s.emit [b]).pos = s.pos + 1 := fun b => s.pos_emit (by simp; omega)
    rw [if_pos (by rw [p1, State.emit_bufBits]; omega), Done.andThen_ok, State.emit_emit _ _ (by simp; omega),
      opWrbit_eq (by omega)]
    have p2 : ∀ b : Bool, (s.emit ([b] ++ List.replicate q true)).pos = s.pos + (1 + q) := fun b => by
      rw [s.pos_emit (by simp; omega)]; simp; omega
    rw [if_pos (by rw [p2, State.emit_bufBits]; omega), Done.andThen_ok, State.emit_emit _ _ (by simp; omega),
      opWruint_eq hk]
    have p3 : ∀ b c : Bool, (s.emit ([b] ++ List.replicate q true ++ [c])).pos = s.pos + (2 + q) := fun b c => by
      rw [s.pos_emit (by simp; omega)]; simp; omega
    rw [if_pos (by rw [p3, State.emit_bufBits]; omega), Done.andThen_ok, State.emit_emit _ _ (by simp; omega)]
    simp [codeword, hq]
  · rfl

/-- Every way `RDEC` can end, by the run of ones after the sign bit. -/
theorem opRdec_eq {s : State} (hs : s.bufBits < 2 ^ 64) (hk : s.k.toNat ≤ 64) :
    opRdec s =
      match onesAt s.buf (s.pos + 1) (s.bufBits - (s.pos + 1)) with
      | none => .raised .bufBounds (word s.pos) s
      | some q =>
        if s.pos + (2 + q + s.k.toNat) ≤ s.bufBits then
          if q * 2 ^ s.k.toNat + fieldAt s.buf (s.pos + 2 + q) s.k.toNat ≤ 2 ^ 63 - 1 then
            .ok (if bufBit s.buf s.pos then
                  -((q * 2 ^ s.k.toNat + fieldAt s.buf (s.pos + 2 + q) s.k.toNat : Nat) : Int)
                else ((q * 2 ^ s.k.toNat + fieldAt s.buf (s.pos + 2 + q) s.k.toNat : Nat) : Int), 2 + q + s.k.toNat)
              (s.advance (2 + q + s.k.toNat))
          else .raised .sampleRange (word s.pos) s
        else .raised .bufBounds (word s.pos) s := by
  have hback : ∀ n, (s.advance n).seek s.pos = s := fun n => by simp
  unfold opRdec
  rw [if_pos (by simpa [maxRiceWidth, uintMaxWidth] using hk)]
  unfold readCodeword
  rw [opRdbit_eq]
  by_cases h1 : s.pos + 1 ≤ s.bufBits
  · rw [if_pos h1, Done.andThen_ok]
    have hp1 : (s.advance 1).pos = s.pos + 1 := s.pos_advance (by omega)
    unfold opRdunary
    rw [hp1, State.advance_bufBits, State.advance_buf]
    cases ho : onesAt s.buf (s.pos + 1) (s.bufBits - (s.pos + 1)) with
    | none => simp [hback]
    | some q =>
      obtain ⟨hq, -, -⟩ := onesAt_eq_some.mp ho
      rw [Done.andThen_ok, State.advance_advance _ _ (by omega), opRduint_eq hk,
        State.pos_advance _ (by omega), State.advance_bufBits, State.advance_buf,
        show s.pos + (1 + (q + 1)) = s.pos + 2 + q by omega]
      by_cases h3 : s.pos + 2 + q + s.k.toNat ≤ s.bufBits
      · rw [if_pos h3, Done.andThen_ok, State.advance_advance _ _ (by omega)]
        have hor : (q <<< s.k.toNat ||| fieldAt s.buf (s.pos + 2 + q) s.k.toNat) =
            q * 2 ^ s.k.toNat + fieldAt s.buf (s.pos + 2 + q) s.k.toNat := by
          rw [← Nat.shiftLeft_add_eq_or_of_lt (fieldAt_lt _ _ _), Nat.shiftLeft_eq]
        rw [hor, show 1 + (q + 1) + s.k.toNat = 2 + q + s.k.toNat by omega]
        simp only
        rw [if_pos (by omega : s.pos + (2 + q + s.k.toNat) ≤ s.bufBits)]
        split
        · rename_i heq
          split at heq
          · rename_i h4
            rw [if_pos h4, ← heq]
            cases bufBit s.buf s.pos <;> simp
          · simp at heq
        · rename_i heq
          split at heq
          · simp at heq
          · rename_i h4
            simp only [Done.raised.injEq] at heq
            obtain ⟨rfl, -, rfl⟩ := heq
            rw [if_neg h4, hback]
      · rw [if_neg h3, Done.andThen_raised]
        simp only
        rw [if_neg (by omega), hback]
  · rw [if_neg h1, Done.andThen_raised]
    simp only [State.seek_pos]
    rw [show s.bufBits - (s.pos + 1) = 0 by omega]
    rfl

/-- `RDEC` reads any codeword that stands at the cursor (30_encoding.md R84). -/
theorem opRdec_at {s : State} (hs : s.bufBits < 2 ^ 64) {d : Int} {e : Nat}
    (h : CodewordAt s.buf s.bufBits s.k.toNat s.pos d e) : opRdec s = .ok (d, e - s.pos) (s.seek e) := by
  obtain ⟨hk, q, ⟨h1, h2, h3⟩, rfl, h4, h5, rfl⟩ := h
  rw [opRdec_eq hs hk, onesAt_eq_some.mpr ⟨by omega, h2, h3⟩]
  unfold magnitudeAt at *
  simp only [← Nat.add_assoc] at *
  rw [if_pos (by omega), if_pos h5, show s.pos + 2 + q + s.k.toNat - s.pos = 2 + q + s.k.toNat by omega]
  unfold State.advance
  rw [show s.pos + (2 + q + s.k.toNat) = s.pos + 2 + q + s.k.toNat by omega]

/-- The bits `RENC` writes are a codeword. -/
theorem codewordAt_of_bits {m : List Host.Cell} {limit k p : Nat} {d : Int} (hk : k ≤ 64) (hd : d.natAbs < 2 ^ 63)
    (hfit : p + (codeword k d).length ≤ limit) (hbits : bitsAt m p (codeword k d).length = codeword k d) :
    CodewordAt m limit k p d (p + (codeword k d).length) := by
  rw [bitsAt_eq_iff] at hbits
  have hlen := codeword_length k d
  generalize hq : d.natAbs >>> k = q at hlen
  have hmag : magnitudeAt m k p q = d.natAbs := by
    unfold magnitudeAt
    rw [fieldAt_of_bits (v := d.natAbs % 2 ^ k), Nat.mod_mod, ← hq, Nat.shiftRight_eq_div_pow, Nat.mul_comm,
      Nat.div_add_mod]
    intro i hi
    rw [Nat.add_assoc, hbits _ (by omega), ← hq, codeword_getD_rest]
    simp [hi]
  have hsign : bufBit m p = decide (d < 0) := by
    have := hbits 0 (by omega)
    rwa [Nat.add_zero, codeword_getD_sign] at this
  refine ⟨hk, q, ⟨by omega, ?_, fun j hj => ?_⟩, by omega, hfit, by omega, ?_⟩
  · rw [Nat.add_assoc, hbits (1 + q) (by omega), ← hq, codeword_getD_stop]
  · rw [Nat.add_assoc, hbits (1 + j) (by omega), codeword_getD_run _ _ (by omega)]
  · rw [hmag, hsign]
    by_cases h : d < 0
    · simp only [h, decide_true, if_true]; omega
    · simp only [h, decide_false, Bool.false_eq_true, if_false]; omega

/-- A codeword ends inside the bits, after where it starts. -/
theorem CodewordAt.bounds {m : List Host.Cell} {limit k p e : Nat} {d : Int} (h : CodewordAt m limit k p d e) :
    p < e ∧ e ≤ limit := by
  obtain ⟨-, q, -, rfl, h4, -⟩ := h
  omega

/-- A magnitude that a codeword can hold. -/
theorem CodewordAt.small {m : List Host.Cell} {limit k p e : Nat} {d : Int} (h : CodewordAt m limit k p d e) :
    sext64 (toBits64 d) = d := by
  obtain ⟨-, q, -, -, -, h5, rfl⟩ := h
  split <;> exact sext64_toBits64 (by omega) (by omega)

end Sys2Proof.Machine
end

