-- ==== Sys2Proof/Laws/Block.lean ====
section
/-! SUPPORT. What the estimator, the coding loop and the decoding loop of a block do (43_estimator_predictor.md R140 to
R142; 45_block.md R170, R171). -/

namespace Sys2Proof.Machine

/-! ## The estimator -/

theorem absDiffSum_le {w : SampleWidth} {ref : Int} {xs : List Int} (hr : inContainer w ref = true)
    (hx : ∀ x ∈ xs, inContainer w x = true) : absDiffSum ref xs ≤ xs.length * (2 ^ sampleBits w - 1) := by
  induction xs generalizing ref with
  | nil => simp [absDiffSum]
  | cons x xs ih =>
    have h1 := inContainer_sub (hx x (by simp)) hr
    have h2 := ih (hx x (by simp)) fun y hy => hx y (by simp [hy])
    simp only [absDiffSum, List.length_cons, Nat.add_mul, Nat.one_mul]
    omega

/-- `AVG <= 2^SAMPLE_W - 1` (R142). -/
theorem blockAverage_le {cfg : Config} {xs : List Int} (hn : xs.length ≤ 512)
    (hx : ∀ x ∈ xs, inContainer cfg.sampleW x = true) : blockAverage cfg xs ≤ 2 ^ sampleBits cfg.sampleW - 1 := by
  have h := absDiffSum_le (inContainer_zero cfg.sampleW) hx
  have hd : xs.length ≤ estDivisor cfg xs.length ∧ 0 < estDivisor cfg xs.length := by
    unfold estDivisor; cases cfg.estDiv <;> simp [blockSize]; omega
  unfold blockAverage
  rw [Nat.div_le_iff_le_mul_add_pred hd.2]
  calc _ ≤ _ := h
    _ ≤ estDivisor cfg xs.length * (2 ^ sampleBits cfg.sampleW - 1) := Nat.mul_le_mul_right _ hd.1
    _ ≤ _ := Nat.le_add_right _ _

theorem bitLength_lt {n w : Nat} (h : n < 2 ^ w) (hw : 0 < w) : bitLength n < w := by
  unfold bitLength
  by_cases h0 : n = 0
  · subst h0; simpa using hw
  · exact (Nat.log2_lt h0).mpr h

/-- `K <= SAMPLE_W - 1` (R142). -/
theorem blockParameter_lt {cfg : Config} {xs : List Int} (hn : xs.length ≤ 512)
    (hx : ∀ x ∈ xs, inContainer cfg.sampleW x = true) : blockParameter cfg xs < sampleBits cfg.sampleW := by
  have h := blockAverage_le hn hx
  have h2 : 0 < 2 ^ sampleBits cfg.sampleW := Nat.two_pow_pos _
  exact bitLength_lt (by omega) (by cases cfg.sampleW <;> simp [sampleBits])

theorem blockParameter_le {cfg : Config} {xs : List Int} (hn : xs.length ≤ 512)
    (hx : ∀ x ∈ xs, inContainer cfg.sampleW x = true) : blockParameter cfg xs ≤ 31 := by
  have h := blockParameter_lt hn hx
  have : sampleBits cfg.sampleW ≤ 32 := by cases cfg.sampleW <;> simp [sampleBits]
  omega

/-- The registers as `ENCBLK` leaves them for a block of samples (R170). -/
def State.coded (s : State) (xs : List Int) : State :=
  (s.withEstimate (absDiffSum 0 xs) (blockAverage s.cfg xs) (blockParameter s.cfg xs)).withPrev (lastSample 0 xs)

theorem opEstimate_eq {s : State} {frame0 n ch : Nat} (hn : n ≤ 512) (hc : ch < s.channels.toNat)
    (hi : ∀ j, j < n → s.smpIndex (frame0 + j) ch < s.cfg.smpElems) :
    opEstimate frame0 n ch s =
      .ok (blockParameter s.cfg (blockSamples s frame0 n ch), blockAverage s.cfg (blockSamples s frame0 n ch))
        (s.withEstimate (absDiffSum 0 (blockSamples s frame0 n ch)) (blockAverage s.cfg (blockSamples s frame0 n ch))
          (blockParameter s.cfg (blockSamples s frame0 n ch))) := by
  unfold opEstimate
  rw [if_pos (by simpa [blockSize] using hn), if_pos hc, firstOutside_eq_none.mpr (by simpa using hi)]

/-! ## The `K` field -/

theorem State.bprl_le (s : State) : s.bprl ≤ 31 := by
  have := bitLength_lt s.bps.isLt (by omega)
  simp only [State.bprl]
  omega

theorem opWrk_eq (s : State) :
    opWrk s =
      if s.pos + s.bprl ≤ s.bufBits then .ok () (s.emit (uintBits s.bprl s.k.toNat))
      else .raised .bufBounds (word s.pos) s :=
  opWruint_eq (by have := s.bprl_le; omega) _ _

theorem opRdk_eq (s : State) :
    opRdk s =
      if s.pos + s.bprl ≤ s.bufBits then
        .ok (fieldAt s.buf s.pos s.bprl) ((s.advance s.bprl).withK (fieldAt s.buf s.pos s.bprl))
      else .raised .bufBounds (word s.pos) s := by
  unfold opRdk
  rw [opRduint_eq (by have := s.bprl_le; omega)]
  split <;> rfl

/-! ## The coding loop -/

/-- The codewords of a block's samples, the first difference against `ref`. -/
def codewords (k : Nat) (ref : Int) (xs : List Int) : List Bool := (residuals ref xs).flatMap (codeword k)

@[simp] theorem codewords_nil (k : Nat) (ref : Int) : codewords k ref [] = [] := rfl

theorem codewords_cons (k : Nat) (ref x : Int) (xs : List Int) :
    codewords k ref (x :: xs) = codeword k (x - ref) ++ codewords k x xs := rfl

theorem recordBits_eq (bprl k : Nat) (xs : List Int) : recordBits bprl k xs = uintBits bprl k ++ codewords k 0 xs := rfl

theorem sub_small {w : SampleWidth} {x y : Int} (hx : inContainer w x = true) (hy : inContainer w y = true) :
    (x - y).natAbs < 2 ^ 63 ∧ sext64 (toBits64 (x - y)) = x - y := by
  have h1 := inContainer_bounds hx
  have h2 := inContainer_bounds hy
  exact ⟨by omega, sext64_toBits64 (by omega) (by omega)⟩

/-- The coding loop where every codeword fits. -/
theorem encSamples_fits {s : State} {xs : List Int} (hs : s.bufBits < 2 ^ 64) (hk : s.k.toNat ≤ 64)
    (hp : s.holdsSample s.prev = true) (hx : ∀ x ∈ xs, s.holdsSample x = true)
    (hfit : s.pos + (codewords s.k.toNat s.prev xs).length ≤ s.bufBits) :
    encSamples xs s = .ok () ((s.emit (codewords s.k.toNat s.prev xs)).withPrev (lastSample s.prev xs)) := by
  induction xs generalizing s with
  | nil => simp only [codewords_nil, State.emit_nil]; rfl
  | cons x xs ih =>
    have hd := sub_small (hx x (by simp)) hp
    rw [codewords_cons, List.length_append] at hfit
    unfold encSamples
    rw [opRenc_eq hs (by rw [hd.2]; omega) hk, hd.2, if_pos (by omega), Done.andThen_ok]
    have hpos : ((s.emit (codeword s.k.toNat (x - s.prev))).withPrev x).pos =
        s.pos + (codeword s.k.toNat (x - s.prev)).length := s.pos_emit (by omega)
    rw [ih (s := (s.emit (codeword s.k.toNat (x - s.prev))).withPrev x) hs hk (hx x (by simp))
      (fun y hy => hx y (by simp [hy])) (by rw [hpos]; show _ + _ ≤ s.bufBits; simp at hfit ⊢; omega)]
    have := s.emit_emit (a := codeword s.k.toNat (x - s.prev)) (codewords s.k.toNat x xs) (by omega)
    rw [codewords_cons, ← this]
    rfl

/-- The coding loop where some codeword does not fit: those before it are written (R170). -/
theorem encSamples_overflow {s : State} {xs : List Int} (hs : s.bufBits < 2 ^ 64) (hk : s.k.toNat ≤ 64)
    (hp : s.holdsSample s.prev = true) (hx : ∀ x ∈ xs, s.holdsSample x = true) (hpos : s.pos ≤ s.bufBits)
    (hno : s.bufBits < s.pos + (codewords s.k.toNat s.prev xs).length) :
    ∃ j, j < xs.length ∧ s.pos + (codewords s.k.toNat s.prev (xs.take j)).length ≤ s.bufBits ∧
      s.bufBits < s.pos + (codewords s.k.toNat s.prev (xs.take (j + 1))).length ∧
      encSamples xs s =
        .raised .bufBounds (word (s.pos + (codewords s.k.toNat s.prev (xs.take j)).length))
          ((s.emit (codewords s.k.toNat s.prev (xs.take j))).withPrev (lastSample s.prev (xs.take j))) := by
  induction xs generalizing s with
  | nil => simp at hno; omega
  | cons x xs ih =>
    have hd := sub_small (hx x (by simp)) hp
    rw [codewords_cons, List.length_append] at hno
    unfold encSamples
    rw [opRenc_eq hs (by rw [hd.2]; omega) hk, hd.2]
    by_cases hf : s.pos + (codeword s.k.toNat (x - s.prev)).length ≤ s.bufBits
    · rw [if_pos hf, Done.andThen_ok]
      have hq : ((s.emit (codeword s.k.toNat (x - s.prev))).withPrev x).pos =
          s.pos + (codeword s.k.toNat (x - s.prev)).length := s.pos_emit (by omega)
      obtain ⟨j, hj, h1, h2, h3⟩ := ih (s := (s.emit (codeword s.k.toNat (x - s.prev))).withPrev x) hs hk
        (hx x (by simp)) (fun y hy => hx y (by simp [hy])) (by rw [hq]; exact hf)
        (by rw [hq]; show s.bufBits < _; simp at hno ⊢; omega)
      rw [hq] at h1 h2 h3
      refine ⟨j + 1, by simpa using hj, ?_, ?_, ?_⟩
      · rw [List.take_succ_cons, codewords_cons, List.length_append]; simp at h1 ⊢; omega
      · rw [List.take_succ_cons, codewords_cons, List.length_append]; simp at h2 ⊢; omega
      · rw [h3, List.take_succ_cons, codewords_cons,
          ← s.emit_emit (a := codeword s.k.toNat (x - s.prev)) _ (by omega), List.length_append, Nat.add_assoc]
        rfl
    · rw [if_neg hf]
      refine ⟨0, by simp, by simpa using hpos, ?_, ?_⟩
      · simp only [Nat.zero_add, List.take_succ_cons, List.take_zero, codewords_cons, codewords_nil, List.append_nil]
        omega
      · simp only [List.take_zero, codewords_nil, State.emit_nil]
        rfl

/-- Every sample of a block is a container value. -/
theorem State.Inv.holdsSample_block {s : State} (h : s.Inv) (frame0 n ch : Nat) :
    ∀ x ∈ blockSamples s frame0 n ch, s.holdsSample x = true := by
  intro x hx
  simp only [blockSamples, List.mem_map] at hx
  obtain ⟨i, -, rfl⟩ := hx
  exact h.holdsSample_read _

/-- The reads a block command makes do not see the registers it writes. -/
theorem blockSamples_congr {s t : State} (h1 : t.smp = s.smp) (h2 : t.channels = s.channels) (frame0 n ch : Nat) :
    blockSamples t frame0 n ch = blockSamples s frame0 n ch := by simp [blockSamples, State.smpIndex, h1, h2]

theorem k_toNat_withEstimate (s : State) (a b : Nat) {c : Nat} (h : c < 2 ^ 32) :
    (s.withEstimate a b c).k.toNat = c := by simp; omega

/-- The state in which the coding loop of `ENCBLK` starts. -/
def State.blockEntry (s : State) (xs : List Int) : State :=
  ((s.withEstimate (absDiffSum 0 xs) (blockAverage s.cfg xs) (blockParameter s.cfg xs)).emit
    (uintBits s.bprl (blockParameter s.cfg xs))).withPrev 0

theorem State.blockEntry_k (s : State) {xs : List Int} (h : blockParameter s.cfg xs ≤ 31) :
    (s.blockEntry xs).k.toNat = blockParameter s.cfg xs :=
  k_toNat_withEstimate s (absDiffSum 0 xs) (blockAverage s.cfg xs) (by omega)

theorem State.blockEntry_pos (s : State) {xs : List Int} (h : s.pos + s.bprl < 2 ^ 67) :
    (s.blockEntry xs).pos = s.pos + s.bprl := by
  have := State.pos_emit (s.withEstimate (absDiffSum 0 xs) (blockAverage s.cfg xs) (blockParameter s.cfg xs))
    (bs := uintBits s.bprl (blockParameter s.cfg xs)) (by simpa using h)
  rw [uintBits_length] at this
  exact this

/-- `ENCBLK` up to its coding loop, on any samples that are container values. -/
theorem opEncblk_loop {s : State} {frame0 n ch : Nat} {xs : List Int} (hxs : blockSamples s frame0 n ch = xs)
    (hn : n ≤ 512) (hc : ch < s.channels.toNat) (hi : ∀ j, j < n → s.smpIndex (frame0 + j) ch < s.cfg.smpElems)
    (hx : ∀ x ∈ xs, s.holdsSample x = true) :
    opEncblk frame0 n ch s =
      if s.pos + s.bprl ≤ s.bufBits then
        (encSamples xs (s.blockEntry xs)).andThen fun _ t => .ok t.k.toNat t
      else .raised .bufBounds (word s.pos)
        (s.withEstimate (absDiffSum 0 xs) (blockAverage s.cfg xs) (blockParameter s.cfg xs)) := by
  have hlen : xs.length ≤ 512 := by rw [← hxs]; simpa using hn
  have hk := blockParameter_le hlen hx
  unfold opEncblk
  rw [if_pos (by simpa [blockSize] using hn), if_pos hc, opEstimate_eq hn hc hi, hxs, Done.andThen_ok, opWrk_eq,
    k_toNat_withEstimate _ _ _ (by omega)]
  by_cases h : s.pos + s.bprl ≤ s.bufBits
  · rw [if_pos (show (s.withEstimate _ _ _).pos + (s.withEstimate _ _ _).bprl ≤ (s.withEstimate _ _ _).bufBits from h),
      if_pos h, Done.andThen_ok, ← hxs]
    rfl
  · rw [if_neg (show ¬ (s.withEstimate _ _ _).pos + (s.withEstimate _ _ _).bprl ≤ (s.withEstimate _ _ _).bufBits from h),
      if_neg h]
    rfl

/-- `ENCBLK` where the whole record fits (R170). -/
theorem opEncblk_fits {s : State} {frame0 n ch : Nat} {xs : List Int} (hs : s.bufBits < 2 ^ 64)
    (hxs : blockSamples s frame0 n ch = xs)
    (hn : n ≤ 512) (hc : ch < s.channels.toNat) (hi : ∀ j, j < n → s.smpIndex (frame0 + j) ch < s.cfg.smpElems)
    (hx : ∀ x ∈ xs, s.holdsSample x = true)
    (hfit : s.pos + (recordBits s.bprl (blockParameter s.cfg xs) xs).length ≤ s.bufBits) :
    opEncblk frame0 n ch s =
      .ok (blockParameter s.cfg xs) ((s.coded xs).emit (recordBits s.bprl (blockParameter s.cfg xs) xs)) := by
  have hlen : xs.length ≤ 512 := by rw [← hxs]; simpa using hn
  have hk := blockParameter_le hlen hx
  rw [recordBits_eq, List.length_append, uintBits_length] at hfit
  rw [opEncblk_loop hxs hn hc hi hx, if_pos (by omega)]
  have hk1 := s.blockEntry_k hk
  have hp1 : (s.blockEntry xs).prev = 0 := rfl
  have hb1 : (s.blockEntry xs).bufBits = s.bufBits := rfl
  have hpos1 := s.blockEntry_pos (xs := xs) (by omega)
  have hx1 : ∀ x ∈ xs, (s.blockEntry xs).holdsSample x = true := hx
  rw [encSamples_fits (by omega) (by omega) (by rw [hp1]; exact inContainer_zero _) hx1
    (by rw [hk1, hp1, hpos1, hb1]; omega), Done.andThen_ok, hk1, hp1]
  have he := State.emit_emit (s.coded xs) (a := uintBits s.bprl (blockParameter s.cfg xs))
    (codewords (blockParameter s.cfg xs) 0 xs) (by show s.pos + _ < _; simp; omega)
  have hk2 : (((s.blockEntry xs).emit (codewords (blockParameter s.cfg xs) 0 xs)).withPrev (lastSample 0 xs)).k.toNat =
      blockParameter s.cfg xs := hk1
  rw [hk2, recordBits_eq, ← he]
  rfl

/-- `ENCBLK` where the record does not fit: a prefix of it is written (R170). -/
theorem opEncblk_overflow {s : State} {frame0 n ch : Nat} {xs : List Int} (hs : s.bufBits < 2 ^ 64)
    (hxs : blockSamples s frame0 n ch = xs)
    (hn : n ≤ 512) (hc : ch < s.channels.toNat) (hi : ∀ j, j < n → s.smpIndex (frame0 + j) ch < s.cfg.smpElems)
    (hx : ∀ x ∈ xs, s.holdsSample x = true)
    (hno : s.bufBits < s.pos + (recordBits s.bprl (blockParameter s.cfg xs) xs).length) :
    (s.bufBits < s.pos + s.bprl ∧
      opEncblk frame0 n ch s = .raised .bufBounds (word s.pos)
        (s.withEstimate (absDiffSum 0 xs) (blockAverage s.cfg xs) (blockParameter s.cfg xs))) ∨
    ∃ j, j < n ∧ s.pos + (recordBits s.bprl (blockParameter s.cfg xs) (xs.take j)).length ≤ s.bufBits ∧
      s.bufBits < s.pos + (recordBits s.bprl (blockParameter s.cfg xs) (xs.take (j + 1))).length ∧
      opEncblk frame0 n ch s =
        .raised .bufBounds (word (s.pos + (recordBits s.bprl (blockParameter s.cfg xs) (xs.take j)).length))
          (((s.coded xs).withPrev (lastSample 0 (xs.take j))).emit
            (recordBits s.bprl (blockParameter s.cfg xs) (xs.take j))) := by
  have hlen : xs.length = n := by rw [← hxs]; simp
  have hk := blockParameter_le (by omega) hx
  rw [opEncblk_loop hxs hn hc hi hx]
  by_cases h1 : s.pos + s.bprl ≤ s.bufBits
  · right
    rw [if_pos h1]
    simp only [recordBits_eq, List.length_append, uintBits_length] at hno ⊢
    have hk1 := s.blockEntry_k hk
    have hp1 : (s.blockEntry xs).prev = 0 := rfl
    have hb1 : (s.blockEntry xs).bufBits = s.bufBits := rfl
    have hpos1 := s.blockEntry_pos (xs := xs) (by omega)
    have hx1 : ∀ x ∈ xs, (s.blockEntry xs).holdsSample x = true := hx
    obtain ⟨j, hj, h2, h3, h4⟩ := encSamples_overflow (s := s.blockEntry xs) (xs := xs) (by omega) (by omega)
      (by rw [hp1]; exact inContainer_zero _) hx1 (by omega) (by rw [hk1, hp1, hpos1, hb1]; omega)
    rw [hk1, hp1, hpos1, hb1] at h2 h3
    rw [hk1, hp1, hpos1] at h4
    refine ⟨j, by omega, by omega, by omega, ?_⟩
    have he := State.emit_emit ((s.coded xs).withPrev (lastSample 0 (xs.take j)))
      (a := uintBits s.bprl (blockParameter s.cfg xs)) (codewords (blockParameter s.cfg xs) 0 (xs.take j))
      (by show s.pos + _ < _; simp; omega)
    rw [h4, Done.andThen_raised, Nat.add_assoc, ← he]
    rfl
  · left
    rw [if_neg h1]
    exact ⟨by omega, rfl⟩

/-! ## The decoding loop -/

/-- `SMP` after a block's samples are stored from frame `f` on (10_state.md R39). -/
def framesWritten (channels ch : Nat) : Nat → List Int → List (Nat × Int) → List (Nat × Int)
  | _, [], m => m
  | f, x :: xs, m => framesWritten channels ch (f + 1) xs (Memory.write 0 m (f * channels + ch) x)

theorem opPrddec_eq {s : State} {x : Int} (hp : s.holdsSample s.prev = true) (hx : s.holdsSample x = true) :
    opPrddec (toBits64 (x - s.prev)) s = .ok x (s.withPrev x) := by
  have hd := sub_small hx hp
  unfold opPrddec
  rw [hd.2, show s.prev + (x - s.prev) = x by omega, if_pos hx]

/-- Samples that stand somewhere end inside the bits. -/
theorem SamplesAt.bounds {w : SampleWidth} {m : List Host.Cell} {limit k p e : Nat} {ref : Int} {xs : List Int}
    (h : SamplesAt w m limit k p ref xs e) (hp : p ≤ limit) : p ≤ e ∧ e ≤ limit := by
  induction xs generalizing p ref with
  | nil => obtain rfl : e = p := h; omega
  | cons x xs ih =>
    obtain ⟨-, p', h1, h2⟩ := h
    have := h1.bounds
    have := ih h2 (by omega)
    omega

/-- The codewords an encoder writes stand for the samples. -/
theorem samplesAt_of_bits {w : SampleWidth} {m : List Host.Cell} {limit k p : Nat} {ref : Int} {xs : List Int}
    (hk : k ≤ 64) (hr : inContainer w ref = true) (hx : ∀ x ∈ xs, inContainer w x = true)
    (hfit : p + (codewords k ref xs).length ≤ limit)
    (hbits : bitsAt m p (codewords k ref xs).length = codewords k ref xs) :
    SamplesAt w m limit k p ref xs (p + (codewords k ref xs).length) := by
  induction xs generalizing p ref with
  | nil => rfl
  | cons x xs ih =>
    rw [codewords_cons, bitsAt_append] at hbits
    rw [codewords_cons, List.length_append] at hfit ⊢
    rw [← Nat.add_assoc]
    exact ⟨hx x (by simp), _, codewordAt_of_bits hk (sub_small (hx x (by simp)) hr).1 (by omega) hbits.1,
      ih (hx x (by simp)) (fun y hy => hx y (by simp [hy])) (by omega) hbits.2⟩

/-- The record an encoder writes is a record of the samples. -/
theorem recordAt_of_bits {w : SampleWidth} {m : List Host.Cell} {limit bprl k p : Nat} {xs : List Int} (hk : k ≤ 64)
    (hkb : k < 2 ^ bprl) (hx : ∀ x ∈ xs, inContainer w x = true) (hfit : p + (recordBits bprl k xs).length ≤ limit)
    (hbits : bitsAt m p (recordBits bprl k xs).length = recordBits bprl k xs) :
    fieldAt m p bprl = k ∧ RecordAt w m limit bprl p xs (p + (recordBits bprl k xs).length) := by
  rw [recordBits_eq, bitsAt_append] at hbits
  rw [recordBits_eq, List.length_append, uintBits_length] at hfit ⊢
  have hkf : fieldAt m p bprl = k := by
    rw [fieldAt_of_bits (v := k), Nat.mod_eq_of_lt hkb]
    intro i hi
    rw [bitsAt_eq_iff.mp hbits.1 i (by simpa using hi), uintBits_getD]
    simp [hi]
  rw [uintBits_length] at hbits
  refine ⟨hkf, by omega, ?_⟩
  rw [hkf, ← Nat.add_assoc]
  exact samplesAt_of_bits hk (inContainer_zero w) hx (by omega) hbits.2

/-- At any position either one sample stands, or the decoder faults there. -/
theorem codeword_or_fault (w : SampleWidth) (m : List Host.Cell) (limit k p : Nat) (ref : Int) :
    (∃ (x : Int) (e : Nat), inContainer w x = true ∧ CodewordAt m limit k p (x - ref) e) ∨
      ∃ (c : Cause) (info : Word) (stop : Nat), CodewordFault w m limit k p ref c info stop := by
  by_cases hk : k ≤ 64
  swap
  · exact .inr ⟨_, _, _, .inl ⟨by omega, rfl, rfl, rfl⟩⟩
  cases ho : onesAt m (p + 1) (limit - (p + 1)) with
  | none =>
    refine .inr ⟨_, _, _, .inr (.inl ⟨hk, fun x h1 h2 => ?_, rfl, rfl, rfl⟩)⟩
    have := onesAt_eq_none.mp ho (x - (p + 1)) (by omega)
    rwa [show p + 1 + (x - (p + 1)) = x by omega] at this
  | some q =>
    obtain ⟨h1, h2, h3⟩ := onesAt_eq_some.mp ho
    have hu : UnaryAt m limit (p + 1) q := ⟨by omega, h2, h3⟩
    by_cases hfit : p + (2 + q + k) ≤ limit
    swap
    · exact .inr ⟨_, _, _, .inr (.inr (.inl ⟨hk, q, hu, by omega, rfl, rfl, rfl⟩))⟩
    by_cases hmag : magnitudeAt m k p q ≤ 2 ^ 63 - 1
    swap
    · exact .inr ⟨_, _, _, .inr (.inr (.inr (.inl ⟨hk, q, hu, hfit, by omega, rfl, rfl, rfl⟩)))⟩
    have hd : CodewordAt m limit k p _ (p + (2 + q + k)) := ⟨hk, q, hu, rfl, hfit, hmag, rfl⟩
    revert hd
    generalize (if bufBit m p then -(magnitudeAt m k p q : Int) else (magnitudeAt m k p q : Int)) = d
    intro hd
    by_cases hr : inContainer w (ref + d) = true
    · exact .inl ⟨ref + d, _, hr, by rwa [show ref + d - ref = d by omega]⟩
    · exact .inr ⟨_, _, _, .inr (.inr (.inr (.inr ⟨d, hd, by simpa using hr, rfl, rfl⟩)))⟩

/-- From any position either `n` samples stand, or fewer stand and the decoder faults after them. -/
theorem samples_or_fault (w : SampleWidth) (m : List Host.Cell) (limit k n p : Nat) (ref : Int) :
    ∃ (xs : List Int) (e : Nat), SamplesAt w m limit k p ref xs e ∧
      (xs.length = n ∨ xs.length < n ∧ ∃ (c : Cause) (info : Word) (stop : Nat),
        CodewordFault w m limit k e (lastSample ref xs) c info stop) := by
  induction n generalizing p ref with
  | zero => exact ⟨[], p, rfl, .inl rfl⟩
  | succ n ih =>
    rcases codeword_or_fault w m limit k p ref with ⟨x, p', hx, h1⟩ | h
    · obtain ⟨xs, e, h2, h3⟩ := ih p' x
      exact ⟨x :: xs, e, ⟨hx, p', h1, h2⟩, by simpa [lastSample] using h3⟩
    · exact ⟨[], p, rfl, .inr ⟨Nat.succ_pos n, h⟩⟩

/-- The decoding loop reads the samples that stand at the cursor, and goes on with the rest. -/
theorem decSamples_run {s : State} {frame0 ch i e : Nat} {xs : List Int} (rest : Nat) (hs : s.bufBits < 2 ^ 64)
    (hp : s.holdsSample s.prev = true) (hpos : s.pos ≤ s.bufBits)
    (h : SamplesAt s.cfg.sampleW s.buf s.bufBits s.k.toNat s.pos s.prev xs e) :
    decSamples frame0 ch (xs.length + rest) i s =
      decSamples frame0 ch rest (i + xs.length)
        (((s.seek e).withPrev (lastSample s.prev xs)).withSmp
          (framesWritten s.channels.toNat ch (frame0 + i) xs s.smp)) := by
  induction xs generalizing s i with
  | nil =>
    obtain rfl : e = s.pos := h
    rw [List.length_nil, Nat.zero_add, State.seek_pos]
    rfl
  | cons x xs ih =>
    obtain ⟨hx, p', h1, h2⟩ := h
    have hb := h1.bounds
    rw [List.length_cons, Nat.add_right_comm]
    show (opRdec s).andThen _ = _
    rw [opRdec_at hs h1, Done.andThen_ok]
    simp only
    have hpd := opPrddec_eq (s := s.seek p') (x := x) hp hx
    rw [State.seek_prev] at hpd
    rw [hpd, Done.andThen_ok]
    generalize hs1 : ((s.seek p').withPrev x).storeSample (((s.seek p').withPrev x).smpIndex (frame0 + i) ch) x = s1
    have hpos1 : s1.pos = p' := by rw [← hs1]; exact s.pos_seek (by omega)
    have hk1 : s1.k = s.k := by rw [← hs1]; rfl
    have hp1 : s1.prev = x := by rw [← hs1]; rfl
    have hb1 : s1.bufBits = s.bufBits := by rw [← hs1]; rfl
    have hm1 : s1.buf = s.buf := by rw [← hs1]; rfl
    have hw1 : s1.cfg = s.cfg := by rw [← hs1]; rfl
    have hc1 : s1.channels = s.channels := by rw [← hs1]; rfl
    have hq1 : s1.smp = Memory.write 0 s.smp ((frame0 + i) * s.channels.toNat + ch) x := by rw [← hs1]; rfl
    rw [ih (s := s1) (i := i + 1) (by omega) (by rw [hp1]; simpa only [State.holdsSample, hw1] using hx)
      (by rw [hpos1, hb1]; omega) (by rw [hk1, hp1, hpos1, hb1, hm1, hw1]; exact h2), hp1, hc1, hq1,
      show i + 1 + xs.length = i + (xs.length + 1) by omega, ← hs1]
    rfl

/-- The decoding loop where no sample can be decoded (R171). -/
theorem decSamples_fault {s : State} {frame0 ch i stop : Nat} (rest : Nat) {c : Cause} {info : Word}
    (hs : s.bufBits < 2 ^ 64)
    (h : CodewordFault s.cfg.sampleW s.buf s.bufBits s.k.toNat s.pos s.prev c info stop) :
    decSamples frame0 ch (rest + 1) i s = .raised c info (s.seek stop) := by
  show (opRdec s).andThen _ = _
  rcases h with ⟨hk, rfl, rfl, rfl⟩ | ⟨hk, hones, rfl, rfl, rfl⟩ | ⟨hk, q, ⟨h1, h2, h3⟩, hlong, rfl, rfl, rfl⟩ |
    ⟨hk, q, ⟨h1, h2, h3⟩, hfit, hbig, rfl, rfl, rfl⟩ | ⟨d, hd, hr, rfl, rfl⟩
  · unfold opRdec
    rw [if_neg (by simpa [maxRiceWidth, uintMaxWidth] using hk), State.seek_pos]
    rfl
  · rw [opRdec_eq hs hk, onesAt_eq_none.mpr fun j hj => hones _ (by omega) (by omega), State.seek_pos]
    rfl
  · rw [opRdec_eq hs hk, onesAt_eq_some.mpr ⟨by omega, h2, h3⟩]
    simp only
    rw [if_neg (by omega), State.seek_pos]
    rfl
  · unfold magnitudeAt at hbig
    rw [← Nat.add_assoc] at hbig
    rw [opRdec_eq hs hk, onesAt_eq_some.mpr ⟨by omega, h2, h3⟩]
    simp only
    rw [if_pos (by omega), if_neg (by omega), State.seek_pos]
    rfl
  · rw [opRdec_at hs hd, Done.andThen_ok]
    unfold opPrddec
    simp only [State.seek_prev, hd.small]
    rw [if_neg (by simp only [State.holdsSample, State.seek_cfg, hr]; simp)]
    rfl

/-- The state `DECBLK` leaves when it has read a parameter `k` and samples `xs` and stops at position `p`. -/
def State.decoded (s : State) (frame0 ch k p : Nat) (xs : List Int) : State :=
  (((s.seek p).withK k).withPrev (lastSample 0 xs)).withSmp (framesWritten s.channels.toNat ch frame0 xs s.smp)

theorem State.decoded_pos (s : State) (frame0 ch k : Nat) {p : Nat} (xs : List Int) (h : p < 2 ^ 67) :
    (s.decoded frame0 ch k p xs).pos = p :=
  s.pos_seek h

theorem State.decoded_k (s : State) (frame0 ch : Nat) {k : Nat} (p : Nat) (xs : List Int) (h : k < 2 ^ 32) :
    (s.decoded frame0 ch k p xs).k.toNat = k := by
  show (BitVec.ofNat 32 k).toNat = k
  rw [BitVec.toNat_ofNat, Nat.mod_eq_of_lt h]

@[simp] theorem State.decoded_prev (s : State) (frame0 ch k p : Nat) (xs : List Int) :
    (s.decoded frame0 ch k p xs).prev = lastSample 0 xs := rfl

@[simp] theorem State.decoded_smp (s : State) (frame0 ch k p : Nat) (xs : List Int) :
    (s.decoded frame0 ch k p xs).smp = framesWritten s.channels.toNat ch frame0 xs s.smp := rfl

@[simp] theorem State.decoded_buf (s : State) (frame0 ch k p : Nat) (xs : List Int) :
    (s.decoded frame0 ch k p xs).buf = s.buf := rfl

@[simp] theorem State.decoded_cfg (s : State) (frame0 ch k p : Nat) (xs : List Int) :
    (s.decoded frame0 ch k p xs).cfg = s.cfg := rfl

/-- `DECBLK` of a legal block up to its decoding loop (R171). -/
theorem opDecblk_loop {s : State} {frame0 n ch : Nat} (hn : n ≤ 512) (hc : ch < s.channels.toNat)
    (hi : ∀ j, j < n → s.smpIndex (frame0 + j) ch < s.cfg.smpElems) :
    opDecblk frame0 n ch s =
      if s.pos + s.bprl ≤ s.bufBits then
        (decSamples frame0 ch n 0 (s.decoded frame0 ch (fieldAt s.buf s.pos s.bprl) (s.pos + s.bprl) [])).andThen
          fun _ t => .ok t.k.toNat t
      else .raised .bufBounds (word s.pos) s := by
  unfold opDecblk
  rw [if_pos (by simpa [blockSize] using hn), if_pos hc, firstOutside_eq_none.mpr (by simpa using hi)]
  simp only
  rw [opRdk_eq]
  split <;> rfl

/-- The decoding loop of `DECBLK` over the samples that stand after the `K` field. -/
theorem decSamples_record {s : State} {frame0 ch k p e : Nat} {xs : List Int} (rest : Nat) (hs : s.bufBits < 2 ^ 64)
    (hk : k < 2 ^ 32) (hpos : p ≤ s.bufBits) (h : SamplesAt s.cfg.sampleW s.buf s.bufBits k p 0 xs e) :
    decSamples frame0 ch (xs.length + rest) 0 (s.decoded frame0 ch k p []) =
      decSamples frame0 ch rest xs.length (s.decoded frame0 ch k e xs) := by
  have hk1 := s.decoded_k frame0 ch p [] hk
  have hp1 := s.decoded_pos frame0 ch k [] (show p < 2 ^ 67 by omega)
  have hv1 : (s.decoded frame0 ch k p []).prev = 0 := rfl
  rw [decSamples_run rest (s := s.decoded frame0 ch k p []) (e := e) hs (by rw [hv1]; exact inContainer_zero _)
    (by rw [hp1]; exact hpos) (by rw [hk1, hp1, hv1]; exact h), Nat.zero_add]
  rfl

theorem fieldAt_bprl_lt (s : State) (p : Nat) : fieldAt s.buf p s.bprl < 2 ^ 32 :=
  Nat.lt_of_lt_of_le (fieldAt_lt _ _ _) (Nat.pow_le_pow_right (by omega) (by have := s.bprl_le; omega))

/-- `DECBLK` over a record that stands at the cursor (R171). -/
theorem opDecblk_ok {s : State} {frame0 ch e : Nat} {xs : List Int} (hs : s.bufBits < 2 ^ 64) (hn : xs.length ≤ 512)
    (hc : ch < s.channels.toNat) (hi : ∀ j, j < xs.length → s.smpIndex (frame0 + j) ch < s.cfg.smpElems)
    (h : RecordAt s.cfg.sampleW s.buf s.bufBits s.bprl s.pos xs e) :
    opDecblk frame0 xs.length ch s =
      .ok (fieldAt s.buf s.pos s.bprl) (s.decoded frame0 ch (fieldAt s.buf s.pos s.bprl) e xs) := by
  have hk := fieldAt_bprl_lt s s.pos
  have hr := decSamples_record (frame0 := frame0) (ch := ch) 0 hs hk h.1 h.2
  rw [Nat.add_zero] at hr
  rw [opDecblk_loop hn hc hi, if_pos h.1, hr]
  show Done.ok (State.k _).toNat _ = _
  rw [s.decoded_k _ _ _ _ hk]

/-- `DECBLK` where the record stops being one after some samples (R171, 60_exceptions.md R206). -/
theorem opDecblk_fault {s : State} {frame0 n ch e stop : Nat} {xs : List Int} {c : Cause} {info : Word}
    (hs : s.bufBits < 2 ^ 64) (hn : n ≤ 512) (hc : ch < s.channels.toNat)
    (hi : ∀ j, j < n → s.smpIndex (frame0 + j) ch < s.cfg.smpElems) (hlt : xs.length < n)
    (h : RecordAt s.cfg.sampleW s.buf s.bufBits s.bprl s.pos xs e)
    (hf : CodewordFault s.cfg.sampleW s.buf s.bufBits (fieldAt s.buf s.pos s.bprl) e (lastSample 0 xs) c info stop) :
    opDecblk frame0 n ch s = .raised c info (s.decoded frame0 ch (fieldAt s.buf s.pos s.bprl) stop xs) := by
  have hk := fieldAt_bprl_lt s s.pos
  have he := h.2.bounds h.1
  obtain ⟨rest, rfl⟩ : ∃ rest, n = xs.length + (rest + 1) := ⟨n - xs.length - 1, by omega⟩
  have hpos := s.decoded_pos frame0 ch (fieldAt s.buf s.pos s.bprl) xs (show e < 2 ^ 67 by omega)
  have hkk := s.decoded_k frame0 ch e xs hk
  have hd := decSamples_fault (s := s.decoded frame0 ch (fieldAt s.buf s.pos s.bprl) e xs) (frame0 := frame0) (ch := ch)
    (i := xs.length) rest hs (by rw [hpos, hkk]; exact hf)
  rw [opDecblk_loop hn hc hi, if_pos h.1, decSamples_record (rest + 1) hs hk h.1 h.2, hd]
  rfl

end Sys2Proof.Machine
end

