-- ==== Sys2Proof/Laws/Header.lean ====
section
/-! SUPPORT. What the header commands do (42_header.md R130, R131), and that a written header reads back. -/

namespace Sys2Proof.Machine

@[simp] theorem headerBits_length (count channels bps rate : Nat) :
    (headerBits count channels bps rate).length = 160 := by simp [headerBits]

/-- `WRHDR` OR-writes the header from position 0 on (R130). -/
theorem opWrhdr_eq {s : State} (hs : s.bufBits < 2 ^ 64) (h20 : 160 ≤ s.bufBits) :
    opWrhdr s =
      .ok () ((s.seek 0).emit (headerBits s.count.toNat s.channels.toNat s.bps.toNat s.rate.toNat)) := by
  have h0 : (s.seek 0).pos = 0 := s.pos_seek (by omega)
  have step : ∀ (bs : List Bool) (w v : Nat), w ≤ 64 → bs.length + w ≤ 160 →
      opWruint w v ((s.seek 0).emit bs) = .ok () ((s.seek 0).emit (bs ++ uintBits w v)) := by
    intro bs w v hw hlen
    have hb := State.pos_emit (s.seek 0) (bs := bs) (by omega)
    rw [opWruint_eq hw, hb, h0, if_pos (by simp only [State.emit_bufBits, State.seek_bufBits]; omega),
      State.emit_emit _ _ (by omega)]
  unfold opWrhdr
  have first := step [] 32 magic (by omega) (by simp)
  rw [State.emit_nil] at first
  rw [first, Done.andThen_ok, step _ 64 _ (by omega) (by simp), Done.andThen_ok, step _ 16 _ (by omega) (by simp),
    Done.andThen_ok, step _ 16 _ (by omega) (by simp), Done.andThen_ok, step _ 32 _ (by omega) (by simp)]
  rfl

/-- `RDHDR` reads the magic and, where it matches, the four fields (R131). -/
theorem opRdhdr_eq {s : State} (hs : s.bufBits < 2 ^ 64) (h20 : 160 ≤ s.bufBits) :
    opRdhdr s =
      if fieldAt s.buf 0 32 = magic then
        .ok true (((s.seek 160).withParams (fieldAt s.buf 32 64) (fieldAt s.buf 96 16) (fieldAt s.buf 112 16)
          (fieldAt s.buf 128 32)).withStatus (setHdrOk true s.status))
      else .ok false ((s.seek 32).withStatus (setHdrOk false s.status)) := by
  have step : ∀ p w : Nat, w ≤ 64 → p + w ≤ 160 →
      opRduint w (s.seek p) = .ok (fieldAt s.buf p w) (s.seek (p + w)) := by
    intro p w hw hp
    have h0 : (s.seek p).pos = p := s.pos_seek (by omega)
    rw [opRduint_eq hw, h0, if_pos (by simp only [State.seek_bufBits]; omega)]
    unfold State.advance
    rw [h0]
    rfl
  unfold opRdhdr
  rw [step 0 32 (by omega) (by omega), Done.andThen_ok]
  split
  · unfold loadParams
    rw [step 32 64 (by omega) (by omega), Done.andThen_ok, step 96 16 (by omega) (by omega), Done.andThen_ok,
      step 112 16 (by omega) (by omega), Done.andThen_ok, step 128 32 (by omega) (by omega), Done.andThen_ok]
    rfl
  · rfl

/-- The five fields of a header that stands at position 0 (30_encoding.md R78). -/
theorem header_fields {m : List Host.Cell} {count channels bps rate : Nat}
    (h : bitsAt m 0 160 = headerBits count channels bps rate) :
    fieldAt m 0 32 = magic ∧ fieldAt m 32 64 = count % 2 ^ 64 ∧ fieldAt m 96 16 = channels % 2 ^ 16 ∧
      fieldAt m 112 16 = bps % 2 ^ 16 ∧ fieldAt m 128 32 = rate % 2 ^ 32 := by
  have h' : bitsAt m 0 (headerBits count channels bps rate).length = headerBits count channels bps rate := by
    simpa using h
  unfold headerBits at h'
  rw [bitsAt_append, bitsAt_append, bitsAt_append, bitsAt_append] at h'
  simp only [List.length_append, uintBits_length] at h'
  have field : ∀ p w v, bitsAt m p w = uintBits w v → fieldAt m p w = v % 2 ^ w := by
    intro p w v hb
    have hb' : bitsAt m p (uintBits w v).length = uintBits w v := by simpa using hb
    rw [bitsAt_eq_iff] at hb'
    refine fieldAt_of_bits fun i hi => ?_
    rw [hb' i (by simpa using hi), uintBits_getD]
    simp [hi]
  obtain ⟨⟨⟨⟨h1, h2⟩, h3⟩, h4⟩, h5⟩ := h'
  refine ⟨?_, field _ _ _ h2, field _ _ _ h3, field _ _ _ h4, field _ _ _ h5⟩
  rw [field _ _ _ h1]
  rfl

end Sys2Proof.Machine
end

