-- ==== Sys2Proof/Laws/Encode.lean ====
section
/-! SUPPORT. What `ENCODE` does, block by block and channel by channel (46_stream.md R181, R183, R184): the state in
the middle of the block loop, one block, one channel after the other, and the two ways the loop ends. -/

namespace Sys2Proof.Machine

/-! ## Block partition (46_stream.md R180) -/

theorem blockFrames_le (count b : Nat) : blockFrames count b ≤ 512 := Nat.min_le_left _ _

theorem blockFrames_bound {count b j : Nat} (h : j < blockFrames count b) : 512 * b + j < count := by
  unfold blockFrames blockSize at h
  omega

theorem blockCount_bound {count b : Nat} (h : b < blockCount count) : 512 * b < count := by
  unfold blockCount ceilDiv blockSize at h
  omega

theorem blockCount_pos {count : Nat} (h : count ≠ 0) : 0 < blockCount count := by
  unfold blockCount ceilDiv blockSize
  omega

theorem blockCount_covers (count : Nat) : count ≤ 512 * blockCount count := by
  unfold blockCount ceilDiv blockSize
  omega

@[simp] theorem framesOfBlock_length (count : Nat) (f : Nat → Int) (b : Nat) :
    (framesOfBlock count f b).length = blockFrames count b := by simp [framesOfBlock]

/-- The index of a frame of the stream is inside the sample buffer. -/
theorem index_lt {count channels f c : Nat} (hf : f < count) (hc : c < channels) :
    f * channels + c < count * channels := by
  have : (f + 1) * channels ≤ count * channels := Nat.mul_le_mul_right _ hf
  rw [Nat.add_mul] at this
  omega

/-! ## The bits written so far -/

theorem State.encodedStream_eq (s : State) : s.encodedStream = s.soFar (blockCount s.count.toNat) 0 := by
  simp only [State.soFar, blockBits, List.range_zero, List.flatMap_nil, List.append_nil]
  rfl

theorem State.soFar_start (s : State) :
    s.soFar 0 0 = headerBits s.count.toNat s.channels.toNat s.bps.toNat s.rate.toNat := by
  simp [State.soFar, State.payloadOf, payloadBits, blockBits]

theorem State.soFar_header (s : State) (b c : Nat) : 160 ≤ (s.soFar b c).length := by
  rw [State.soFar, List.length_append, headerBits_length]; omega

theorem State.soFar_channel (s : State) (b c : Nat) :
    s.soFar b (c + 1) = s.soFar b c ++ recordBits s.bprl (s.parameterOf b c) (s.blockOf b c) := by
  simp [State.soFar, blockBits, List.range_succ, List.flatMap_append]

theorem State.soFar_block (s : State) (b : Nat) :
    s.soFar (b + 1) 0 = s.soFar b s.channels.toNat ++ paddingBits s.cfg.encAlign (s.soFar b s.channels.toNat).length := by
  have hl : (s.soFar b s.channels.toNat).length =
      160 + (s.payloadOf b ++ blockBits s.bprl s.channels.toNat (s.parameterOf b) (s.blockOf b)).length := by
    rw [State.soFar, List.length_append, headerBits_length]
  have hp : ∀ n, paddingBits s.cfg.encAlign (160 + n) = paddingBits s.cfg.encAlign n := by
    intro n; unfold paddingBits; rw [show (160 + n) % 8 = n % 8 by omega]
  rw [hl, hp]
  show _ ++ (payloadBits _ _ _ _ _ (b + 1) ++ []) = _
  rw [List.append_nil]
  simp only [payloadBits, State.soFar, State.payloadOf, List.append_assoc]

theorem State.soFar_channel_le (s : State) (b c i : Nat) : (s.soFar b c).length ≤ (s.soFar b (c + i)).length := by
  induction i with
  | zero => exact Nat.le_refl _
  | succ i ih => rw [← Nat.add_assoc, State.soFar_channel, List.length_append]; omega

theorem State.soFar_block_le (s : State) (b i : Nat) : (s.soFar b 0).length ≤ (s.soFar (b + i) 0).length := by
  induction i with
  | zero => exact Nat.le_refl _
  | succ i ih =>
    have := s.soFar_channel_le (b + i) 0 s.channels.toNat
    rw [Nat.zero_add] at this
    rw [← Nat.add_assoc, State.soFar_block, List.length_append]
    omega

/-- The stream written so far is a prefix of the whole. -/
theorem State.soFar_prefix_channel (s : State) (b c i : Nat) : s.soFar b c <+: s.soFar b (c + i) := by
  induction i with
  | zero => exact List.prefix_rfl
  | succ i ih => rw [← Nat.add_assoc, State.soFar_channel]; exact ih.trans (List.prefix_append _ _)

theorem State.soFar_prefix_block (s : State) (b i : Nat) : s.soFar b 0 <+: s.soFar (b + i) 0 := by
  induction i with
  | zero => exact List.prefix_rfl
  | succ i ih =>
    have := s.soFar_prefix_channel (b + i) 0 s.channels.toNat
    rw [Nat.zero_add] at this
    rw [← Nat.add_assoc, State.soFar_block]
    exact (ih.trans this).trans (List.prefix_append _ _)

/-! ## The state in the loop -/

/-- `t` is `s` inside `ENCODE` when the bits `B` have been written, but for the block registers. -/
structure EncMid (s t : State) (B : List Bool) : Prop where
  cfg : t.cfg = s.cfg
  channels : t.channels = s.channels
  bps : t.bps = s.bps
  rate : t.rate = s.rate
  count : t.count = s.count
  status : t.status = s.status
  smp : t.smp = s.smp
  pending : t.pending = s.pending
  rsp : t.rsp = s.rsp
  buf : t.buf = orBits [] 0 B
  pos : t.pos = B.length

/-- As `EncMid`, and the block registers are those after the record `last` names; the old ones where it names none. -/
structure EncAt (s t : State) (B : List Bool) (last : Option (Nat × Nat)) : Prop extends EncMid s t B where
  k : t.k = last.elim s.k fun r => BitVec.ofNat 32 (s.parameterOf r.1 r.2)
  acc : t.acc = last.elim s.acc fun r => BitVec.ofNat 64 (absDiffSum 0 (s.blockOf r.1 r.2))
  avg : t.avg = last.elim s.avg fun r => BitVec.ofNat 64 (blockAverage s.cfg (s.blockOf r.1 r.2))
  prev : t.prev = last.elim s.prev fun r => lastSample 0 (s.blockOf r.1 r.2)

/-- `ENCODE` stops in the record of block `b` and channel `c`: its `K` field, or the codeword of its sample `j`, does not
fit, and everything before that part stands in `BUF` (R181, 60_exceptions.md R206). -/
structure EncStop (s t : State) (B : List Bool) (b c : Nat) : Prop extends EncMid s t B where
  k : t.k = BitVec.ofNat 32 (s.parameterOf b c)
  acc : t.acc = BitVec.ofNat 64 (absDiffSum 0 (s.blockOf b c))
  avg : t.avg = BitVec.ofNat 64 (blockAverage s.cfg (s.blockOf b c))
  within : B.length ≤ s.bufBits
  part :
    (B = s.soFar b c ∧ s.bufBits < B.length + s.bprl ∧
      t.prev = (recordBefore s.channels.toNat b c).elim s.prev fun r => lastSample 0 (s.blockOf r.1 r.2)) ∨
    ∃ j, j < (s.blockOf b c).length ∧
      B = s.soFar b c ++ recordBits s.bprl (s.parameterOf b c) ((s.blockOf b c).take j) ∧
      s.bufBits < (s.soFar b c ++ recordBits s.bprl (s.parameterOf b c) ((s.blockOf b c).take (j + 1))).length ∧
      t.prev = lastSample 0 ((s.blockOf b c).take j)

/-- `d` ends with `BufBounds` in the record of block `b` and channel `c`. -/
def EncFail {α : Type} (s : State) (b c : Nat) (d : Done α) : Prop :=
  ∃ (B : List Bool) (t : State), EncStop s t B b c ∧ d = .raised .bufBounds (word B.length) t

theorem EncFail.andThen {α β : Type} {s : State} {b c : Nat} {d : Done α} (h : EncFail s b c d)
    (f : α → State → Done β) : EncFail s b c (d.andThen f) := by
  obtain ⟨B, t, h1, rfl⟩ := h
  exact ⟨B, t, h1, rfl⟩

theorem recordBefore_block {channels : Nat} (h : channels ≠ 0) (b : Nat) :
    recordBefore channels (b + 1) 0 = recordBefore channels b channels := by simp [recordBefore, h]

/-- A record begins with the record of its first samples. -/
theorem recordBits_take_prefix (bprl k : Nat) (xs : List Int) (j : Nat) :
    recordBits bprl k (xs.take j) <+: recordBits bprl k xs := by
  rw [recordBits_eq, recordBits_eq, List.prefix_append_right_inj]
  generalize (0 : Int) = ref
  induction xs generalizing ref j with
  | nil => simp
  | cons x xs ih =>
    cases j with
    | zero => simp
    | succ j =>
      rw [List.take_succ_cons, codewords_cons, codewords_cons, List.prefix_append_right_inj]
      exact ih j x

/-- What was written before the stop is a prefix of what comes up to the end of the record. -/
theorem EncStop.prefix {s t : State} {B : List Bool} {b c : Nat} (h : EncStop s t B b c) : B <+: s.soFar b (c + 1) := by
  rw [State.soFar_channel]
  rcases h.part with ⟨rfl, -⟩ | ⟨j, -, rfl, -⟩
  · exact List.prefix_append _ _
  · rw [List.prefix_append_right_inj]; exact recordBits_take_prefix _ _ _ _

theorem EncStop.header {s t : State} {B : List Bool} {b c : Nat} (h : EncStop s t B b c) : 160 ≤ B.length := by
  have := s.soFar_header b c
  rcases h.part with ⟨rfl, -⟩ | ⟨j, -, rfl, -⟩
  · exact this
  · rw [List.length_append]; omega

theorem EncMid.bprl {s t : State} {B : List Bool} (h : EncMid s t B) : t.bprl = s.bprl := by
  simp only [State.bprl, h.bps]

theorem EncMid.bufBits {s t : State} {B : List Bool} (h : EncMid s t B) : t.bufBits = s.bufBits := by
  simp only [State.bufBits, h.cfg]

theorem EncMid.samples {s t : State} {B : List Bool} (h : EncMid s t B) (b c : Nat) :
    blockSamples t (blockSize * b) (blockFrames s.count.toNat b) c = s.blockOf b c :=
  blockSamples_congr h.smp h.channels _ _ _

/-- What `ENCODE` checks before it changes anything (R187, R188), and the invariant. -/
structure EncReady (s : State) : Prop where
  inv : s.Inv
  capacity : s.elements ≤ s.cfg.smpElems

theorem State.Inv.holdsSample_blockOf {s : State} (h : s.Inv) (b c : Nat) :
    ∀ x ∈ s.blockOf b c, s.holdsSample x = true := by
  intro x hx
  simp only [State.blockOf, framesOfBlock, List.mem_map] at hx
  obtain ⟨i, -, rfl⟩ := hx
  exact h.holdsSample_read _

theorem EncReady.indices {s : State} (h : EncReady s) {b c : Nat} (hc : c < s.channels.toNat) :
    ∀ j, j < blockFrames s.count.toNat b → s.smpIndex (blockSize * b + j) c < s.cfg.smpElems := by
  intro j hj
  have := index_lt (blockFrames_bound hj) hc
  have := h.capacity
  simp only [State.smpIndex, State.elements, blockSize] at *
  omega

/-- One block command that fits. -/
theorem EncAt.encblk {s t : State} {B : List Bool} {last : Option (Nat × Nat)} (hr : EncReady s) (h : EncAt s t B last)
    {b c : Nat} (hc : c < s.channels.toNat)
    (hfit : (B ++ recordBits s.bprl (s.parameterOf b c) (s.blockOf b c)).length ≤ s.bufBits) :
    ∃ u, opEncblk (blockSize * b) (blockFrames s.count.toNat b) c t = .ok (s.parameterOf b c) u ∧
      EncAt s u (B ++ recordBits s.bprl (s.parameterOf b c) (s.blockOf b c)) (some (b, c)) := by
  have hsm := hr.inv.small
  rw [List.length_append] at hfit
  have hcfg : blockParameter t.cfg (s.blockOf b c) = s.parameterOf b c := by rw [h.cfg]; rfl
  have := opEncblk_fits (s := t) (xs := s.blockOf b c) (by rw [h.bufBits]; exact hsm) (h.samples b c)
    (blockFrames_le _ _) (by rw [h.channels]; exact hc)
    (by intro j hj; have := hr.indices hc j hj; simpa only [State.smpIndex, h.channels, h.cfg] using this)
    (by intro x hx; have := hr.inv.holdsSample_blockOf b c x hx; simpa only [State.holdsSample, h.cfg] using this)
    (by rw [hcfg, h.bprl, h.bufBits, h.pos]; exact hfit)
  rw [hcfg, h.bprl] at this
  refine ⟨_, this, ?_⟩
  have hp : (t.coded (s.blockOf b c)).pos = B.length := h.pos
  refine ⟨⟨h.cfg, h.channels, h.bps, h.rate, h.count, h.status, h.smp, h.pending, h.rsp, ?_, ?_⟩, ?_, ?_, ?_, ?_⟩
  · rw [State.emit_buf, hp]
    show orBits t.buf _ _ = _
    rw [h.buf, orBits_append, Nat.zero_add]
  · rw [State.pos_emit _ (by rw [hp]; omega), hp, List.length_append]
  · show BitVec.ofNat 32 (blockParameter t.cfg _) = _
    rw [hcfg]
    rfl
  · rfl
  · show BitVec.ofNat 64 (blockAverage t.cfg _) = _
    rw [h.cfg]
    rfl
  · rfl

/-- One block command that does not fit. -/
theorem EncAt.encblk_overflow {s t : State} (hr : EncReady s) {b c : Nat}
    (h : EncAt s t (s.soFar b c) (recordBefore s.channels.toNat b c)) (hc : c < s.channels.toNat)
    (hB : (s.soFar b c).length ≤ s.bufBits) (hno : s.bufBits < (s.soFar b (c + 1)).length) :
    EncFail s b c (opEncblk (blockSize * b) (blockFrames s.count.toNat b) c t) := by
  have hsm := hr.inv.small
  rw [State.soFar_channel, List.length_append] at hno
  have hcfg : blockParameter t.cfg (s.blockOf b c) = s.parameterOf b c := by rw [h.cfg]; rfl
  have havg : blockAverage t.cfg (s.blockOf b c) = blockAverage s.cfg (s.blockOf b c) := by rw [h.cfg]
  have hlen : (s.blockOf b c).length = blockFrames s.count.toNat b := by simp [State.blockOf]
  have := opEncblk_overflow (s := t) (xs := s.blockOf b c) (by rw [h.bufBits]; exact hsm) (h.samples b c)
    (blockFrames_le _ _) (by rw [h.channels]; exact hc)
    (by intro j hj; have := hr.indices hc j hj; simpa only [State.smpIndex, h.channels, h.cfg] using this)
    (by intro x hx; have := hr.inv.holdsSample_blockOf b c x hx; simpa only [State.holdsSample, h.cfg] using this)
    (by rw [hcfg, h.bprl, h.bufBits, h.pos]; exact hno)
  rw [hcfg, havg, h.bprl, h.bufBits, h.pos] at this
  rcases this with ⟨h1, h2⟩ | ⟨j, hj, h1, h1', h2⟩
  · refine ⟨_, _, ?_, h2⟩
    exact ⟨⟨h.cfg, h.channels, h.bps, h.rate, h.count, h.status, h.smp, h.pending, h.rsp, h.buf, h.pos⟩, rfl, rfl, rfl, hB,
      .inl ⟨rfl, h1, h.prev⟩⟩
  · have hp : ((t.coded (s.blockOf b c)).withPrev (lastSample 0 ((s.blockOf b c).take j))).pos =
      (s.soFar b c).length := h.pos
    rw [← List.length_append] at h1 h1' h2
    refine ⟨_, _, ?_, h2⟩
    refine ⟨⟨h.cfg, h.channels, h.bps, h.rate, h.count, h.status, h.smp, h.pending, h.rsp, ?_, ?_⟩, ?_, rfl, ?_, h1,
      .inr ⟨j, by omega, rfl, h1', rfl⟩⟩
    · rw [State.emit_buf, hp]
      show orBits t.buf _ _ = _
      rw [h.buf, orBits_append, Nat.zero_add]
    · rw [List.length_append] at h1
      rw [State.pos_emit _ (by rw [hp]; omega), hp, List.length_append]
    · rw [← hcfg]; rfl
    · rw [← havg]; rfl

/-! ## All channels of a block -/

theorem EncAt.channels_fit {s t : State} (hr : EncReady s) {b c todo : Nat}
    (h : EncAt s t (s.soFar b c) (recordBefore s.channels.toNat b c)) (hc : c + todo = s.channels.toNat)
    (hfit : (s.soFar b (c + todo)).length ≤ s.bufBits) :
    ∃ u, overChannels (opEncblk (blockSize * b) (blockFrames s.count.toNat b)) todo c t = .ok () u ∧
      EncAt s u (s.soFar b (c + todo)) (recordBefore s.channels.toNat b (c + todo)) := by
  induction todo generalizing c t with
  | zero => exact ⟨t, rfl, h⟩
  | succ todo ih =>
    have hle := s.soFar_channel_le b (c + 1) todo
    rw [show c + (todo + 1) = c + 1 + todo by omega] at hfit ⊢
    obtain ⟨u, hu, hu2⟩ := h.encblk hr (b := b) (c := c) (by omega) (by rw [← State.soFar_channel]; omega)
    rw [← State.soFar_channel] at hu2
    obtain ⟨v, hv, hv2⟩ := ih hu2 (by omega) hfit
    refine ⟨v, ?_, hv2⟩
    unfold overChannels
    rw [hu, Done.andThen_ok, hv]

theorem EncAt.channels_overflow {s t : State} (hr : EncReady s) {b c todo : Nat}
    (h : EncAt s t (s.soFar b c) (recordBefore s.channels.toNat b c)) (hc : c + todo = s.channels.toNat)
    (hB : (s.soFar b c).length ≤ s.bufBits) (hno : s.bufBits < (s.soFar b (c + todo)).length) :
    ∃ c', c' < s.channels.toNat ∧
      EncFail s b c' (overChannels (opEncblk (blockSize * b) (blockFrames s.count.toNat b)) todo c t) := by
  induction todo generalizing c t with
  | zero => simp at hno; omega
  | succ todo ih =>
    rw [show c + (todo + 1) = c + 1 + todo by omega] at hno
    unfold overChannels
    by_cases hf : (s.soFar b (c + 1)).length ≤ s.bufBits
    · obtain ⟨u, hu, hu2⟩ := h.encblk hr (b := b) (c := c) (by omega) (by rw [← State.soFar_channel]; exact hf)
      rw [← State.soFar_channel] at hu2
      rw [hu, Done.andThen_ok]
      exact ih hu2 (by omega) hf hno
    · exact ⟨c, by omega, (h.encblk_overflow hr (by omega) hB (by omega)).andThen _⟩

/-! ## Padding -/

theorem orBits_zeros {m : List Host.Cell} (hm : Memory.wf 0#8 m = true) (p n : Nat) :
    orBits m p (List.replicate n false) = m := by
  refine buf_ext (wf_orBits hm _ _) hm fun x => ?_
  rw [bufBit_orBits hm, replicate_getD]
  simp

/-- `ALIGN` passes the padding bits (R118, R184). -/
theorem opAlign_eq (s : State) :
    opAlign s = .ok () (s.advance ((8 - s.pos % 8) % 8)) := by
  have hb := s.curBit.isLt
  have hmod : s.pos % 8 = s.curBit.toNat := by simp only [State.pos]; omega
  unfold opAlign
  split
  · rename_i h
    have : s.pos % 8 = 0 := by rw [hmod, h]; rfl
    rw [this]
    simp
  · rename_i h
    have h0 : s.curBit.toNat ≠ 0 := fun e => h (BitVec.eq_of_toNat_eq e)
    rw [hmod, Nat.mod_eq_of_lt (by omega)]
    unfold State.advance
    rw [show s.pos + (8 - s.curBit.toNat) = 8 * (s.curByte.toNat + 1) by simp only [State.pos]; omega]

theorem EncAt.align {s t : State} {B : List Bool} {last : Option (Nat × Nat)} (hr : EncReady s) (h : EncAt s t B last)
    (hB : B.length ≤ s.bufBits) :
    ∃ u, (if s.cfg.encAlign then opAlign t else .ok () t) = .ok () u ∧
      EncAt s u (B ++ paddingBits s.cfg.encAlign B.length) last ∧
      (B ++ paddingBits s.cfg.encAlign B.length).length ≤ s.bufBits := by
  have hsm := hr.inv.small
  unfold paddingBits
  cases s.cfg.encAlign with
  | false => exact ⟨t, rfl, by simpa using h, by simpa using hB⟩
  | true =>
    simp only [if_true]
    rw [opAlign_eq, h.pos]
    refine ⟨_, rfl, ?_, ?_⟩
    · refine ⟨⟨h.cfg, h.channels, h.bps, h.rate, h.count, h.status, h.smp, h.pending, h.rsp, ?_, ?_⟩, h.k, h.acc, h.avg,
        h.prev⟩
      · rw [orBits_append, orBits_zeros (wf_orBits rfl _ _)]; exact h.buf
      · rw [t.pos_advance (by rw [h.pos]; omega), h.pos]; simp
    · simp only [List.length_append, List.length_replicate]
      have : s.bufBits = 8 * s.cfg.bufBytes := rfl
      omega

/-! ## All blocks -/

theorem EncAt.blocks_fit {s t : State} (hr : EncReady s) (hch : s.channels.toNat ≠ 0) {b todo : Nat}
    (h : EncAt s t (s.soFar b 0) (recordBefore s.channels.toNat b 0))
    (hfit : (s.soFar (b + todo) 0).length ≤ s.bufBits) :
    ∃ u, overBlocks opEncblk s.cfg.encAlign s.count.toNat s.channels.toNat todo b t = .ok () u ∧
      EncAt s u (s.soFar (b + todo) 0) (recordBefore s.channels.toNat (b + todo) 0) := by
  induction todo generalizing b t with
  | zero => exact ⟨t, rfl, h⟩
  | succ todo ih =>
    rw [show b + (todo + 1) = b + 1 + todo by omega] at hfit ⊢
    have hle := s.soFar_block_le (b + 1) todo
    have hpad : (s.soFar (b + 1) 0).length ≤ s.bufBits := by omega
    rw [State.soFar_block, List.length_append] at hpad
    obtain ⟨u, hu, hu2⟩ := h.channels_fit hr (todo := s.channels.toNat) (by omega) (by rw [Nat.zero_add]; omega)
    rw [Nat.zero_add] at hu2
    obtain ⟨v, hv, hv2, -⟩ := hu2.align hr (by omega)
    rw [← State.soFar_block, ← recordBefore_block hch] at hv2
    obtain ⟨w, hw, hw2⟩ := ih hv2 hfit
    refine ⟨w, ?_, hw2⟩
    unfold overBlocks
    rw [hu, Done.andThen_ok, hv, Done.andThen_ok, hw]

theorem EncAt.blocks_overflow {s t : State} (hr : EncReady s) (hch : s.channels.toNat ≠ 0) {b todo : Nat}
    (h : EncAt s t (s.soFar b 0) (recordBefore s.channels.toNat b 0)) (hB : (s.soFar b 0).length ≤ s.bufBits)
    (hno : s.bufBits < (s.soFar (b + todo) 0).length) :
    ∃ b' c, b' < b + todo ∧ c < s.channels.toNat ∧
      EncFail s b' c (overBlocks opEncblk s.cfg.encAlign s.count.toNat s.channels.toNat todo b t) := by
  induction todo generalizing b t with
  | zero => simp at hno; omega
  | succ todo ih =>
    rw [show b + (todo + 1) = b + 1 + todo by omega] at hno ⊢
    unfold overBlocks
    by_cases hf : (s.soFar b s.channels.toNat).length ≤ s.bufBits
    · obtain ⟨u, hu, hu2⟩ := h.channels_fit hr (todo := s.channels.toNat) (by omega) (by rw [Nat.zero_add]; exact hf)
      rw [Nat.zero_add] at hu2
      obtain ⟨v, hv, hv2, hv3⟩ := hu2.align hr hf
      rw [← State.soFar_block] at hv2 hv3
      rw [← recordBefore_block hch] at hv2
      rw [hu, Done.andThen_ok, hv, Done.andThen_ok]
      exact ih hv2 hv3 hno
    · obtain ⟨c, hc, hfail⟩ := h.channels_overflow hr (todo := s.channels.toNat) (by omega) hB
        (by rw [Nat.zero_add]; omega)
      exact ⟨b, c, by omega, hc, hfail.andThen _⟩

/-! ## The command -/

/-- The checks pass exactly on valid parameters and a sample buffer that fits (R187, R188). -/
theorem checkStream_ok {s : State} (hc : s.channels ≠ 0) (hb : s.bps ≠ 0) (hr : s.rate ≠ 0) (hn : s.count ≠ 0)
    (hcap : s.elements ≤ s.cfg.smpElems) : checkStream s = .ok () s := by
  unfold checkStream firstZeroParam
  rw [if_neg hc, if_neg hb, if_neg hr, if_neg hn]
  simp [hcap]

theorem toNat_ne_zero {n : Nat} {v : BitVec n} (h : v ≠ 0) : v.toNat ≠ 0 := fun e => h (BitVec.eq_of_toNat_eq (by simpa using e))

/-- The state in which the block loop of `ENCODE` starts. -/
theorem encode_start {s : State} (hr : EncReady s) :
    EncAt s ((((s.withBuf (Memory.clearBelow s.cfg.bufBytes s.buf))).seek 0).emit (s.soFar 0 0)) (s.soFar 0 0)
      (recordBefore s.channels.toNat 0 0) := by
  have hsm := hr.inv.small
  have h0 : (((s.withBuf (Memory.clearBelow s.cfg.bufBytes s.buf))).seek 0).pos = 0 := State.pos_seek _ (by omega)
  have hlen : (s.soFar 0 0).length = 160 := by rw [State.soFar_start]; simp
  refine ⟨⟨rfl, rfl, rfl, rfl, rfl, rfl, rfl, rfl, rfl, ?_, ?_⟩, rfl, rfl, rfl, rfl⟩
  · rw [State.emit_buf, h0]
    show orBits (Memory.clearBelow _ _) _ _ = _
    rw [Memory.clearBelow_within hr.inv.buf]
  · rw [State.pos_emit _ (by rw [h0]; omega), h0, Nat.zero_add]

theorem opEncode_loop {s : State} (hr : EncReady s) (hc : s.channels ≠ 0) (hb : s.bps ≠ 0) (hrt : s.rate ≠ 0)
    (hn : s.count ≠ 0) :
    opEncode s =
      (overBlocks opEncblk s.cfg.encAlign s.count.toNat s.channels.toNat (blockCount s.count.toNat) 0
        (((s.withBuf (Memory.clearBelow s.cfg.bufBytes s.buf)).seek 0).emit (s.soFar 0 0))).andThen
        fun _ t => .ok t.lengthInBytes t := by
  unfold opEncode
  rw [checkStream_ok hc hb hrt hn hr.capacity, Done.andThen_ok,
    opWrhdr_eq (s := s.withBuf (Memory.clearBelow s.cfg.bufBytes s.buf)) hr.inv.small hr.inv.atLeastHeader, Done.andThen_ok, State.soFar_start]
  rfl

theorem lengthInBytes_eq (s : State) : s.lengthInBytes = ceilDiv s.pos 8 := by
  have hb := s.curBit.isLt
  unfold State.lengthInBytes ceilDiv State.pos
  split
  · rename_i h; rw [h]; simp; omega
  · rename_i h
    have h0 : s.curBit.toNat ≠ 0 := toNat_ne_zero h
    omega

/-- `ENCODE` where the stream fits: `BUF` holds it, and the length is its length in bytes (R181, R185). -/
theorem opEncode_fits {s : State} (hi : s.Inv) (hc : s.channels ≠ 0) (hb : s.bps ≠ 0) (hrt : s.rate ≠ 0)
    (hn : s.count ≠ 0) (hcap : s.elements ≤ s.cfg.smpElems) (hfit : s.encodedStream.length ≤ s.bufBits) :
    ∃ t, opEncode s = .ok (ceilDiv s.encodedStream.length 8) t ∧
      EncAt s t s.encodedStream (some (blockCount s.count.toNat - 1, s.channels.toNat - 1)) := by
  have hr : EncReady s := ⟨hi, hcap⟩
  rw [State.encodedStream_eq] at hfit ⊢
  obtain ⟨t, ht, ht2⟩ := EncAt.blocks_fit hr (toNat_ne_zero hc) (b := 0) (todo := blockCount s.count.toNat)
    (encode_start hr) (by rw [Nat.zero_add]; exact hfit)
  rw [Nat.zero_add] at ht2
  have hbc := blockCount_pos (toNat_ne_zero hn)
  refine ⟨t, ?_, by simpa [recordBefore, Nat.pos_iff_ne_zero.mp hbc] using ht2⟩
  rw [opEncode_loop hr hc hb hrt hn, ht, Done.andThen_ok, lengthInBytes_eq, ht2.pos]

/-- `ENCODE` where the stream does not fit: it stops in one of the records (R181, R206). -/
theorem opEncode_overflow {s : State} (hi : s.Inv) (hc : s.channels ≠ 0) (hb : s.bps ≠ 0) (hrt : s.rate ≠ 0)
    (hn : s.count ≠ 0) (hcap : s.elements ≤ s.cfg.smpElems) (hno : s.bufBits < s.encodedStream.length) :
    ∃ b c, b < blockCount s.count.toNat ∧ c < s.channels.toNat ∧ EncFail s b c (opEncode s) := by
  have hr : EncReady s := ⟨hi, hcap⟩
  rw [State.encodedStream_eq] at hno
  have hlen : (s.soFar 0 0).length = 160 := by rw [State.soFar_start]; simp
  obtain ⟨b, c, hb', hc', hf⟩ := EncAt.blocks_overflow hr (toNat_ne_zero hc) (b := 0)
    (todo := blockCount s.count.toNat) (encode_start hr) (by have := hi.atLeastHeader; omega)
    (by rw [Nat.zero_add]; exact hno)
  rw [opEncode_loop hr hc hb hrt hn]
  exact ⟨b, c, by omega, hc', hf.andThen _⟩

/-- The stream up to the end of a record is a prefix of the whole. -/
theorem State.soFar_prefix (s : State) {b c : Nat} (hb : b < blockCount s.count.toNat) (hc : c ≤ s.channels.toNat) :
    s.soFar b c <+: s.encodedStream := by
  rw [State.encodedStream_eq]
  have h1 := s.soFar_prefix_channel b c (s.channels.toNat - c)
  have h2 := s.soFar_prefix_block (b + 1) (blockCount s.count.toNat - (b + 1))
  rw [show c + (s.channels.toNat - c) = s.channels.toNat by omega] at h1
  rw [show b + 1 + (blockCount s.count.toNat - (b + 1)) = blockCount s.count.toNat by omega, State.soFar_block] at h2
  exact (h1.trans (List.prefix_append _ _)).trans h2

end Sys2Proof.Machine
end

