-- ==== Sys2Proof/Laws/Decode.lean ====
section
/-! SUPPORT. What `DECODE` does on a stream that stands in `BUF`, or on the part of one that does (46_stream.md R182): the
state in the middle of the block loop, one block, one channel after the other, the end, and a fault on the way. -/

namespace Sys2Proof.Machine

/-! ## `SMP` after a block -/

theorem within_framesWritten {n channels ch f : Nat} {xs : List Int} {m : List (Nat × Int)}
    (hm : Memory.within 0 n m = true) (h : ∀ j, j < xs.length → (f + j) * channels + ch < n) :
    Memory.within 0 n (framesWritten channels ch f xs m) = true := by
  induction xs generalizing f m with
  | nil => exact hm
  | cons x xs ih =>
    refine ih (Memory.within_write hm (by simpa using h 0 (by simp)) x) fun j hj => ?_
    have := h (j + 1) (by simpa using hj)
    rwa [show f + 1 + j = f + (j + 1) by omega]

theorem all_framesWritten {w : SampleWidth} {channels ch f : Nat} {xs : List Int} {m : List (Nat × Int)}
    (hm : (m.all fun c => inContainer w c.2) = true) (hx : ∀ x ∈ xs, inContainer w x = true) :
    ((framesWritten channels ch f xs m).all fun c => inContainer w c.2) = true := by
  induction xs generalizing f m with
  | nil => exact hm
  | cons x xs ih => exact ih (Memory.all_write hm (hx x (by simp))) fun y hy => hx y (by simp [hy])

/-- The samples stored are those of the block's frames in the block's channel, and no other element changes. -/
theorem read_framesWritten {channels ch f : Nat} {xs : List Int} {m : List (Nat × Int)} (hm : Memory.wf 0 m = true)
    (hc : ch < channels) (idx : Nat) :
    readSample (framesWritten channels ch f xs m) idx =
      if idx % channels = ch ∧ f ≤ idx / channels ∧ idx / channels < f + xs.length then
        xs.getD (idx / channels - f) 0
      else readSample m idx := by
  have hsplit : ∀ g, idx = g * channels + ch ↔ idx / channels = g ∧ idx % channels = ch := by
    intro g
    constructor
    · rintro rfl
      rw [Nat.mul_comm, Nat.mul_add_div (by omega), Nat.mul_add_mod, Nat.div_eq_of_lt hc, Nat.mod_eq_of_lt hc]
      simp
    · rintro ⟨h1, h2⟩
      have := Nat.div_add_mod idx channels
      rw [h1, h2, Nat.mul_comm] at this
      exact this.symm
  induction xs generalizing f m with
  | nil => simp [framesWritten]
  | cons x xs ih =>
    unfold framesWritten
    rw [ih (Memory.wf_write hm _ _)]
    unfold readSample
    rw [Memory.read_write hm]
    by_cases hch : idx % channels = ch
    · by_cases hf : idx / channels = f
      · have he : idx = f * channels + ch := (hsplit f).mpr ⟨hf, hch⟩
        rw [if_neg (by omega), if_pos he, if_pos ⟨hch, by omega, by simp; omega⟩, hf]
        simp
      · have he : idx ≠ f * channels + ch := fun e => hf ((hsplit f).mp e).1
        rw [if_neg he]
        by_cases hin : f + 1 ≤ idx / channels ∧ idx / channels < f + 1 + xs.length
        · rw [if_pos ⟨hch, hin.1, hin.2⟩, if_pos ⟨hch, by omega, by simp; omega⟩,
            show idx / channels - f = (idx / channels - (f + 1)) + 1 by omega]
          simp
        · rw [if_neg (by tauto), if_neg (by simp; omega)]
    · have he : idx ≠ f * channels + ch := fun e => hch ((hsplit f).mp e).2
      rw [if_neg (by tauto), if_neg he, if_neg (by tauto)]

/-! ## The state in the loop -/

/-- The samples of block `b` of channel `c`. -/
abbrev State.samplesOf (d : State) (sample : Nat → Nat → Int) (b c : Nat) : List Int :=
  framesOfBlock d.count.toNat (fun f => sample f c) b

/-- The `K` field of the record of block `b` and channel `c`. -/
abbrev State.fieldOf (d : State) (start : Nat → Nat → Nat) (b c : Nat) : Nat := fieldAt d.buf (start b c) d.bprl

/-- What the decoder finds in `BUF` before the record of block `b` and channel `c`. -/
abbrev State.Holds (d : State) (sample : Nat → Nat → Int) (start : Nat → Nat → Nat) (b c : Nat) : Prop :=
  PayloadAt d.cfg.sampleW d.buf d.bufBits d.cfg.decAlign d.bprl d.count.toNat d.channels.toNat sample start b c

/-- What `DECODE` has checked when its block loop starts (R188), and what the invariant says. -/
structure DecReady (d : State) : Prop where
  small : d.bufBits < 2 ^ 64
  header : 160 ≤ d.bufBits
  capacity : d.elements ≤ d.cfg.smpElems
  smp : Memory.within 0 d.cfg.smpElems d.smp = true

/-- `t` is `d` inside the block loop, but for the cursor, `SMP`, `K` and `PREV`. -/
structure DecMid (d t : State) : Prop where
  cfg : t.cfg = d.cfg
  channels : t.channels = d.channels
  bps : t.bps = d.bps
  rate : t.rate = d.rate
  count : t.count = d.count
  status : t.status = d.status
  buf : t.buf = d.buf
  acc : t.acc = d.acc
  avg : t.avg = d.avg
  pending : t.pending = d.pending
  rsp : t.rsp = d.rsp

/-- `SMP` of `t` holds the samples decoded before sample `j` of block `b` and channel `c`, and else what `d` held. -/
structure DecRead (d t : State) (sample : Nat → Nat → Int) (b c j : Nat) : Prop where
  smp : Memory.within 0 d.cfg.smpElems t.smp = true
  read : ∀ i, readSample t.smp i =
    if decodedBefore d.count.toNat d.channels.toNat b c j i then sample (i / d.channels.toNat) (i % d.channels.toNat)
    else readSample d.smp i

/-- `t` is `d` inside the block loop when the record of block `b` and channel `c` comes next. -/
structure DecAt (d t : State) (sample : Nat → Nat → Int) (start : Nat → Nat → Nat) (b c : Nat) : Prop
    extends DecMid d t, DecRead d t sample b c 0 where
  pos : t.pos = start b c
  k : t.k = (recordBefore d.channels.toNat b c).elim d.k fun r => BitVec.ofNat 32 (d.fieldOf start r.1 r.2)
  prev : t.prev = (recordBefore d.channels.toNat b c).elim d.prev fun r => lastSample 0 (d.samplesOf sample r.1 r.2)

variable {d t : State} {sample : Nat → Nat → Int} {start : Nat → Nat → Nat}

theorem DecMid.bprl (h : DecMid d t) : t.bprl = d.bprl := by simp only [State.bprl, h.bps]

theorem DecMid.bufBits (h : DecMid d t) : t.bufBits = d.bufBits := by simp only [State.bufBits, h.cfg]

theorem DecReady.index (h : DecReady d) {b c j : Nat} (hj : j < blockFrames d.count.toNat b)
    (hc : c < d.channels.toNat) : (blockSize * b + j) * d.channels.toNat + c < d.cfg.smpElems := by
  have := index_lt (blockFrames_bound hj) hc
  have := h.capacity
  simp only [State.elements, blockSize] at *
  omega

/-- Before the whole of a block's channels is before the next block's first. -/
theorem decodedBefore_block (count b i : Nat) {channels : Nat} (h : channels ≠ 0) :
    decodedBefore count channels b channels 0 i ↔ decodedBefore count channels (b + 1) 0 0 i := by
  have := Nat.mod_lt i (Nat.pos_of_ne_zero h)
  omega

/-- Before the end of a block of one channel is before the next channel's block. -/
theorem decodedBefore_channel (count channels b c i : Nat) :
    decodedBefore count channels b c (blockFrames count b) i ↔ decodedBefore count channels b (c + 1) 0 i := by
  simp only [blockFrames, blockSize]
  omega

/-- The first `j` samples of a block stored in `SMP`. -/
theorem DecRead.store (hr : DecReady d) {b c j : Nat} (h : DecRead d t sample b c 0) (hc : c < d.channels.toNat)
    (hch : t.channels = d.channels) (hj : j ≤ blockFrames d.count.toNat b) (k p : Nat) :
    DecRead d (t.decoded (blockSize * b) c k p ((d.samplesOf sample b c).take j)) sample b c j := by
  have hl : ((d.samplesOf sample b c).take j).length = j := by simp; omega
  refine ⟨?_, fun i => ?_⟩
  · show Memory.within _ _ (framesWritten t.channels.toNat _ _ _ _) = true
    rw [hch]
    exact within_framesWritten h.smp fun x hx => hr.index (by omega) hc
  · show readSample (framesWritten t.channels.toNat c (512 * b) _ t.smp) i = _
    rw [hch, read_framesWritten (Memory.wf_of_within h.smp) hc, h.read, hl]
    unfold decodedBefore
    generalize i / d.channels.toNat = f
    generalize i % d.channels.toNat = r
    by_cases hin : r = c ∧ 512 * b ≤ f ∧ f < 512 * b + j
    · have hlt : f - 512 * b < j := by omega
      have hbd := blockFrames_bound (show f - 512 * b < blockFrames d.count.toNat b by omega)
      rw [if_pos hin, if_pos (by omega), hin.1]
      simp only [State.samplesOf, framesOfBlock, List.getD, List.getElem?_take_of_lt hlt, List.getElem?_map,
        List.getElem?_range (show f - 512 * b < blockFrames d.count.toNat b by omega), blockSize, Option.map_some,
        Option.getD_some]
      rw [show 512 * b + (f - 512 * b) = f by omega]
    · rw [if_neg hin]
      congr 1
      rw [eq_iff_iff]
      omega

/-- One block command over a record that stands at the cursor. -/
theorem DecAt.decblk (hr : DecReady d) {b c : Nat} (h : DecAt d t sample start b c) (hc : c < d.channels.toNat)
    (hrec : RecordAt d.cfg.sampleW d.buf d.bufBits d.bprl (start b c) (d.samplesOf sample b c) (start b (c + 1))) :
    ∃ u, opDecblk (blockSize * b) (blockFrames d.count.toNat b) c t = .ok (d.fieldOf start b c) u ∧
      DecAt d u sample start b (c + 1) := by
  have hsm := hr.small
  have hl : (d.samplesOf sample b c).length = blockFrames d.count.toNat b := by simp
  have hend := hrec.2.bounds hrec.1
  have hdec := opDecblk_ok (s := t) (frame0 := blockSize * b) (ch := c) (e := start b (c + 1))
    (xs := d.samplesOf sample b c) (by rw [h.bufBits]; exact hsm) (by rw [hl]; exact blockFrames_le _ _)
    (by rw [h.channels]; exact hc)
    (by intro j hj; rw [hl] at hj; simp only [State.smpIndex, h.channels, h.cfg]; exact hr.index hj hc)
    (by rw [h.cfg, h.buf, h.bufBits, h.bprl, h.pos]; exact hrec)
  rw [hl, h.buf, h.bprl, h.pos] at hdec
  refine ⟨_, hdec, ?_⟩
  have hst := DecRead.store hr h.toDecRead hc h.channels (Nat.le_refl _) (d.fieldOf start b c) (start b (c + 1))
  rw [List.take_of_length_le (by rw [hl])] at hst
  refine ⟨⟨h.cfg, h.channels, h.bps, h.rate, h.count, h.status, h.buf, h.acc, h.avg, h.pending, h.rsp⟩,
    ⟨hst.smp, fun i => ?_⟩, t.pos_seek (by omega), rfl, rfl⟩
  rw [hst.read]
  simp only [decodedBefore_channel]

/-- Some channels of a block, whose records stand there. -/
theorem DecAt.channels_run (hr : DecReady d) {b c todo : Nat} (h : DecAt d t sample start b c)
    (hc : c + todo ≤ d.channels.toNat)
    (hrec : ∀ c', c ≤ c' → c' < c + todo →
      RecordAt d.cfg.sampleW d.buf d.bufBits d.bprl (start b c') (d.samplesOf sample b c') (start b (c' + 1))) :
    ∃ u, (∀ rest, overChannels (opDecblk (blockSize * b) (blockFrames d.count.toNat b)) (todo + rest) c t =
        overChannels (opDecblk (blockSize * b) (blockFrames d.count.toNat b)) rest (c + todo) u) ∧
      DecAt d u sample start b (c + todo) := by
  induction todo generalizing c t with
  | zero => exact ⟨t, fun rest => by rw [Nat.zero_add]; rfl, h⟩
  | succ todo ih =>
    obtain ⟨u, hu, hu2⟩ := h.decblk hr (by omega) (hrec c (by omega) (by omega))
    obtain ⟨v, hv, hv2⟩ := ih hu2 (by omega) fun c' h1 h2 => hrec c' (by omega) (by omega)
    rw [show c + (todo + 1) = c + 1 + todo by omega]
    refine ⟨v, fun rest => ?_, hv2⟩
    rw [Nat.add_right_comm, ← hv rest]
    conv_lhs => unfold overChannels
    rw [hu, Done.andThen_ok]

/-- The padding after a block (R184). -/
theorem DecAt.align (hr : DecReady d) (hch : d.channels.toNat ≠ 0) {b : Nat}
    (h : DecAt d t sample start b d.channels.toNat) (hend : start b d.channels.toNat ≤ d.bufBits)
    (hnext : start (b + 1) 0 = afterBlock d.cfg.decAlign (start b d.channels.toNat)) :
    ∃ u, (if d.cfg.decAlign then opAlign t else .ok () t) = .ok () u ∧ DecAt d u sample start (b + 1) 0 := by
  have hsm := hr.small
  have hread := fun i => h.read i
  simp only [decodedBefore_block _ _ _ hch] at hread
  have hk := h.k
  have hprev := h.prev
  rw [← recordBefore_block hch] at hk hprev
  have hmid := h.toDecMid
  unfold afterBlock at hnext
  cases ha : d.cfg.decAlign with
  | false =>
    rw [ha] at hnext
    exact ⟨t, rfl, hmid, ⟨h.smp, hread⟩, h.pos.trans hnext.symm, hk, hprev⟩
  | true =>
    rw [ha, if_pos rfl] at hnext
    simp only [if_true]
    rw [opAlign_eq]
    refine ⟨_, rfl, ⟨h.cfg, h.channels, h.bps, h.rate, h.count, h.status, h.buf, h.acc, h.avg, h.pending, h.rsp⟩,
      ⟨h.smp, hread⟩, ?_, hk, hprev⟩
    rw [t.pos_advance (by rw [h.pos]; omega), h.pos, hnext]

/-- Some blocks, whose records stand there. -/
theorem DecAt.blocks_run (hr : DecReady d) (hch : d.channels.toNat ≠ 0) {b todo : Nat}
    (h : DecAt d t sample start b 0) (hp : d.Holds sample start (b + todo) 0) :
    ∃ u, (∀ rest, overBlocks opDecblk d.cfg.decAlign d.count.toNat d.channels.toNat (todo + rest) b t =
        overBlocks opDecblk d.cfg.decAlign d.count.toNat d.channels.toNat rest (b + todo) u) ∧
      DecAt d u sample start (b + todo) 0 := by
  induction todo generalizing b t with
  | zero => exact ⟨t, fun rest => by rw [Nat.zero_add]; rfl, h⟩
  | succ todo ih =>
    have hrec := fun c' hc' => hp.2.1 b c' hc' (.inl (by omega))
    obtain ⟨u, hu, hu2⟩ := h.channels_run hr (todo := d.channels.toNat) (by omega) fun c' _ h2 => hrec c' (by omega)
    rw [Nat.zero_add] at hu2
    have hlast := hrec (d.channels.toNat - 1) (by omega)
    rw [Nat.sub_add_cancel (Nat.pos_of_ne_zero hch)] at hlast
    obtain ⟨v, hv, hv2⟩ := hu2.align hr hch (hlast.2.bounds hlast.1).2 (hp.2.2 b (by omega))
    rw [show b + (todo + 1) = b + 1 + todo by omega] at hp ⊢
    obtain ⟨w, hw, hw2⟩ := ih hv2 hp
    refine ⟨w, fun rest => ?_, hw2⟩
    have hu0 := hu 0
    rw [Nat.add_zero] at hu0
    rw [Nat.add_right_comm, ← hw rest]
    conv_lhs => unfold overBlocks
    rw [hu0]
    show ((if d.cfg.decAlign then opAlign u else .ok () u).andThen _) = _
    rw [hv, Done.andThen_ok]

/-- The state in which the block loop starts. -/
theorem DecReady.entry (hr : DecReady d) (hpos : d.pos = 160) (h0 : start 0 0 = 160) : DecAt d d sample start 0 0 := by
  refine ⟨⟨rfl, rfl, rfl, rfl, rfl, rfl, rfl, rfl, rfl, rfl, rfl⟩, ⟨hr.smp, fun i => ?_⟩, hpos.trans h0.symm, rfl, rfl⟩
  rw [if_neg (by simp [decodedBefore])]

/-- The block loop of `DECODE` on a payload that stands in `BUF`. -/
theorem decode_loop (hr : DecReady d) (hch : d.channels.toNat ≠ 0) (hpos : d.pos = 160)
    (hp : d.Holds sample start (blockCount d.count.toNat) 0) :
    ∃ u, overBlocks opDecblk d.cfg.decAlign d.count.toNat d.channels.toNat (blockCount d.count.toNat) 0 d = .ok () u ∧
      DecAt d u sample start (blockCount d.count.toNat) 0 := by
  obtain ⟨u, hu, hu2⟩ := (hr.entry (sample := sample) hpos hp.1).blocks_run hr hch (b := 0)
    (todo := blockCount d.count.toNat) (by rw [Nat.zero_add]; exact hp)
  rw [Nat.zero_add] at hu2
  exact ⟨u, hu 0, hu2⟩

/-- The block loop of `DECODE` up to the record of block `b` and channel `c`, whose block command faults. -/
theorem decode_loop_fault (hr : DecReady d) (hpos : d.pos = 160) {b c : Nat} (hb : b < blockCount d.count.toNat)
    (hc : c < d.channels.toNat) (hp : d.Holds sample start b c) :
    ∃ t, DecAt d t sample start b c ∧ ∀ (cause : Cause) (info : Word) (u : State),
      opDecblk (blockSize * b) (blockFrames d.count.toNat b) c t = .raised cause info u →
      overBlocks opDecblk d.cfg.decAlign d.count.toNat d.channels.toNat (blockCount d.count.toNat) 0 d =
        .raised cause info u := by
  obtain ⟨u, hu, hu2⟩ := (hr.entry (sample := sample) hpos hp.1).blocks_run hr (by omega) (b := 0) (todo := b)
    ⟨hp.1, fun b' c' h1 h2 => hp.2.1 b' c' h1 (by omega), fun b' h1 => hp.2.2 b' (by omega)⟩
  rw [Nat.zero_add] at hu2
  obtain ⟨v, hv, hv2⟩ := hu2.channels_run hr (todo := c) (by omega)
    fun c' _ h2 => hp.2.1 b c' (by omega) (.inr ⟨rfl, by omega⟩)
  rw [Nat.zero_add] at hv2
  refine ⟨v, hv2, fun cause info w hw => ?_⟩
  have h1 := hu (blockCount d.count.toNat - b - 1 + 1)
  have h2 := hv (d.channels.toNat - c - 1 + 1)
  rw [show b + (blockCount d.count.toNat - b - 1 + 1) = blockCount d.count.toNat by omega, Nat.zero_add] at h1
  rw [show c + (d.channels.toNat - c - 1 + 1) = d.channels.toNat by omega, Nat.zero_add] at h2
  rw [h1]
  unfold overBlocks
  rw [h2]
  unfold overChannels
  rw [hw]
  rfl

/-- The record where the block command faults: nothing is decoded of it where its `K` field does not fit. -/
theorem DecAt.field_fault (hr : DecReady d) {b c : Nat} (h : DecAt d t sample start b c) (hc : c < d.channels.toNat)
    (hno : d.bufBits < start b c + d.bprl) :
    opDecblk (blockSize * b) (blockFrames d.count.toNat b) c t = .raised .bufBounds (word (start b c)) t := by
  rw [opDecblk_loop (blockFrames_le _ _) (by rw [h.channels]; exact hc)
    (by intro j hj; simp only [State.smpIndex, h.channels, h.cfg]; exact hr.index hj hc),
    if_neg (by rw [h.pos, h.bprl, h.bufBits]; omega), h.pos]

/-- The record where the block command faults: its first `j` samples are decoded. -/
theorem DecAt.sample_fault (hr : DecReady d) {b c j e stop : Nat} {cause : Cause} {info : Word}
    (h : DecAt d t sample start b c) (hc : c < d.channels.toNat) (hj : j < blockFrames d.count.toNat b)
    (hrec : RecordAt d.cfg.sampleW d.buf d.bufBits d.bprl (start b c) ((d.samplesOf sample b c).take j) e)
    (hf : CodewordFault d.cfg.sampleW d.buf d.bufBits (d.fieldOf start b c) e
      (lastSample 0 ((d.samplesOf sample b c).take j)) cause info stop) :
    opDecblk (blockSize * b) (blockFrames d.count.toNat b) c t =
        .raised cause info
          (t.decoded (blockSize * b) c (d.fieldOf start b c) stop ((d.samplesOf sample b c).take j)) ∧
      DecRead d (t.decoded (blockSize * b) c (d.fieldOf start b c) stop ((d.samplesOf sample b c).take j)) sample b c
        j := by
  have := opDecblk_fault (s := t) (frame0 := blockSize * b) (n := blockFrames d.count.toNat b) (ch := c) (e := e)
    (stop := stop) (xs := (d.samplesOf sample b c).take j) (c := cause) (info := info) (by rw [h.bufBits]; exact hr.small)
    (blockFrames_le _ _) (by rw [h.channels]; exact hc)
    (by intro i hi; simp only [State.smpIndex, h.channels, h.cfg]; exact hr.index hi hc)
    (by rw [List.length_take]; omega)
    (by rw [h.cfg, h.buf, h.bufBits, h.bprl, h.pos]; exact hrec)
    (by rw [h.cfg, h.buf, h.bufBits, h.bprl, h.pos]; exact hf)
  rw [h.buf, h.bprl, h.pos] at this
  exact ⟨this, DecRead.store hr h.toDecRead hc h.channels (by omega) _ _⟩

/-! ## A stream as an encoder writes it -/

/-- The padding is the one a decoder skips. -/
theorem afterBlock_eq (align : Bool) (n : Nat) :
    afterBlock align (160 + n) = 160 + n + (paddingBits align n).length := by
  unfold afterBlock paddingBits
  cases align
  · simp
  · simp only [if_true, List.length_replicate]; omega

/-- The payload up to channel `c` of block `b`. -/
def payloadSoFar (align : Bool) (bprl channels : Nat) (k : Nat → Nat → Nat) (xs : Nat → Nat → List Int) (b c : Nat) :
    List Bool :=
  payloadBits align bprl channels k xs b ++ blockBits bprl c (k b) (xs b)

section

variable (align : Bool) (bprl channels : Nat) (k : Nat → Nat → Nat) (xs : Nat → Nat → List Int)

theorem payloadSoFar_zero (b : Nat) :
    payloadSoFar align bprl channels k xs b 0 = payloadBits align bprl channels k xs b := by
  simp [payloadSoFar, blockBits]

theorem payloadSoFar_channel (b c : Nat) :
    payloadSoFar align bprl channels k xs b (c + 1) =
      payloadSoFar align bprl channels k xs b c ++ recordBits bprl (k b c) (xs b c) := by
  simp [payloadSoFar, blockBits, List.range_succ, List.flatMap_append]

theorem payloadSoFar_block (b : Nat) :
    payloadSoFar align bprl channels k xs (b + 1) 0 =
      payloadSoFar align bprl channels k xs b channels ++
        paddingBits align (payloadSoFar align bprl channels k xs b channels).length := by
  rw [payloadSoFar_zero]
  rfl

theorem payloadSoFar_prefix_channel (b c i : Nat) :
    payloadSoFar align bprl channels k xs b c <+: payloadSoFar align bprl channels k xs b (c + i) := by
  induction i with
  | zero => exact List.prefix_rfl
  | succ i ih => rw [← Nat.add_assoc, payloadSoFar_channel]; exact ih.trans (List.prefix_append _ _)

theorem payloadSoFar_prefix_next (b : Nat) :
    payloadSoFar align bprl channels k xs b channels <+: payloadSoFar align bprl channels k xs (b + 1) 0 := by
  rw [payloadSoFar_block]; exact List.prefix_append _ _

theorem payloadSoFar_prefix_block (b i : Nat) :
    payloadSoFar align bprl channels k xs b 0 <+: payloadSoFar align bprl channels k xs (b + i) 0 := by
  induction i with
  | zero => exact List.prefix_rfl
  | succ i ih =>
    have h := payloadSoFar_prefix_channel align bprl channels k xs (b + i) 0 channels
    rw [Nat.zero_add] at h
    exact (ih.trans h).trans (payloadSoFar_prefix_next align bprl channels k xs (b + i))

end

/-- Bits that stand at a position stand there when only a prefix of them is looked at. -/
theorem bitsAt_prefix {m : List Host.Cell} {p : Nat} {a b : List Bool} (h : bitsAt m p b.length = b) (hp : a <+: b) :
    bitsAt m p a.length = a := by
  obtain ⟨c, rfl⟩ := hp
  exact (bitsAt_append.mp h).1

/-- Where the record of block `b` and channel `c` starts in a stream that an encoder wrote. -/
def encodedStart (align : Bool) (bprl channels : Nat) (k : Nat → Nat → Nat) (xs : Nat → Nat → List Int) (b c : Nat) :
    Nat :=
  160 + (payloadSoFar align bprl channels k xs b c).length

/-- The bits an encoder writes after the header are a payload of the samples, with its parameters in the `K` fields. -/
theorem payloadAt_of_bits {w : SampleWidth} {m : List Host.Cell} {limit : Nat} {align : Bool}
    {bprl count channels nb : Nat} {k : Nat → Nat → Nat} {sample : Nat → Nat → Int} {xs : Nat → Nat → List Int}
    (hxs : xs = fun b c => framesOfBlock count (fun f => sample f c) b)
    (hx : ∀ f c, c < channels → f < count → inContainer w (sample f c) = true)
    (hk : ∀ b c, b < nb → c < channels → k b c < 2 ^ bprl ∧ k b c ≤ 64)
    (hfit : 160 + (payloadBits align bprl channels k xs nb).length ≤ limit)
    (hbits : bitsAt m 160 (payloadBits align bprl channels k xs nb).length = payloadBits align bprl channels k xs nb) :
    PayloadAt w m limit align bprl count channels sample (encodedStart align bprl channels k xs) nb 0 ∧
      ∀ b c, b < nb → c < channels → fieldAt m (encodedStart align bprl channels k xs b c) bprl = k b c := by
  have hrec : ∀ b c, b < nb → c < channels →
      fieldAt m (encodedStart align bprl channels k xs b c) bprl = k b c ∧
        RecordAt w m limit bprl (encodedStart align bprl channels k xs b c) (xs b c)
          (encodedStart align bprl channels k xs b (c + 1)) := by
    intro b c hb hc
    have h1 := payloadSoFar_prefix_channel align bprl channels k xs b (c + 1) (channels - (c + 1))
    have h2 := payloadSoFar_prefix_next align bprl channels k xs b
    have h3 := payloadSoFar_prefix_block align bprl channels k xs (b + 1) (nb - (b + 1))
    rw [show c + 1 + (channels - (c + 1)) = channels by omega] at h1
    rw [show b + 1 + (nb - (b + 1)) = nb by omega, payloadSoFar_zero (b := nb)] at h3
    have hp := (h1.trans h2).trans h3
    have hl := hp.length_le
    have hb' := bitsAt_prefix hbits hp
    rw [payloadSoFar_channel, bitsAt_append] at hb'
    rw [payloadSoFar_channel, List.length_append] at hl
    have hmem : ∀ x ∈ xs b c, inContainer w x = true := by
      intro x hx'
      simp only [hxs, framesOfBlock, List.mem_map, List.mem_range] at hx'
      obtain ⟨i, hi, rfl⟩ := hx'
      exact hx _ _ hc (blockFrames_bound hi)
    have := recordAt_of_bits (w := w) (limit := limit) (hk b c hb hc).2 (hk b c hb hc).1 hmem (by omega) hb'.2
    unfold encodedStart
    rw [payloadSoFar_channel, List.length_append, ← Nat.add_assoc]
    exact this
  refine ⟨⟨by simp [encodedStart, payloadSoFar_zero, payloadBits], fun b c hc hlt => ?_, fun b hb => ?_⟩,
    fun b c hb hc => (hrec b c hb hc).1⟩
  · have := (hrec b c (by omega) hc).2
    rwa [hxs] at this ⊢
  · unfold encodedStart
    rw [payloadSoFar_block, List.length_append, afterBlock_eq, Nat.add_assoc]

/-- The state after `RDHDR` recognised a header with these fields. -/
def State.afterHeader (s : State) (count channels bps rate : Nat) : State :=
  ((s.seek 160).withParams count channels bps rate).withStatus (setHdrOk true s.status)

theorem State.afterHeader_pos (s : State) (count channels bps rate : Nat) :
    (s.afterHeader count channels bps rate).pos = 160 :=
  State.pos_seek s (by omega)

/-- The registers after `RDHDR` are the fields of the header. -/
theorem State.afterHeader_params (s : State) {count channels bps rate : Nat} (hn : count < 2 ^ 64)
    (hc : channels < 2 ^ 16) (hb : bps < 2 ^ 16) (hr : rate < 2 ^ 32) :
    (s.afterHeader count channels bps rate).count.toNat = count ∧
      (s.afterHeader count channels bps rate).channels.toNat = channels ∧
      (s.afterHeader count channels bps rate).bps.toNat = bps ∧
      (s.afterHeader count channels bps rate).rate.toNat = rate := by
  simp [State.afterHeader]
  omega

/-- `DECODE` up to its block loop, on a header that stands in `BUF`. -/
theorem opDecode_start {s : State} (hs : s.bufBits < 2 ^ 64) (h20 : 160 ≤ s.bufBits) {count channels bps rate : Nat}
    (hm : fieldAt s.buf 0 32 = magic) (e1 : fieldAt s.buf 32 64 = count) (e2 : fieldAt s.buf 96 16 = channels)
    (e3 : fieldAt s.buf 112 16 = bps) (e4 : fieldAt s.buf 128 32 = rate) (hn0 : count ≠ 0) (hc0 : channels ≠ 0)
    (hb0 : bps ≠ 0) (hr0 : rate ≠ 0) (hcap : count * channels ≤ s.cfg.smpElems) :
    opDecode s =
      (overBlocks opDecblk s.cfg.decAlign count channels (blockCount count) 0
        (s.afterHeader count channels bps rate)).andThen fun _ t => .ok t.elements t := by
  obtain ⟨p1, p2, p3, p4⟩ := s.afterHeader_params (e1 ▸ fieldAt_lt _ _ _) (e2 ▸ fieldAt_lt _ _ _)
    (e3 ▸ fieldAt_lt _ _ _) (e4 ▸ fieldAt_lt _ _ _)
  have nz : ∀ {n : Nat} {v : BitVec n} {x : Nat}, v.toNat = x → x ≠ 0 → v ≠ 0 := by
    rintro n v x h hx rfl; simp at h; omega
  unfold opDecode
  rw [opRdhdr_eq hs h20, if_pos hm, e1, e2, e3, e4, Done.andThen_ok, if_pos rfl]
  show (checkStream (s.afterHeader count channels bps rate)).andThen _ = _
  rw [checkStream_ok (nz p2 hc0) (nz p3 hb0) (nz p4 hr0) (nz p1 hn0)
    (by simp only [State.elements, p1, p2]; exact hcap), Done.andThen_ok, p1, p2]
  rfl

end Sys2Proof.Machine
end

