-- ==== Sys2Proof/Laws/Encoding.lean ====
section
/-! SUPPORT. Each field of a packed command word is the field that was packed (30_encoding.md R70). -/

namespace Sys2Proof

variable (op : Opcode) (a0 a1 a2 : Word)

@[simp] theorem opField_packFields : opField (packFields op a0 a1 a2) = op := by
  unfold opField packFields
  ext i hi
  simp [show i < 200 by omega, show i < 8 by omega, show i < 72 by omega, show i < 136 by omega]

@[simp] theorem a0Field_packFields : a0Field (packFields op a0 a1 a2) = a0 := by
  unfold a0Field packFields
  ext i hi
  simp [hi, show 8 + i < 200 by omega, show 8 + i < 72 by omega, show 8 + i < 136 by omega]

@[simp] theorem a1Field_packFields : a1Field (packFields op a0 a1 a2) = a1 := by
  unfold a1Field packFields
  ext i hi
  have h0 : op.getLsbD (72 + i) = false := BitVec.getLsbD_of_ge _ _ (by omega)
  have h1 : a0.getLsbD (72 + i - 8) = false := BitVec.getLsbD_of_ge _ _ (by omega)
  simp [hi, h0, h1, show 72 + i < 200 by omega, show 72 + i < 136 by omega]

@[simp] theorem a2Field_packFields : a2Field (packFields op a0 a1 a2) = a2 := by
  unfold a2Field packFields
  ext i hi
  have h0 : op.getLsbD (136 + i) = false := BitVec.getLsbD_of_ge _ _ (by omega)
  have h1 : a0.getLsbD (136 + i - 8) = false := BitVec.getLsbD_of_ge _ _ (by omega)
  have h2 : a1.getLsbD (136 + i - 72) = false := BitVec.getLsbD_of_ge _ _ (by omega)
  simp [hi, h0, h1, h2, show 136 + i < 200 by omega]

end Sys2Proof
end

