-- ==== Sys2Proof/Laws/Frame.lean ====
section
/-! SUPPORT. Frames of the bodies, for every state: a property of states that the named updates of a body keep is kept
by the body, however it ends. A frame lemma for one field is the instance of this where the property says that the field
has a certain value. -/

namespace Sys2Proof.Machine

variable {P : State → Prop} {α β : Type} {s : State}

theorem Done.keeps_andThen {d : Done α} {f : α → State → Done β} (h : P d.state)
    (hf : ∀ a t, P t → P (f a t).state) : P (d.andThen f).state := by
  cases d with
  | ok a t => exact hf a t h
  | raised c i t => exact h

theorem opEstimate_keeps (hest : ∀ t a b c, P t → P (t.withEstimate a b c)) (frame0 n ch : Nat) (h : P s) :
    P (opEstimate frame0 n ch s).state := by
  unfold opEstimate; split
  · split
    · split
      · exact h
      · exact hest _ _ _ _ h
    · exact h
  · exact h

section Cursor

variable (hseek : ∀ t p, P t → P (t.seek p))

include hseek

theorem takeBits_keeps (w : Nat) (h : P s) : P (takeBits w s).state := by
  unfold takeBits; split
  · exact hseek _ _ h
  · exact h

theorem opRduint_keeps (w : Nat) (h : P s) : P (opRduint w s).state := by
  unfold opRduint; split
  · exact takeBits_keeps hseek w h
  · exact h

theorem opRdunary_keeps (h : P s) : P (opRdunary s).state := by
  unfold opRdunary; split
  · exact hseek _ _ h
  · exact h

theorem opSetpos_keeps (a b : Nat) (h : P s) : P (opSetpos a b s).state := by
  unfold opSetpos; split
  · split
    · exact hseek _ _ h
    · exact h
  · exact h

theorem opAlign_keeps (h : P s) : P (opAlign s).state := by
  unfold opAlign; split
  · exact h
  · exact hseek _ _ h

theorem readCodeword_keeps (k : Nat) (h : P s) : P (readCodeword k s).state := by
  unfold readCodeword
  refine Done.keeps_andThen (takeBits_keeps hseek 1 h) fun sg t ht => ?_
  refine Done.keeps_andThen (opRdunary_keeps hseek ht) fun q u hu => ?_
  refine Done.keeps_andThen (opRduint_keeps hseek k hu) fun r v hv => ?_
  simp only
  split <;> exact hv

theorem opRdec_keeps (h : P s) : P (opRdec s).state := by
  unfold opRdec; split
  · have := readCodeword_keeps hseek s.k.toNat h
    split
    · rename_i heq; rw [heq] at this; exact this
    · rename_i heq; rw [heq] at this; exact hseek _ _ this
  · exact h

theorem opRdk_keeps (hk : ∀ t v, P t → P (t.withK v)) (h : P s) : P (opRdk s).state :=
  Done.keeps_andThen (opRduint_keeps hseek _ h) fun _ _ ht => hk _ _ ht

theorem opRdhdr_keeps (hparams : ∀ t a b c d, P t → P (t.withParams a b c d))
    (hstatus : ∀ t b, P t → P (t.withStatus (setHdrOk b t.status))) (h : P s) : P (opRdhdr s).state := by
  unfold opRdhdr
  refine Done.keeps_andThen (opRduint_keeps hseek _ (hseek _ _ h)) fun m t ht => ?_
  split
  · refine Done.keeps_andThen ?_ fun _ u hu => hstatus _ _ hu
    unfold loadParams
    refine Done.keeps_andThen (opRduint_keeps hseek _ ht) fun a t ht => ?_
    refine Done.keeps_andThen (opRduint_keeps hseek _ ht) fun b t ht => ?_
    refine Done.keeps_andThen (opRduint_keeps hseek _ ht) fun c t ht => ?_
    exact Done.keeps_andThen (opRduint_keeps hseek _ ht) fun d t ht => hparams _ _ _ _ _ ht
  · exact hstatus _ _ ht

theorem decSamples_keeps (hprev : ∀ t x, P t → P (t.withPrev x)) (hsmp : ∀ t m, P t → P (t.withSmp m))
    (frame0 ch n i : Nat) (h : P s) : P (decSamples frame0 ch n i s).state := by
  induction n generalizing s i with
  | zero => exact h
  | succ n ih =>
    refine Done.keeps_andThen (opRdec_keeps hseek h) fun d t ht => ?_
    refine Done.keeps_andThen ?_ fun x u hu => ih _ (hsmp _ _ hu)
    unfold opPrddec; split
    · exact hprev _ _ ht
    · exact ht

theorem opDecblk_keeps (hk : ∀ t v, P t → P (t.withK v)) (hprev : ∀ t x, P t → P (t.withPrev x))
    (hsmp : ∀ t m, P t → P (t.withSmp m)) (frame0 n ch : Nat) (h : P s) : P (opDecblk frame0 n ch s).state := by
  unfold opDecblk; split
  · split
    · split
      · exact h
      · refine Done.keeps_andThen (opRdk_keeps hseek hk h) fun _ t ht => ?_
        refine Done.keeps_andThen (d := .ok () _) (hprev _ 0 ht) fun _ u hu => ?_
        exact Done.keeps_andThen (decSamples_keeps hseek hprev hsmp _ _ _ _ hu) fun _ _ hv => hv
    · exact h
  · exact h

end Cursor

section Writes

variable (hseek : ∀ t p, P t → P (t.seek p)) (hbuf : ∀ t m, P t → P (t.withBuf m))

include hseek hbuf

theorem putBits_keeps (w : Nat) (f : Nat → Bool) (h : P s) : P (putBits w f s).state := by
  unfold putBits; split
  · exact hseek _ _ (hbuf _ _ h)
  · exact h

theorem opWruint_keeps (w v : Nat) (h : P s) : P (opWruint w v s).state := by
  unfold opWruint; split
  · exact putBits_keeps hseek hbuf _ _ h
  · exact h

theorem opWrbit_keeps (v : Nat) (h : P s) : P (opWrbit v s).state := by
  unfold opWrbit; split
  · exact putBits_keeps hseek hbuf _ _ h
  · exact h

theorem opWrones_keeps (n : Nat) (h : P s) : P (opWrones n s).state := putBits_keeps hseek hbuf _ _ h

theorem opWrk_keeps (h : P s) : P (opWrk s).state := opWruint_keeps hseek hbuf _ _ h

theorem opWrhdr_keeps (h : P s) : P (opWrhdr s).state := by
  unfold opWrhdr
  refine Done.keeps_andThen (opWruint_keeps hseek hbuf _ _ (hseek _ _ h)) fun _ t ht => ?_
  refine Done.keeps_andThen (opWruint_keeps hseek hbuf _ _ ht) fun _ t ht => ?_
  refine Done.keeps_andThen (opWruint_keeps hseek hbuf _ _ ht) fun _ t ht => ?_
  exact Done.keeps_andThen (opWruint_keeps hseek hbuf _ _ ht) fun _ t ht => opWruint_keeps hseek hbuf _ _ ht

theorem opRenc_keeps (d : Word) (h : P s) : P (opRenc d s).state := by
  unfold opRenc
  simp only
  split
  · exact h
  · split
    · split
      · refine Done.keeps_andThen (opWrbit_keeps hseek hbuf _ h) fun _ t ht => ?_
        refine Done.keeps_andThen (opWrones_keeps hseek hbuf _ ht) fun _ t ht => ?_
        refine Done.keeps_andThen (opWrbit_keeps hseek hbuf _ ht) fun _ t ht => ?_
        exact Done.keeps_andThen (opWruint_keeps hseek hbuf _ _ ht) fun _ t ht => ht
      · exact h
    · exact h

theorem encSamples_keeps (hprev : ∀ t x, P t → P (t.withPrev x)) (xs : List Int) (h : P s) :
    P (encSamples xs s).state := by
  induction xs generalizing s with
  | nil => exact h
  | cons x xs ih => exact Done.keeps_andThen (opRenc_keeps hseek hbuf _ h) fun _ t ht => ih (hprev _ _ ht)

theorem opEncblk_keeps (hest : ∀ t a b c, P t → P (t.withEstimate a b c)) (hprev : ∀ t x, P t → P (t.withPrev x))
    (frame0 n ch : Nat) (h : P s) : P (opEncblk frame0 n ch s).state := by
  unfold opEncblk; split
  · split
    · refine Done.keeps_andThen (opEstimate_keeps hest _ _ _ h) fun _ t ht => ?_
      refine Done.keeps_andThen (opWrk_keeps hseek hbuf ht) fun _ u hu => ?_
      refine Done.keeps_andThen (d := .ok () _) (hprev _ 0 hu) fun _ v hv => ?_
      exact Done.keeps_andThen (encSamples_keeps hseek hbuf hprev _ hv) fun _ _ hw => hw
    · exact h
  · exact h

end Writes

theorem overChannels_keeps {cmd : Nat → State → Done Nat} (hcmd : ∀ c t, P t → P (cmd c t).state) (todo c : Nat)
    (h : P s) : P (overChannels cmd todo c s).state := by
  induction todo generalizing s c with
  | zero => exact h
  | succ todo ih => exact Done.keeps_andThen (hcmd _ _ h) fun _ t ht => ih _ ht

theorem overBlocks_keeps {cmd : Nat → Nat → Nat → State → Done Nat} (hseek : ∀ t p, P t → P (t.seek p))
    (hcmd : ∀ f n c t, P t → P (cmd f n c t).state) (align : Bool) (count channels todo b : Nat) (h : P s) :
    P (overBlocks cmd align count channels todo b s).state := by
  induction todo generalizing s b with
  | zero => exact h
  | succ todo ih =>
    refine Done.keeps_andThen (overChannels_keeps (hcmd _ _) _ _ h) fun _ t ht => ?_
    refine Done.keeps_andThen ?_ fun _ u hu => ih _ hu
    split
    · exact opAlign_keeps hseek ht
    · exact ht

theorem checkStream_keeps (h : P s) : P (checkStream s).state := by
  unfold checkStream; split
  · exact h
  · split <;> exact h

theorem opEncode_keeps (hseek : ∀ t p, P t → P (t.seek p)) (hbuf : ∀ t m, P t → P (t.withBuf m))
    (hest : ∀ t a b c, P t → P (t.withEstimate a b c)) (hprev : ∀ t x, P t → P (t.withPrev x)) (h : P s) :
    P (opEncode s).state := by
  refine Done.keeps_andThen (checkStream_keeps h) fun _ t ht => ?_
  refine Done.keeps_andThen (opWrhdr_keeps hseek hbuf (hbuf _ _ ht)) fun _ u hu => ?_
  exact Done.keeps_andThen (overBlocks_keeps hseek (fun _ _ _ _ h => opEncblk_keeps hseek hbuf hest hprev _ _ _ h)
    _ _ _ _ _ hu) fun _ _ hv => hv

theorem opDecode_keeps (hseek : ∀ t p, P t → P (t.seek p)) (hk : ∀ t v, P t → P (t.withK v))
    (hprev : ∀ t x, P t → P (t.withPrev x)) (hsmp : ∀ t m, P t → P (t.withSmp m))
    (hparams : ∀ t a b c d, P t → P (t.withParams a b c d))
    (hstatus : ∀ t b, P t → P (t.withStatus (setHdrOk b t.status))) (h : P s) : P (opDecode s).state := by
  refine Done.keeps_andThen (opRdhdr_keeps hseek hparams hstatus h) fun r t ht => ?_
  split
  · refine Done.keeps_andThen (checkStream_keeps ht) fun _ u hu => ?_
    exact Done.keeps_andThen (overBlocks_keeps hseek (fun _ _ _ _ h => opDecblk_keeps hseek hk hprev hsmp _ _ _ h)
      _ _ _ _ _ hu) fun _ _ hv => hv
  · exact ht

theorem opWrreg_keeps (hk : ∀ t v, P t → P { t with k := v }) (hprev : ∀ t v, P t → P { t with prev := v })
    (hparams : ∀ t a b c d, P t → P { t with channels := a, bps := b, rate := c, count := d }) (reg value : Word)
    (h : P s) : P (opWrreg reg value s).state := by
  unfold opWrreg; split
  · exact h
  · rename_i r _
    split
    · split
      · cases r <;> first | exact h | exact hk _ _ h | exact hprev _ _ h | exact hparams _ _ _ _ _ h
      · exact h
    · exact h

/-! ## The whole command -/

theorem logFault_hdrOk (c : Cause) (st : Status) : (logFault c st).hdrOk = st.hdrOk := by unfold logFault; split <;> rfl

/-- The two ways a command ends: with results, or with a fault. -/
def Ends (o : Host.Outcome State Fault Refusal) (P : State → Prop) : Prop :=
  ∃ u, P u ∧ ((∃ r0 r1, o = .next (u.answered (okResponse r0 r1))) ∨ ∃ c info, o = .next (u.faulted c info))

theorem respond_ends {r0 r1 : α → Word} {d : Done α} (h : P d.state) : Ends (respond r0 r1 d) P := by
  cases d with
  | ok a u => exact ⟨u, h, .inl ⟨_, _, rfl⟩⟩
  | raised c i u => exact ⟨u, h, .inr ⟨_, _, rfl⟩⟩

/-- Every command ends so, in a state that has every property that the updates of the command's targets keep. -/
theorem exec_ends (i : Instr)
    (hseek : .cursor ∈ writes i → ∀ t p, P t → P (t.seek p))
    (hk : .k ∈ writes i → ∀ t v, P t → P { t with k := v })
    (hprev : .prev ∈ writes i → ∀ t v, P t → P { t with prev := v })
    (hest : .estimate ∈ writes i → ∀ t v w, P t → P { t with acc := v, avg := w })
    (hpar : .params ∈ writes i → ∀ t a b c d, P t → P { t with channels := a, bps := b, rate := c, count := d })
    (hhdr : .hdrOk ∈ writes i → ∀ t b, P t → P (t.withStatus (setHdrOk b t.status)))
    (hbuf : .buf ∈ writes i → ∀ t m, P t → P (t.withBuf m))
    (hsmp : .smp ∈ writes i → ∀ t m, P t → P (t.withSmp m))
    (hreset : i = .reset → ∀ t, P t → P t.resetRegisters)
    (h : P s) : Ends (exec i s) P := by
  have hwk : .k ∈ writes i → ∀ t v, P t → P (t.withK v) := fun hi t v ht => hk hi t _ ht
  have hwp : .prev ∈ writes i → ∀ t x, P t → P (t.withPrev x) := fun hi t v ht => hprev hi t _ ht
  have hwe : .estimate ∈ writes i → .k ∈ writes i → ∀ t a b c, P t → P (t.withEstimate a b c) :=
    fun hi hj t a b c ht => hest hi _ _ _ (hk hj _ (BitVec.ofNat 32 c) ht)
  have hwr : .params ∈ writes i → ∀ t a b c d, P t → P (t.withParams a b c d) :=
    fun hi t a b c d ht => hpar hi t _ _ _ _ ht
  cases i with
  | reset => exact respond_ends (r0 := fun _ => 0) (r1 := fun _ => 0) (d := .ok () s.resetRegisters) (hreset rfl _ h)
  | wrreg a b => exact respond_ends (opWrreg_keeps (hk (by simp [writes])) (hprev (by simp [writes])) (hpar (by simp [writes])) a b h)
  | rdreg a => refine respond_ends ?_; unfold opRdreg; split <;> exact h
  | ldb a => refine respond_ends ?_; unfold opLdb; split <;> exact h
  | stb a b =>
    refine respond_ends ?_
    unfold opStb; split
    · split
      · exact hbuf (by simp [writes]) _ _ h
      · exact h
    · exact h
  | lds a => refine respond_ends ?_; unfold opLds; split <;> exact h
  | sts a b =>
    refine respond_ends ?_
    unfold opSts; split
    · split
      · exact hsmp (by simp [writes]) _ _ h
      · exact h
    · exact h
  | setpos a b => exact respond_ends (opSetpos_keeps (hseek (by simp [writes])) _ _ h)
  | getpos => exact respond_ends (d := .ok (s.curByte, word s.curBit.toNat) s) h
  | wrbit v => exact respond_ends (opWrbit_keeps (hseek (by simp [writes])) (hbuf (by simp [writes])) _ h)
  | rdbit => exact respond_ends (takeBits_keeps (hseek (by simp [writes])) _ h)
  | wruint w v => exact respond_ends (opWruint_keeps (hseek (by simp [writes])) (hbuf (by simp [writes])) _ _ h)
  | rduint w => exact respond_ends (opRduint_keeps (hseek (by simp [writes])) _ h)
  | wrones n => exact respond_ends (opWrones_keeps (hseek (by simp [writes])) (hbuf (by simp [writes])) _ h)
  | rdunary => exact respond_ends (opRdunary_keeps (hseek (by simp [writes])) h)
  | align => exact respond_ends (opAlign_keeps (hseek (by simp [writes])) h)
  | bitlen n => exact respond_ends (r0 := word) (r1 := fun _ => 0) (d := .ok (bitLength n.toNat) s) h
  | wrhdr => exact respond_ends (opWrhdr_keeps (hseek (by simp [writes])) (hbuf (by simp [writes])) h)
  | rdhdr => exact respond_ends (opRdhdr_keeps (hseek (by simp [writes])) (hwr (by simp [writes])) (hhdr (by simp [writes])) h)
  | estimate f n c => exact respond_ends (opEstimate_keeps (hwe (by simp [writes]) (by simp [writes])) _ _ _ h)
  | prdrst => exact respond_ends (r0 := fun _ => 0) (r1 := fun _ => 0) (d := .ok () (s.withPrev 0)) (hwp (by simp [writes]) _ _ h)
  | prdenc x =>
    refine respond_ends ?_
    unfold opPrdenc; split
    · exact hwp (by simp [writes]) _ _ h
    · exact h
  | prddec x =>
    refine respond_ends ?_
    unfold opPrddec; split
    · exact hwp (by simp [writes]) _ _ h
    · exact h
  | wrk => exact respond_ends (opWrk_keeps (hseek (by simp [writes])) (hbuf (by simp [writes])) h)
  | rdk => exact respond_ends (opRdk_keeps (hseek (by simp [writes])) (hwk (by simp [writes])) h)
  | renc d => exact respond_ends (opRenc_keeps (hseek (by simp [writes])) (hbuf (by simp [writes])) _ h)
  | rdec => exact respond_ends (opRdec_keeps (hseek (by simp [writes])) h)
  | encblk f n c =>
    exact respond_ends (opEncblk_keeps (hseek (by simp [writes])) (hbuf (by simp [writes])) (hwe (by simp [writes]) (by simp [writes]))
      (hwp (by simp [writes])) _ _ _ h)
  | decblk f n c =>
    exact respond_ends (opDecblk_keeps (hseek (by simp [writes])) (hwk (by simp [writes])) (hwp (by simp [writes]))
      (hsmp (by simp [writes])) _ _ _ h)
  | encode =>
    exact respond_ends (opEncode_keeps (hseek (by simp [writes])) (hbuf (by simp [writes])) (hwe (by simp [writes]) (by simp [writes]))
      (hwp (by simp [writes])) h)
  | decode =>
    exact respond_ends (opDecode_keeps (hseek (by simp [writes])) (hwk (by simp [writes])) (hwp (by simp [writes]))
      (hsmp (by simp [writes])) (hwr (by simp [writes])) (hhdr (by simp [writes])) h)

/-- A property that the updates of a command's targets, the response and the fault log keep is kept by the command. -/
theorem exec_keeps (i : Instr) (hans : ∀ t r, P t → P (t.answered r))
    (hlog : ∀ t c, P t → P (t.withStatus (logFault c t.status)))
    (hseek : .cursor ∈ writes i → ∀ t p, P t → P (t.seek p))
    (hk : .k ∈ writes i → ∀ t v, P t → P { t with k := v })
    (hprev : .prev ∈ writes i → ∀ t v, P t → P { t with prev := v })
    (hest : .estimate ∈ writes i → ∀ t v w, P t → P { t with acc := v, avg := w })
    (hpar : .params ∈ writes i → ∀ t a b c d, P t → P { t with channels := a, bps := b, rate := c, count := d })
    (hhdr : .hdrOk ∈ writes i → ∀ t b, P t → P (t.withStatus (setHdrOk b t.status)))
    (hbuf : .buf ∈ writes i → ∀ t m, P t → P (t.withBuf m))
    (hsmp : .smp ∈ writes i → ∀ t m, P t → P (t.withSmp m))
    (hreset : i = .reset → ∀ t, P t → P t.resetRegisters)
    {t : State} (he : exec i s = .next t) (h : P s) : P t := by
  obtain ⟨u, hu, ⟨_, _, ho⟩ | ⟨c, _, ho⟩⟩ := exec_ends i hseek hk hprev hest hpar hhdr hbuf hsmp hreset h
  · rw [ho] at he; cases he; exact hans _ _ hu
  · rw [ho] at he; cases he; exact hans _ _ (hlog _ c hu)

end Sys2Proof.Machine
end

