-- ==== Sys2Proof/Laws/Inv.lean ====
section
/-! SUPPORT. Every body of a command keeps `State.Inv`, whether it ends with its result or with a fault. -/

namespace Sys2Proof.Machine

variable {s : State}

/-! ## Named updates -/

theorem State.Inv.seek (h : s.Inv) {p : Nat} (hp : p ≤ s.bufBits) : (s.seek p).Inv := by
  have hs := h.small
  exact { h with cursor := by rw [s.pos_seek (by omega)]; exact hp }

theorem State.Inv.advance (h : s.Inv) {n : Nat} (hp : s.pos + n ≤ s.bufBits) : (s.advance n).Inv := h.seek hp

theorem State.Inv.withBuf (h : s.Inv) {m : List Host.Cell} (hm : Memory.within 0#8 s.cfg.bufBytes m = true) :
    (s.withBuf m).Inv := { h with buf := hm }

theorem State.Inv.emit (h : s.Inv) {bs : List Bool} (hp : s.pos + bs.length ≤ s.bufBits) : (s.emit bs).Inv :=
  State.Inv.advance (s := s.withBuf _) (h.withBuf (within_orBits h.buf hp)) hp

theorem State.Inv.withK (h : s.Inv) (v : Nat) : (s.withK v).Inv := { h with }

theorem State.Inv.withPrev (h : s.Inv) {x : Int} (hx : s.holdsSample x = true) : (s.withPrev x).Inv :=
  { h with prev := hx }

theorem State.Inv.withParams (h : s.Inv) (a b c d : Nat) : (s.withParams a b c d).Inv := { h with }

theorem State.Inv.withHdrOk (h : s.Inv) (b : Bool) : (s.withStatus (setHdrOk b s.status)).Inv := { h with log := h.log }

theorem State.Inv.answered (h : s.Inv) (r : Response) : (s.answered r).Inv := { h with }

theorem causeCode_range (c : Cause) : 1 ≤ (causeCode c).toNat ∧ (causeCode c).toNat ≤ 8 := by cases c <;> decide

theorem State.Inv.faulted (h : s.Inv) (c : Cause) (i : Word) : (s.faulted c i).Inv := by
  refine { h with log := ?_ }
  have := h.log
  have hc := causeCode_range c
  show if (logFault c s.status).fseen = true then
    1 ≤ (logFault c s.status).fcause.toNat ∧ (logFault c s.status).fcause.toNat ≤ 8 else (logFault c s.status).fcause = 0
  unfold logFault
  cases hf : s.status.fseen <;> simp_all

theorem State.Inv.storeSample (h : s.Inv) {i : Nat} {x : Int} (hi : i < s.cfg.smpElems) (hx : s.holdsSample x = true) :
    (s.storeSample i x).Inv :=
  { h with
    smp := Memory.within_write h.smp hi x
    samples := Memory.all_write h.samples hx }

theorem State.Inv.withEstimate (h : s.Inv) {xs : List Int} (hn : xs.length ≤ 512)
    (hx : ∀ x ∈ xs, s.holdsSample x = true) (k : Nat) :
    (s.withEstimate (absDiffSum 0 xs) (blockAverage s.cfg xs) k).Inv := by
  have h1 := absDiffSum_le (inContainer_zero s.cfg.sampleW) hx
  have h2 := blockAverage_le hn hx
  have hb : 2 ^ sampleBits s.cfg.sampleW ≤ 2 ^ 32 := by cases s.cfg.sampleW <;> simp [sampleBits]
  have h3 : absDiffSum 0 xs ≤ 512 * (2 ^ 32 - 1) :=
    h1.trans (Nat.mul_le_mul hn (by omega))
  have h4 : 0 < 2 ^ sampleBits s.cfg.sampleW := Nat.two_pow_pos _
  exact { h with
    acc := by rw [State.withEstimate_acc, BitVec.toNat_ofNat]; omega
    avg := by rw [State.withEstimate_avg, BitVec.toNat_ofNat]; omega }

/-! ## Composition -/

variable {α β : Type}

theorem Done.state_andThen {d : Done α} {f : α → State → Done β} (h : d.state.Inv)
    (hf : ∀ a t, d = .ok a t → (f a t).state.Inv) : (d.andThen f).state.Inv := by
  cases d with
  | ok a t => exact hf a t rfl
  | raised c i t => exact h

/-! ## Bodies -/

theorem opWruint_inv (h : s.Inv) (w v : Nat) : (opWruint w v s).state.Inv := by
  by_cases hw : w ≤ 64
  · rw [opWruint_eq hw]
    split
    · exact h.emit (by simpa using by assumption)
    · exact h
  · unfold opWruint
    rw [if_neg (by simpa [uintMaxWidth] using hw)]
    exact h

theorem opWrones_inv (h : s.Inv) (n : Nat) : (opWrones n s).state.Inv := by
  rw [opWrones_eq]
  split
  · exact h.emit (by simpa using by assumption)
  · exact h

theorem opWrbit_inv (h : s.Inv) (v : Nat) : (opWrbit v s).state.Inv := by
  by_cases hv : v ≤ 1
  · rw [opWrbit_eq hv]
    split
    · exact h.emit (by simpa using by assumption)
    · exact h
  · unfold opWrbit
    rw [if_neg hv]
    exact h

theorem takeBits_inv (h : s.Inv) (w : Nat) : (takeBits w s).state.Inv := by
  unfold takeBits
  split
  · exact h.advance (by assumption)
  · exact h

theorem opRduint_inv (h : s.Inv) (w : Nat) : (opRduint w s).state.Inv := by
  unfold opRduint
  split
  · exact takeBits_inv h w
  · exact h

theorem opRdunary_inv (h : s.Inv) : (opRdunary s).state.Inv := by
  unfold opRdunary
  split
  · rename_i q hq
    have := (onesAt_eq_some.mp hq).1
    exact h.advance (by omega)
  · exact h

theorem opSetpos_inv (h : s.Inv) (a b : Nat) : (opSetpos a b s).state.Inv := by
  unfold opSetpos
  split
  · split
    · exact h.seek (by assumption)
    · exact h
  · exact h

theorem opAlign_inv (h : s.Inv) : (opAlign s).state.Inv := by
  rw [opAlign_eq]
  have := h.cursor
  have hb : s.bufBits = 8 * s.cfg.bufBytes := rfl
  exact h.advance (by omega)

theorem opWrhdr_inv (h : s.Inv) : (opWrhdr s).state.Inv := by
  have h20 := h.atLeastHeader
  rw [opWrhdr_eq h.small h20]
  have h0 : (s.seek 0).pos = 0 := s.pos_seek (by omega)
  exact (h.seek (Nat.zero_le _)).emit (by rw [h0, headerBits_length]; simpa using h20)

theorem opRdhdr_inv (h : s.Inv) : (opRdhdr s).state.Inv := by
  have h20 := h.atLeastHeader
  rw [opRdhdr_eq h.small h20]
  split
  · exact State.Inv.withHdrOk ((h.seek h20).withParams _ _ _ _) true
  · exact State.Inv.withHdrOk (h.seek (by omega)) false

theorem opEstimate_inv (h : s.Inv) (frame0 n ch : Nat) : (opEstimate frame0 n ch s).state.Inv := by
  unfold opEstimate
  split
  · rename_i hn
    split
    · split
      · exact h
      · exact h.withEstimate (by simpa [blockSize] using hn) (h.holdsSample_block _ _ _) _
    · exact h
  · exact h

theorem opPrddec_inv (h : s.Inv) (d : Word) : (opPrddec d s).state.Inv := by
  unfold opPrddec
  split
  · exact h.withPrev (by assumption)
  · exact h

theorem opPrdenc_inv (h : s.Inv) (x : Word) : (opPrdenc x s).state.Inv := by
  unfold opPrdenc
  split
  · exact h.withPrev (by assumption)
  · exact h

theorem opWrk_inv (h : s.Inv) : (opWrk s).state.Inv := opWruint_inv h _ _

theorem opRdk_inv (h : s.Inv) : (opRdk s).state.Inv := by
  rw [opRdk_eq]
  split
  · exact (h.advance (by assumption)).withK _
  · exact h

theorem opRenc_inv (h : s.Inv) (d : Word) : (opRenc d s).state.Inv := by
  by_cases hd : sext64 d = -(2 ^ 63)
  · unfold opRenc; simp only; rw [if_pos hd]; exact h
  · by_cases hk : s.k.toNat ≤ 64
    · rw [opRenc_eq h.small hd hk]
      split
      · exact h.emit (by assumption)
      · exact h
    · unfold opRenc; simp only
      rw [if_neg hd, if_neg (by simpa [maxRiceWidth, uintMaxWidth] using hk)]; exact h

theorem opRdec_inv (h : s.Inv) : (opRdec s).state.Inv := by
  by_cases hk : s.k.toNat ≤ 64
  · rw [opRdec_eq h.small hk]
    split
    · exact h
    · split
      · split
        · exact h.advance (by assumption)
        · exact h
      · exact h
  · unfold opRdec
    rw [if_neg (by simpa [maxRiceWidth, uintMaxWidth] using hk)]; exact h

theorem encSamples_inv {xs : List Int} (h : s.Inv) (hx : ∀ x ∈ xs, s.holdsSample x = true) :
    (encSamples xs s).state.Inv := by
  induction xs generalizing s with
  | nil => exact h
  | cons x xs ih =>
    refine Done.state_andThen (opRenc_inv h _) fun n t ht => ?_
    have hc : t.cfg = s.cfg := by
      by_cases hd : sext64 (toBits64 (x - s.prev)) = -(2 ^ 63)
      · unfold opRenc at ht; simp only at ht; rw [if_pos hd] at ht; cases ht
      · by_cases hk : s.k.toNat ≤ 64
        · rw [opRenc_eq h.small hd hk] at ht
          split at ht <;> cases ht
          rfl
        · unfold opRenc at ht; simp only at ht
          rw [if_neg hd, if_neg (by simpa [maxRiceWidth, uintMaxWidth] using hk)] at ht; cases ht
    have ht' : t.Inv := by have := opRenc_inv h (toBits64 (x - s.prev)); rw [ht] at this; exact this
    have hs : ∀ y ∈ x :: xs, t.holdsSample y = true := by simpa only [State.holdsSample, hc] using hx
    exact ih (ht'.withPrev (hs x (by simp))) fun y hy => hs y (by simp [hy])

theorem opEncblk_inv (h : s.Inv) (frame0 n ch : Nat) : (opEncblk frame0 n ch s).state.Inv := by
  by_cases hn : n ≤ 512
  · by_cases hc : ch < s.channels.toNat
    · cases ho : firstOutside s frame0 ch n 0 with
      | some i =>
        unfold opEncblk opEstimate
        rw [if_pos (by simpa [blockSize] using hn), if_pos hc, if_pos (by simpa [blockSize] using hn), if_pos hc, ho]
        exact h
      | none =>
        have hx := h.holdsSample_block frame0 n ch
        have hi := firstOutside_eq_none.mp ho
        rw [opEncblk_loop rfl hn hc (by simpa using hi) hx]
        have he := h.withEstimate (xs := blockSamples s frame0 n ch) (by simpa using hn) hx
          (blockParameter s.cfg (blockSamples s frame0 n ch))
        split
        · rename_i hf
          have h0 : (s.blockEntry (blockSamples s frame0 n ch)).Inv :=
            State.Inv.withPrev (he.emit (by rw [uintBits_length]; exact hf)) (inContainer_zero _)
          exact Done.state_andThen (encSamples_inv h0 hx) fun _ t ht => by
            have := encSamples_inv h0 hx
            rw [ht] at this
            exact this
        · exact he
    · unfold opEncblk
      rw [if_pos (by simpa [blockSize] using hn), if_neg hc]
      exact h
  · unfold opEncblk
    rw [if_neg (by simpa [blockSize] using hn)]
    exact h

/-- A state reached by a read: only the cursor differs. -/
theorem opRdec_ok_state {r : Int × Nat} {t : State} (hs : s.bufBits < 2 ^ 64) (h : opRdec s = .ok r t) :
    ∃ n, t = s.advance n := by
  by_cases hk : s.k.toNat ≤ 64
  · rw [opRdec_eq hs hk] at h
    split at h
    · cases h
    · split at h
      · split at h
        · cases h; exact ⟨_, rfl⟩
        · cases h
      · cases h
  · unfold opRdec at h
    rw [if_neg (by simpa [maxRiceWidth, uintMaxWidth] using hk)] at h; cases h

theorem decSamples_inv {frame0 ch n i : Nat} (h : s.Inv)
    (hi : ∀ j, j < n → s.smpIndex (frame0 + (i + j)) ch < s.cfg.smpElems) :
    (decSamples frame0 ch n i s).state.Inv := by
  induction n generalizing s i with
  | zero => exact h
  | succ n ih =>
    unfold decSamples
    refine Done.state_andThen (opRdec_inv h) fun d t ht => ?_
    have ht' : t.Inv := by have := opRdec_inv h; rw [ht] at this; exact this
    obtain ⟨m, rfl⟩ := opRdec_ok_state h.small ht
    refine Done.state_andThen (opPrddec_inv ht' _) fun x u hu => ?_
    unfold opPrddec at hu
    split at hu
    · rename_i hx
      cases hu
      refine ih ?_ fun j hj => ?_
      · exact (ht'.withPrev hx).storeSample (by simpa using hi 0 (by omega)) hx
      · have := hi (j + 1) (by omega)
        rwa [show i + (j + 1) = i + 1 + j by omega] at this
    · cases hu

theorem opDecblk_inv (h : s.Inv) (frame0 n ch : Nat) : (opDecblk frame0 n ch s).state.Inv := by
  unfold opDecblk
  split
  · split
    · split
      · exact h
      · rename_i ho
        have hi := firstOutside_eq_none.mp ho
        refine Done.state_andThen (opRdk_inv h) fun k t ht => ?_
        have ht' : t.Inv := by have := opRdk_inv h; rw [ht] at this; exact this
        rw [opRdk_eq] at ht
        split at ht
        · cases ht
          have h0 := ht'.withPrev (x := 0) (inContainer_zero _)
          refine Done.state_andThen (d := .ok () _) h0 fun _ u hu => ?_
          cases hu
          exact Done.state_andThen (decSamples_inv h0 (by simpa using hi)) fun _ v hv => by
            have := decSamples_inv (n := n) (i := 0) (frame0 := frame0) (ch := ch) h0 (by simpa using hi)
            rw [hv] at this
            exact this
        · cases ht
    · exact h
  · exact h

theorem overChannels_inv {cmd : Nat → State → Done Nat} (hcmd : ∀ c s, s.Inv → (cmd c s).state.Inv) {todo c : Nat}
    (h : s.Inv) : (overChannels cmd todo c s).state.Inv := by
  induction todo generalizing s c with
  | zero => exact h
  | succ todo ih =>
    refine Done.state_andThen (hcmd c s h) fun _ t ht => ih ?_
    have := hcmd c s h
    rw [ht] at this
    exact this

theorem overBlocks_inv {cmd : Nat → Nat → Nat → State → Done Nat}
    (hcmd : ∀ f n c s, s.Inv → (cmd f n c s).state.Inv) {align : Bool} {count channels todo b : Nat} (h : s.Inv) :
    (overBlocks cmd align count channels todo b s).state.Inv := by
  induction todo generalizing s b with
  | zero => exact h
  | succ todo ih =>
    unfold overBlocks
    refine Done.state_andThen (overChannels_inv (hcmd _ _) h) fun _ t ht => ?_
    have ht' : t.Inv := by
      have := overChannels_inv (hcmd (blockSize * b) (blockFrames count b)) (todo := channels) (c := 0) h
      rw [ht] at this
      exact this
    have ha : (if align then opAlign t else .ok () t).state.Inv := by
      split
      · exact opAlign_inv ht'
      · exact ht'
    refine Done.state_andThen ha fun _ u hu => ih ?_
    rw [hu] at ha
    exact ha

theorem checkStream_state (s : State) : (checkStream s).state = s := by
  unfold checkStream
  split
  · rfl
  · split <;> rfl

theorem opEncode_inv (h : s.Inv) : (opEncode s).state.Inv := by
  unfold opEncode
  refine Done.state_andThen (by rw [checkStream_state]; exact h) fun _ t ht => ?_
  have : t = s := by have := checkStream_state s; rw [ht] at this; exact this
  subst this
  have hc : (t.withBuf (Memory.clearBelow t.cfg.bufBytes t.buf)).Inv := by
    refine h.withBuf ?_
    rw [Memory.clearBelow_within h.buf]
    rfl
  refine Done.state_andThen (opWrhdr_inv hc) fun _ u hu => ?_
  have hu' : u.Inv := by have := opWrhdr_inv hc; rw [hu] at this; exact this
  have hb := overBlocks_inv (fun f n c s h => opEncblk_inv h f n c) (align := u.cfg.encAlign) (count := u.count.toNat)
    (channels := u.channels.toNat) (todo := blockCount u.count.toNat) (b := 0) hu'
  refine Done.state_andThen hb fun _ v hv => ?_
  rw [hv] at hb
  exact hb

theorem opDecode_inv (h : s.Inv) : (opDecode s).state.Inv := by
  unfold opDecode
  refine Done.state_andThen (opRdhdr_inv h) fun r t ht => ?_
  have ht' : t.Inv := by have := opRdhdr_inv h; rw [ht] at this; exact this
  split
  · refine Done.state_andThen (by rw [checkStream_state]; exact ht') fun _ u hu => ?_
    have : u = t := by have := checkStream_state t; rw [hu] at this; exact this
    subst this
    have hb := overBlocks_inv (fun f n c s h => opDecblk_inv h f n c) (align := u.cfg.decAlign) (count := u.count.toNat)
      (channels := u.channels.toNat) (todo := blockCount u.count.toNat) (b := 0) ht'
    refine Done.state_andThen hb fun _ v hv => ?_
    rw [hv] at hb
    exact hb
  · exact ht'

theorem State.Inv.resetRegisters (h : s.Inv) : s.resetRegisters.Inv :=
  { h with cursor := Nat.zero_le _, prev := inContainer_zero _, acc := Nat.zero_le _, avg := Nat.two_pow_pos 32,
           log := rfl }

theorem opWrreg_inv (h : s.Inv) (reg value : Word) : (opWrreg reg value s).state.Inv := by
  unfold opWrreg
  split
  · exact h
  · rename_i r _
    split
    · split
      · rename_i ha
        cases r with
        | prev => exact h.withPrev ha
        | _ => exact { h with }
      · exact h
    · exact h

theorem opStb_inv (h : s.Inv) (addr byte : Word) : (opStb addr byte s).state.Inv := by
  unfold opStb
  split
  · split
    · exact h.withBuf (Memory.within_write h.buf (by assumption) _)
    · exact h
  · exact h

theorem opSts_inv (h : s.Inv) (index sample : Word) : (opSts index sample s).state.Inv := by
  unfold opSts
  split
  · split
    · exact h.storeSample (by assumption) (by assumption)
    · exact h
  · exact h

end Sys2Proof.Machine
end

