-- ==== Sys2Proof/Laws/PerInstr.lean ====
section
/-! SUPPORT. One lemma per constructor of `Instr`: the opcode map of 30_encoding.md R73, read from the fields the
encoder writes, gives the instruction back. -/

namespace Sys2Proof.Laws.FieldRoundTrip

/-- The decoder's table undoes the encoder's, field by field. -/
def Statement (i : Instr) : Prop :=
  decodeFields (encodeFields i).1 (encodeFields i).2.1 (encodeFields i).2.2.1 (encodeFields i).2.2.2 = .ok i

theorem reset : Statement .reset := rfl
theorem wrreg (reg value : Word) : Statement (.wrreg reg value) := rfl
theorem rdreg (reg : Word) : Statement (.rdreg reg) := rfl
theorem ldb (addr : Word) : Statement (.ldb addr) := rfl
theorem stb (addr byte : Word) : Statement (.stb addr byte) := rfl
theorem lds (index : Word) : Statement (.lds index) := rfl
theorem sts (index sample : Word) : Statement (.sts index sample) := rfl
theorem setpos (byte bit : Word) : Statement (.setpos byte bit) := rfl
theorem getpos : Statement .getpos := rfl
theorem wrbit (v : Word) : Statement (.wrbit v) := rfl
theorem rdbit : Statement .rdbit := rfl
theorem wruint (width value : Word) : Statement (.wruint width value) := rfl
theorem rduint (width : Word) : Statement (.rduint width) := rfl
theorem wrones (count : Word) : Statement (.wrones count) := rfl
theorem rdunary : Statement .rdunary := rfl
theorem align : Statement .align := rfl
theorem bitlen (n : Word) : Statement (.bitlen n) := rfl
theorem wrhdr : Statement .wrhdr := rfl
theorem rdhdr : Statement .rdhdr := rfl
theorem estimate (frame0 n ch : Word) : Statement (.estimate frame0 n ch) := rfl
theorem prdrst : Statement .prdrst := rfl
theorem prdenc (sample : Word) : Statement (.prdenc sample) := rfl
theorem prddec (diff : Word) : Statement (.prddec diff) := rfl
theorem wrk : Statement .wrk := rfl
theorem rdk : Statement .rdk := rfl
theorem renc (diff : Word) : Statement (.renc diff) := rfl
theorem rdec : Statement .rdec := rfl
theorem encblk (frame0 n ch : Word) : Statement (.encblk frame0 n ch) := rfl
theorem decblk (frame0 n ch : Word) : Statement (.decblk frame0 n ch) := rfl
theorem encode : Statement .encode := rfl
theorem decode : Statement .decode := rfl

end Sys2Proof.Laws.FieldRoundTrip
end

