-- ==== Sys2Proof/Tests/Slice0.lean ====
section
/-! SUPPORT. Tests of one command each against 95_test_vectors.md and the encodings of 30_encoding.md, a refused
ill-formed term for each check of WellFormed, and for every statement with hypotheses a witness that meets them, clause
by clause and at the ends of its ranges. -/

namespace Sys2Proof.Tests

-- One theorem after the other: each waiting kernel evaluation would hold a thread with a stack of its own.
set_option Elab.async false

open Sys2Proof Sys2Proof.Machine

/-! ## Helpers -/

/-- An instance with this hardware's decision parameters. -/
def inst (w : SampleWidth) (bytes elems : Nat) : Config :=
  { sampleW := w, bufBytes := bytes, smpElems := elems, encAlign := false, decAlign := false, estDiv := .nominal }

/-- A 64-bit field that holds a signed value. -/
def signed (x : Int) : Word := BitVec.ofInt 64 x

/-- A memory with these values from address `a` on. -/
def cells {α : Type} [DecidableEq α] (d : α) : Nat → List α → List (Nat × α)
  | _, [] => []
  | a, x :: xs => Memory.write d (cells d (a + 1) xs) a x

/-- The machine after power-on with the smallest `BUF`, 160 bits, and 4 elements of 16 bits. -/
def small : State := State.powerOn (inst .w16 20 4) [] []

/-- The machine of 95_test_vectors.md section 3.1, with these bytes at the start of `BUF`. -/
def withBytes (bs : List Byte) : State := State.powerOn (inst .w16 32 8) (cells 0 0 bs) []

/-- The state that a command leaves. -/
def after (i : Instr) (s : State) : State := (nextState (exec i s)).getD s

/-- The response to a command. -/
def answer (i : Instr) (s : State) : Option Response := responseOf (exec i s)

/-- The first bytes of `BUF`. -/
def bytes (s : State) (a n : Nat) : List Byte := (List.range n).map fun i => readByte s.buf (a + i)

/-- The cursor. -/
def cur (s : State) : Nat × Nat := (s.curByte.toNat, s.curBit.toNat)

/-- The invariant as a check. -/
def invOk (s : State) : Bool :=
  s.cfg.legal && decide (s.pos ≤ s.bufBits) && s.holdsSample s.prev && decide (s.acc.toNat ≤ 512 * (2 ^ 32 - 1)) &&
    decide (s.avg.toNat < 2 ^ 32) &&
    (if s.status.fseen then decide (1 ≤ s.status.fcause.toNat) && decide (s.status.fcause.toNat ≤ 8)
      else decide (s.status.fcause = 0)) &&
    Memory.within 0#8 s.cfg.bufBytes s.buf && Memory.within 0 s.cfg.smpElems s.smp &&
    s.smp.all fun c => s.holdsSample c.2

theorem inv_of_check {s : State} (h : invOk s = true) : s.Inv := by
  simp only [invOk, Bool.and_eq_true, decide_eq_true_eq] at h
  obtain ⟨⟨⟨⟨⟨⟨⟨⟨h1, h2⟩, h3⟩, h4⟩, h5⟩, h6⟩, h7⟩, h8⟩, h9⟩ := h
  refine ⟨h1, h2, h3, h4, h5, ?_, h7, h8, h9⟩
  split at h6 <;> simp_all

/-- A command that is answered with this status meets the hypotheses of the statements about responses. -/
theorem answered_with {i : Instr} {s : State} {c : BitVec 4} (h : (answer i s).map Response.status = some c) :
    ∃ (t : State) (r : Response), exec i s = .next t ∧ t.rsp = some r ∧ r.status = c := by
  unfold answer responseOf nextState at h
  split at h
  · rename_i t ht
    simp only [Option.bind_some, Option.map_eq_some_iff] at h
    obtain ⟨r, h1, h2⟩ := h
    exact ⟨t, r, ht, h1, h2⟩
  · simp at h
  · simp at h

theorem small_inv : small.Inv := inv_of_check (by decide)

/-! ## WellFormed refuses -/

theorem test_refused_wrreg_register : (Instr.wrreg 6 0).wellFormed = false := by decide
theorem test_refused_wrreg_value : (Instr.wrreg 4 0x100000000).wellFormed = false := by decide
theorem test_refused_rdreg : (Instr.rdreg 16).wellFormed = false := by decide
theorem test_refused_stb : (Instr.stb 0 256).wellFormed = false := by decide
theorem test_refused_setpos : (Instr.setpos 0 8).wellFormed = false := by decide
theorem test_refused_wrbit : (Instr.wrbit 2).wellFormed = false := by decide
theorem test_refused_wruint : (Instr.wruint 65 0).wellFormed = false := by decide
theorem test_refused_rduint : (Instr.rduint 65).wellFormed = false := by decide
theorem test_refused_estimate : (Instr.estimate 0 513 0).wellFormed = false := by decide
theorem test_refused_renc : (Instr.renc 0x8000000000000000).wellFormed = false := by decide
theorem test_refused_encblk : (Instr.encblk 0 513 0).wellFormed = false := by decide
theorem test_refused_decblk : (Instr.decblk 0 513 0).wellFormed = false := by decide
theorem test_accepted_bounds : (Instr.wrreg 5 0x8000000000000000).wellFormed = true ∧
    (Instr.encblk 0 512 0).wellFormed = true ∧ (Instr.rduint 64).wellFormed = true := by decide

/-! ## Decoding: words written out as `a2_a1_a0_op` (30_encoding.md R70, R73) -/

theorem test_decode_system :
    decode 0x0000000000000000_0000000000000000_0000000000000000_01#200 = .ok .reset ∧
    decode 0x0000000000000000_000000000000AC44_0000000000000002_02#200 = .ok (.wrreg 2 44100) ∧
    decode 0x0000000000000000_0000000000000000_000000000000000C_03#200 = .ok (.rdreg 12) ∧
    decode 0x0000000000000000_0000000000000000_8000000000000001_04#200 = .ok (.ldb 0x8000000000000001) ∧
    decode 0x0000000000000000_00000000000000FF_000000000000000A_05#200 = .ok (.stb 10 255) ∧
    decode 0x0000000000000000_0000000000000000_0000000000000007_06#200 = .ok (.lds 7) ∧
    decode 0x0000000000000000_FFFFFFFFFFFFFFFE_0000000000000001_07#200 = .ok (.sts 1 (signed (-2))) := by
  refine ⟨rfl, rfl, rfl, rfl, rfl, rfl, rfl⟩

theorem test_decode_cursor :
    decode 0x0000000000000000_0000000000000007_0000000000000016_10#200 = .ok (.setpos 22 7) ∧
    decode 0x0000000000000000_0000000000000000_0000000000000000_11#200 = .ok .getpos ∧
    decode 0x0000000000000000_0000000000000000_0000000000000001_12#200 = .ok (.wrbit 1) ∧
    decode 0x0000000000000000_0000000000000000_0000000000000000_13#200 = .ok .rdbit ∧
    decode 0x0000000000000000_0000000000000ABC_000000000000000C_14#200 = .ok (.wruint 12 0xABC) ∧
    decode 0x0000000000000000_0000000000000000_0000000000000010_15#200 = .ok (.rduint 16) ∧
    decode 0x0000000000000000_0000000000000000_000000000000000D_16#200 = .ok (.wrones 13) ∧
    decode 0x0000000000000000_0000000000000000_0000000000000000_17#200 = .ok .rdunary ∧
    decode 0x0000000000000000_0000000000000000_0000000000000000_18#200 = .ok .align ∧
    decode 0x0000000000000000_0000000000000000_00000000000001FF_19#200 = .ok (.bitlen 511) := by
  refine ⟨rfl, rfl, rfl, rfl, rfl, rfl, rfl, rfl, rfl, rfl⟩

theorem test_decode_coding :
    decode 0x0000000000000000_0000000000000000_0000000000000000_20#200 = .ok .wrhdr ∧
    decode 0x0000000000000000_0000000000000000_0000000000000000_21#200 = .ok .rdhdr ∧
    decode 0x0000000000000003_0000000000000002_0000000000000001_30#200 = .ok (.estimate 1 2 3) ∧
    decode 0x0000000000000000_0000000000000000_0000000000000000_31#200 = .ok .prdrst ∧
    decode 0x0000000000000000_0000000000000000_FFFFFFFFFFFF8000_32#200 = .ok (.prdenc (signed (-32768))) ∧
    decode 0x0000000000000000_0000000000000000_000000000000FFFF_33#200 = .ok (.prddec 65535) ∧
    decode 0x0000000000000000_0000000000000000_0000000000000000_40#200 = .ok .wrk ∧
    decode 0x0000000000000000_0000000000000000_0000000000000000_41#200 = .ok .rdk ∧
    decode 0x0000000000000000_0000000000000000_FFFFFFFFFFFFFFEC_42#200 = .ok (.renc (signed (-20))) ∧
    decode 0x0000000000000000_0000000000000000_0000000000000000_43#200 = .ok .rdec := by
  refine ⟨rfl, rfl, rfl, rfl, rfl, rfl, rfl, rfl, rfl, rfl⟩

theorem test_decode_streams :
    decode 0x0000000000000001_00000000000000B0_0000000000000200_50#200 = .ok (.encblk 512 176 1) ∧
    decode 0x0000000000000001_0000000000000200_0000000000000400_51#200 = .ok (.decblk 1024 512 1) ∧
    decode 0x0000000000000000_0000000000000000_0000000000000000_60#200 = .ok .encode ∧
    decode 0x0000000000000000_0000000000000000_0000000000000000_61#200 = .ok .decode := by
  refine ⟨rfl, rfl, rfl, rfl⟩

/-- The example of R70: one 200-bit number. -/
theorem test_encode_wruint : encode (.wruint 12 0xABC) = BitVec.ofNat 200 (0xABC <<< 72 ||| 12 <<< 8 ||| 0x14) := by decide

/-- `0xE13` of 95_test_vectors.md section 2. -/
theorem test_response_word : responseWord { status := 3, r0 := 0xE1, r1 := 0 } = 0xE13 ∧
    responseWord { status := 0, r0 := 0x16, r1 := 7 } = 0x7_0000000000000016_0 := by decide

/-- `STS 1, -2` as the assembler prints it (R75). -/
theorem test_assembly_line : assemblyLine (.sts 1 (signed (-2))) = "STS 1, -2" := by decide

/-! ## One command each (95_test_vectors.md sections 3.1 to 3.5, 4 and 5) -/

theorem test_step_reserved :
    step { small with pending := [0] } = .next (small.faulted .illegalCommand 0) := rfl

theorem test_reset : after .reset { small with k := 9, buf := [(3, 7)] } = { small with buf := [(3, 7)], rsp := some (okResponse 0 0) } := by
  decide

theorem test_wrreg_h5 : (after (.wrreg 5 (signed (-32768))) small).prev = -32768 := by decide

theorem test_rdreg_h6 : answer (.rdreg 12) small = some (okResponse 0x10 0) := by decide

theorem test_ldb : answer (.ldb 2) (withBytes [0xE0, 0xDD, 0x17]) = some (okResponse 0x17 0) := by decide

theorem test_stb_h7 : bytes (after (.stb 0 0) (withBytes [0xFF])) 0 2 = [0, 0] := by decide

theorem test_lds : answer (.lds 3) { small with smp := [(3, -2)] } = some (okResponse 0xFFFFFFFFFFFFFFFE 0) := by decide

theorem test_sts_h10 :
    answer (.sts 0 (signed (-1))) (State.powerOn (inst .w8 32 8) [] []) =
      some { status := 2, r0 := 0xFFFFFFFFFFFFFFFF, r1 := 0 } := by decide

theorem test_setpos : cur (after (.setpos 20 0) small) = (20, 0) := by decide

theorem test_getpos : answer .getpos ((withBytes []).seek 183) = some (okResponse 0x16 7) := by decide

theorem test_wrbit_b2 : bytes (after (.wrbit 1) (small.seek 7)) 0 2 = [0x80, 0] ∧ cur (after (.wrbit 1) (small.seek 7)) = (1, 0) := by
  decide

theorem test_rdbit_b3 : answer .rdbit ((withBytes [0x08]).seek 3) = some (okResponse 1 0) := by decide

theorem test_wruint_b4 : bytes (after (.wruint 16 0xBEEF) (small.seek 5)) 0 3 = [0xE0, 0xDD, 0x17] := by decide +kernel

/-- A write does not clear (B16). -/
theorem test_wruint_b16 : bytes (after (.wruint 8 0x35) (withBytes [0x0F])) 0 1 = [0x3F] := by decide

theorem test_rduint_b5 : answer (.rduint 16) ((withBytes [0xE0, 0xDD, 0x17]).seek 5) = some (okResponse 0xBEEF 0) := by decide +kernel

theorem test_wrones_b10 : bytes (after (.wrones 13) (small.seek 6)) 0 3 = [0xC0, 0xFF, 0x07] := by decide +kernel

theorem test_rdunary_b12 : answer .rdunary ((withBytes [0xFD, 0xE3]).seek 3) = some (okResponse 7 0) := by decide +kernel

theorem test_align_b14 : cur (after .align ((withBytes []).seek 183)) = (23, 0) := by decide

theorem test_bitlen : answer (.bitlen 4) small = some (okResponse 2 0) ∧ answer (.bitlen 511) small = some (okResponse 8 0) := by
  decide

theorem test_wrhdr_hd1 :
    bytes (after .wrhdr { small with count := 3, channels := 2, bps := 16, rate := 44100 }) 0 20 =
      [0x62, 0x74, 0x77, 0x66, 3, 0, 0, 0, 0, 0, 0, 0, 2, 0, 16, 0, 0x44, 0xAC, 0, 0] := by decide +kernel

/-- The header of HD1 read back (HD2). -/
theorem test_rdhdr_hd2 :
    after .rdhdr (withBytes [0x62, 0x74, 0x77, 0x66, 3, 0, 0, 0, 0, 0, 0, 0, 2, 0, 16, 0, 0x44, 0xAC, 0, 0]) =
      { withBytes [0x62, 0x74, 0x77, 0x66, 3, 0, 0, 0, 0, 0, 0, 0, 2, 0, 16, 0, 0x44, 0xAC, 0, 0] with
        count := 3, channels := 2, bps := 16, rate := 44100, curByte := 20,
        status := { fseen := false, fcause := 0, hdrOk := true }, rsp := some (okResponse 1 0) } := by decide +kernel

/-- The samples of E1. -/
def estimated : State := { State.powerOn (inst .w16 32 8) [] (cells 0 0 [1000, -1000, 3000, 2000]) with channels := 1 }

theorem test_estimate_e1 : answer (.estimate 0 4 0) estimated = some (okResponse 3 15) ∧
    (after (.estimate 0 4 0) estimated).acc = 8000 := by decide +kernel

theorem test_prdrst : (after .prdrst { small with prev := -7 }).prev = 0 := by decide

theorem test_prdenc_pr5 :
    answer (.prdenc (signed (-32768))) { small with prev := 32767 } = some (okResponse 0xFFFFFFFFFFFF0001 0) := by decide

theorem test_prddec_pr6 : answer (.prddec 65535) { small with prev := -32768 } = some (okResponse 0x7FFF 0) := by decide

theorem test_wrk_rc1 : bytes (after .wrk ({ withBytes [] with bps := 16, k := 3 }.seek 160)) 20 1 = [3] := by decide

theorem test_rdk_rc2 : answer .rdk { withBytes [0x05] with bps := 16 } = some (okResponse 5 0) := by decide

theorem test_renc_rc4 : answer (.renc (signed (-20))) { small with k := 3 } = some (okResponse 7 0) ∧
    bytes (after (.renc (signed (-20))) { small with k := 3 }) 0 1 = [0x47] := by decide +kernel

theorem test_rdec_rc9 :
    answer .rdec ({ small with buf := [(19, 0x7E)] }.seek 153) = some (okResponse 0xFFFFFFFFFFFFFFFB 7) := by decide +kernel

/-- The machine of program P2 before its `ENCBLK`. -/
def blockState : State :=
  { State.powerOn (inst .w16 64 16) [] (cells 0 0 [3, -2, 0, 1]) with channels := 1, bps := 16, curByte := 20 }

theorem test_encblk_p2 : answer (.encblk 0 4 0) blockState = some (okResponse 0 0) ∧
    bytes (after (.encblk 0 4 0) blockState) 19 5 = [0, 0xE0, 0x7E, 0x26, 0] ∧
    cur (after (.encblk 0 4 0) blockState) = (22, 7) := by decide +kernel

/-- The machine of program P2 before its `DECBLK`. -/
def codedState : State :=
  { State.powerOn (inst .w16 64 16) (cells 0 20 [0xE0, 0x7E, 0x26]) [] with channels := 1, bps := 16, curByte := 20 }

theorem test_decblk_p2 : answer (.decblk 0 4 0) codedState = some (okResponse 0 0) ∧
    (after (.decblk 0 4 0) codedState).smp = cells 0 0 [3, -2, 0, 1] ∧
    cur (after (.decblk 0 4 0) codedState) = (22, 7) := by decide +kernel

/-- The record runs off the end of `BUF` after four samples (F-K4). -/
theorem test_decblk_fk4 :
    let s : State := { State.powerOn (inst .w16 24 8) [(22, 1)] (cells 0 0 [100, -100, 100, -100, 100, -100, 100, -100])
      with channels := 1, bps := 16, curByte := 22, prev := 9 }
    answer (.decblk 0 8 0) s = some { status := 3, r0 := 0xC0, r1 := 0 } ∧
    (after (.decblk 0 8 0) s).smp = cells 0 4 [100, -100, 100, -100] ∧ cur (after (.decblk 0 8 0) s) = (24, 0) ∧
    (after (.decblk 0 8 0) s).k = 1 ∧ (after (.decblk 0 8 0) s).prev = 0 := by decide +kernel

/-- The parameters and samples of program P3 on an instance with `n` bytes of `BUF`. -/
def streamState (n : Nat) : State :=
  { State.powerOn (inst .w16 n 6) [] (cells 0 0 [5, -3, 7, -3, 4, 0]) with channels := 2, bps := 16, rate := 44100, count := 3 }

/-- The stream of program P3. -/
def streamBytes : List Byte :=
  [0x62, 0x74, 0x77, 0x66, 3, 0, 0, 0, 0, 0, 0, 0, 2, 0, 16, 0, 0x44, 0xAC, 0, 0, 0xE0, 0xB3, 0x07, 0x0F, 0x07]

theorem test_encode_p3 : answer .encode (streamState 25) = some (okResponse 25 0) ∧
    bytes (after .encode (streamState 25)) 0 25 = streamBytes := by decide +kernel

/-- `BUF` is too small (F-S14). -/
theorem test_encode_fs14 : answer .encode (streamState 24) = some { status := 3, r0 := 0xBF, r1 := 0 } ∧
    bytes (after .encode (streamState 24)) 0 24 = streamBytes.take 24 ∧
    cur (after .encode (streamState 24)) = (23, 7) := by decide +kernel

/-- The machine that decodes the stream of program P3. -/
def readState : State := State.powerOn (inst .w16 25 6) (cells 0 0 streamBytes) []

theorem test_decode_p3 : answer .decode readState = some (okResponse 6 0) ∧
    (after .decode readState).smp = (streamState 25).smp ∧ (after .decode readState).rate = 44100 := by decide +kernel

theorem test_decode_fs12 :
    answer .decode { readState with buf := cells 0 0 (0x63 :: streamBytes.tail), channels := 9 } =
      some { status := 7, r0 := 0x66777463, r1 := 0 } := by decide +kernel

/-! ## Witnesses: command words, steps, runs -/

theorem witness_UnusedFieldsAreIgnored :
    decode 0x0000000000000000_0000000000000ABC_000000000000000C_14#200 = .ok (.wruint 12 0xABC) ∧
    (operandValues (.wruint 12 0xABC)).length = 2 ∧
    opField 0xFFFFFFFFFFFFFFFF_0000000000000ABC_000000000000000C_14#200 = 0x14 ∧
    a0Field 0xFFFFFFFFFFFFFFFF_0000000000000ABC_000000000000000C_14#200 = 12 ∧
    a1Field 0xFFFFFFFFFFFFFFFF_0000000000000ABC_000000000000000C_14#200 = 0xABC := ⟨rfl, rfl, rfl, rfl, rfl⟩

theorem witness_ReservedOpcodesRaiseIllegalCommand :
    (∃ e, decode 0x62#200 = .error e) ∧ (∃ e, decode 0xFF#200 = .error e) ∧ (∃ e, decode 0x0F#200 = .error e) ∧
    (∃ e, decode 0x08#200 = .error e) ∧ (∃ e, decode 0x52#200 = .error e) ∧
    { small with pending := [0x62, 0x01] }.pending = 0x62 :: [0x01] := ⟨⟨_, rfl⟩, ⟨_, rfl⟩, ⟨_, rfl⟩, ⟨_, rfl⟩, ⟨_, rfl⟩, rfl⟩

theorem witness_StepRunsDecodedCommand :
    { small with pending := [0x60, 0x01] }.pending = 0x60 :: [0x01] ∧ decode 0x60#200 = .ok .encode := ⟨rfl, rfl⟩

theorem witness_StepWithoutCommandWaits : State.reset.pending = [] := rfl

theorem witness_EveryCommandAnsweredOnce :
    { small with pending := [0xFF] }.pending = 0xFF :: [] ∧ { small with pending := [0x17] }.pending = 0x17 :: [] :=
  ⟨rfl, rfl⟩

/-! ## Witnesses: reset, invariants, faults -/

/-- A machine whose log holds a fault. -/
def logged : State := { small with status := { fseen := true, fcause := 8, hdrOk := true } }

theorem witness_ResetCommandKeepsMemories :
    Instr.getpos ≠ .reset ∧ (∃ t, exec .getpos logged = .next t) ∧ logged.status.fseen = true := ⟨by decide, ⟨_, rfl⟩, rfl⟩

/-- The smallest instance, with the last byte and the last element set. -/
theorem witness_InitialStatesMeetInvariant :
    (inst .w8 20 1).legal = true ∧ Memory.within 0#8 (inst .w8 20 1).bufBytes [(19, 0xFF)] = true ∧
    Memory.within 0 (inst .w8 20 1).smpElems [(0, 255)] = true ∧
    ([(0, (255 : Int))].all fun c => inContainer (inst .w8 20 1).sampleW c.2) = true := by decide

theorem witness_EveryStepKeepsInvariant :
    { small with pending := [0x62] }.Inv ∧ ∃ t, step { small with pending := [0x62] } = .next t :=
  ⟨inv_of_check (by decide), ⟨_, rfl⟩⟩

/-- A completed command, a first fault and a later fault. -/
theorem witness_FaultLogIsSticky :
    (∃ t r, exec .rdbit small = .next t ∧ t.rsp = some r ∧ r.status = 0) ∧
    (∃ t r, exec .rdbit (small.seek 160) = .next t ∧ t.rsp = some r ∧ r.status = 3) ∧ small.status.fseen = false ∧
    (∃ t r, exec (.ldb 20) logged = .next t ∧ t.rsp = some r ∧ r.status = 3) ∧ logged.status.fseen = true :=
  ⟨answered_with (by decide), answered_with (by decide), rfl, answered_with (by decide), rfl⟩

theorem witness_PreciseCommandsChangeNothingOnFault :
    (small.seek 153).Inv ∧ composite .rdec = false ∧
    ∃ t r, exec .rdec ({ small with k := 7 }.seek 153) = .next t ∧ t.rsp = some r ∧ r.status = 3 :=
  ⟨small_inv.seek (by decide), rfl, answered_with (by decide +kernel)⟩

theorem witness_IllFormedCommandsFault :
    (Instr.wruint 65 0).wellFormed = false ∧ (Instr.wrreg 6 0).wellFormed = false := by decide

/-- A command that completes, one that faults. -/
theorem witness_OnlyTabledCausesAreRaised :
    small.Inv ∧ (∃ t r, exec .align small = .next t ∧ t.rsp = some r ∧ r.status = 0) ∧
    ∃ t r, exec (.encblk 0 513 0) small = .next t ∧ t.rsp = some r ∧ r.status = 2 :=
  ⟨small_inv, answered_with (by decide), answered_with (by decide)⟩

theorem witness_OnlyNamedTargetsChange :
    (∃ t, exec (.stb 0 1) small = .next t) ∧ Target.cursor ∉ writes (.stb 0 1) ∧ Target.k ∉ writes (.stb 0 1) ∧
    Target.prev ∉ writes (.stb 0 1) ∧ Target.estimate ∉ writes (.stb 0 1) ∧ Target.params ∉ writes (.stb 0 1) ∧
    Target.hdrOk ∉ writes (.stb 0 1) ∧ Target.smp ∉ writes (.stb 0 1) ∧ Target.buf ∉ writes (.sts 0 1) :=
  ⟨⟨_, rfl⟩, by decide, by decide, by decide, by decide, by decide, by decide, by decide, by decide⟩

/-! ## Witnesses: system and host port -/

theorem witness_WrregWritesOneRegister :
    ((0 : Word).toNat = 0 ∧ (1 : Word).toNat = 1 ∧ (2 : Word).toNat = 2 ∧ (3 : Word).toNat = 3 ∧ (4 : Word).toNat = 4 ∧
      (5 : Word).toNat = 5 ∧ 5 < (6 : Word).toNat) ∧
    (0xFFFFFFFF : Word).toNat < 2 ^ 32 ∧ 2 ^ 32 ≤ (0x100000000 : Word).toNat ∧
    (smpMin small.cfg.sampleW ≤ (signed (-32768)).toInt ∧ (signed (-32768)).toInt ≤ smpMax small.cfg.sampleW) ∧
    (smpMin small.cfg.sampleW ≤ (signed 32767).toInt ∧ (signed 32767).toInt ≤ smpMax small.cfg.sampleW) ∧
    (signed (-32769)).toInt < smpMin small.cfg.sampleW ∧ smpMax small.cfg.sampleW < (signed 32768).toInt := by decide

theorem witness_RdregReadsRegister : (∀ n : Fin 16, ∃ reg : Fin 16, (BitVec.ofNat 64 reg.val).toNat = n.val) ∧
    15 < (16 : Word).toNat := by decide

theorem witness_LdbReadsByte : (19 : Word).toNat < small.cfg.bufBytes ∧ small.cfg.bufBytes ≤ (20 : Word).toNat := by decide

theorem witness_StbStoresOneByte :
    small.Inv ∧ ((19 : Word).toNat < small.cfg.bufBytes ∧ (255 : Word).toNat ≤ 255) ∧
    small.cfg.bufBytes ≤ (20 : Word).toNat ∧ 255 < (256 : Word).toNat := ⟨small_inv, by decide⟩

theorem witness_LdsReadsSample : (3 : Word).toNat < small.cfg.smpElems ∧ small.cfg.smpElems ≤ (4 : Word).toNat := by decide

theorem witness_StsStoresOneSample :
    small.Inv ∧ ((3 : Word).toNat < small.cfg.smpElems ∧ smpMin small.cfg.sampleW ≤ (signed (-32768)).toInt ∧
      (signed (-32768)).toInt ≤ smpMax small.cfg.sampleW) ∧
    small.cfg.smpElems ≤ (4 : Word).toNat ∧ (signed (-32769)).toInt < smpMin small.cfg.sampleW ∧
    smpMax small.cfg.sampleW < (signed 32768).toInt := ⟨small_inv, by decide⟩

/-! ## Witnesses: bit cursor. Position 160 is the end of `BUF`. -/

/-- `small` with the cursor at `p`. -/
abbrev at_ (p : Nat) : State := small.seek p

theorem at_inv {p : Nat} (h : p ≤ 160) : (at_ p).Inv := small_inv.seek h

theorem witness_SetposMovesCursor :
    ((0 : Word).toNat ≤ 7 ∧ 8 * (20 : Word).toNat + (0 : Word).toNat ≤ 8 * small.cfg.bufBytes) ∧ 7 < (8 : Word).toNat ∧
    (1 : Word).toNat ≤ 7 ∧ 8 * small.cfg.bufBytes < 8 * (20 : Word).toNat + (1 : Word).toNat := by decide

theorem witness_WrbitOrsOneBit :
    (at_ 159).Inv ∧ ((1 : Word).toNat ≤ 1 ∧ (at_ 159).pos + 1 ≤ (at_ 159).bufBits) ∧ 1 < (2 : Word).toNat ∧
    (at_ 160).Inv ∧ (at_ 160).bufBits < (at_ 160).pos + 1 :=
  ⟨at_inv (by decide), by decide, by decide, at_inv (by decide), by decide⟩

theorem witness_RdbitReadsOneBit :
    (at_ 159).Inv ∧ (at_ 159).pos + 1 ≤ (at_ 159).bufBits ∧ (at_ 160).Inv ∧ (at_ 160).bufBits < (at_ 160).pos + 1 :=
  ⟨at_inv (by decide), by decide, at_inv (by decide), by decide⟩

theorem witness_WruintOrsField :
    (at_ 96).Inv ∧ ((64 : Word).toNat ≤ 64 ∧ (at_ 96).pos + (64 : Word).toNat ≤ (at_ 96).bufBits) ∧
    64 < (65 : Word).toNat ∧ (at_ 97).Inv ∧ (at_ 97).bufBits < (at_ 97).pos + (64 : Word).toNat ∧
    (at_ 160).pos + (0 : Word).toNat ≤ (at_ 160).bufBits :=
  ⟨at_inv (by decide), by decide, by decide, at_inv (by decide), by decide, by decide⟩

theorem witness_RduintReadsField :
    (at_ 96).Inv ∧ ((64 : Word).toNat ≤ 64 ∧ (at_ 96).pos + (64 : Word).toNat ≤ (at_ 96).bufBits) ∧
    64 < (65 : Word).toNat ∧ (at_ 97).Inv ∧ (at_ 97).bufBits < (at_ 97).pos + (64 : Word).toNat :=
  ⟨at_inv (by decide), by decide, by decide, at_inv (by decide), by decide⟩

theorem witness_WronesOrsRun :
    (at_ 0).Inv ∧ (at_ 0).pos + (160 : Word).toNat ≤ (at_ 0).bufBits ∧
    (at_ 0).bufBits < (at_ 0).pos + (161 : Word).toNat := ⟨at_inv (by decide), by decide⟩

/-- `small` with its last `n` bytes all ones but for the top bit of the last, and the cursor at their start. -/
def onesAtEnd : State := { small with buf := [(18, 0xFF), (19, 0x7F)] }.seek 144

/-- A run that ends on the last bit of `BUF`, and one that no 0 ends. -/
theorem witness_RdunaryReadsRun :
    onesAtEnd.Inv ∧ (onesAtEnd.pos + 15 < onesAtEnd.bufBits ∧ bufBit onesAtEnd.buf (onesAtEnd.pos + 15) = false ∧
      ∀ j, j < 15 → bufBit onesAtEnd.buf (onesAtEnd.pos + j) = true) ∧
    ({ small with buf := [(19, 0xFF)] }.seek 152).Inv ∧
    (∀ j, 152 + j < 160 → bufBit [(19, 0xFF)] (152 + j) = true) := by
  refine ⟨inv_of_check (by decide), ⟨by decide, by decide, by decide⟩, inv_of_check (by decide), fun j hj => ?_⟩
  have : ∀ j, j < 8 → bufBit [(19, 0xFF)] (152 + j) = true := by decide
  exact this j (by omega)

theorem witness_AlignMovesToByteBoundary : (at_ 153).Inv ∧ (at_ 160).Inv ∧ (∃ t, exec .align (at_ 153) = .next t) :=
  ⟨at_inv (by decide), at_inv (by decide), ⟨_, rfl⟩⟩

theorem witness_BitlenIsFloorLog :
    (0 : Word).toNat ≤ 1 ∧ (1 : Word).toNat ≤ 1 ∧ 2 ≤ (2 : Word).toNat ∧ 2 ≤ (0xFFFFFFFFFFFFFFFF : Word).toNat := by decide

theorem witness_WideAccessesEqualSingleBits :
    (at_ 96).Inv ∧ (64 : Word).toNat ≤ 64 ∧ (at_ 96).pos + (64 : Word).toNat ≤ (at_ 96).bufBits :=
  ⟨at_inv (by decide), by decide⟩

/-- The bits of a power-on `BUF` are 0. -/
theorem small_bits (p x : Nat) : bufBit (at_ p).buf x = false := by
  show (0#8).getLsbD _ = false
  simp

theorem witness_ReadAfterWrite :
    (at_ 96).Inv ∧ ((64 : Word).toNat ≤ 64 ∧ (at_ 96).pos + (64 : Word).toNat ≤ (at_ 96).bufBits) ∧
    (at_ 96).pos + (63 : Word).toNat + 1 ≤ (at_ 96).bufBits ∧
    (∀ i, i < (64 : Word).toNat → bufBit (at_ 96).buf ((at_ 96).pos + i) = false) ∧
    ∀ i, i ≤ (63 : Word).toNat → bufBit (at_ 96).buf ((at_ 96).pos + i) = false :=
  ⟨at_inv (by decide), by decide, by decide, fun _ _ => small_bits _ _, fun _ _ => small_bits _ _⟩

/-! ## Witnesses: header, estimator, predictor -/

theorem witness_WrhdrWritesHeader : (at_ 160).Inv := at_inv (by decide)

theorem readState_inv : readState.Inv := inv_of_check (by decide +kernel)

theorem witness_RdhdrReadsHeader :
    (at_ 160).Inv ∧ fieldAt (at_ 160).buf 0 32 ≠ 0x66777462 ∧ readState.Inv ∧ fieldAt readState.buf 0 32 = 0x66777462 :=
  ⟨at_inv (by decide), by decide +kernel, readState_inv, by decide +kernel⟩

theorem witness_HeaderReadsBackAsWritten :
    { small with channels := 65535, bps := 65535 }.Inv ∧
    (∀ a, a < 20 → readByte { small with channels := 65535, bps := 65535 }.buf a = 0) ∧
    (65535 : BitVec 32).toNat < 2 ^ 16 := ⟨inv_of_check (by decide), by decide, by decide⟩

/-- The state of E1, and one in which a block of 512 samples goes outside `SMP`. -/
theorem witness_EstimateComputesParameter :
    estimated.Inv ∧ ((8 : Word).toNat ≤ 512 ∧ (0 : Word).toNat < estimated.channels.toNat ∧
      ∀ i, i < (8 : Word).toNat → ((0 : Word).toNat + i) * estimated.channels.toNat + (0 : Word).toNat < estimated.cfg.smpElems) ∧
    512 < (513 : Word).toNat ∧ estimated.channels.toNat ≤ (1 : Word).toNat ∧
    ((512 : Word).toNat ≤ 512 ∧ 8 < (512 : Word).toNat ∧
      estimated.cfg.smpElems ≤ ((0 : Word).toNat + 8) * estimated.channels.toNat + (0 : Word).toNat ∧
      ∀ j, j < 8 → ((0 : Word).toNat + j) * estimated.channels.toNat + (0 : Word).toNat < estimated.cfg.smpElems) :=
  ⟨inv_of_check (by decide +kernel), by decide, by decide, by decide, by decide⟩

/-- A block whose samples are the ends of the signed range of 8 bits. -/
def eightBit : State :=
  { State.powerOn (inst .w16 32 8) [] (cells 0 0 [-128, 127, -128, 127]) with channels := 1, bps := 8 }

theorem witness_EstimateFitsItsField :
    eightBit.Inv ∧ (∃ t r, exec (.estimate 0 4 0) eightBit = .next t ∧ t.rsp = some r ∧ r.status = 0) ∧
    (eightBit.bps.toNat = 2 ^ 3 ∧ 3 ≤ 5) ∧
    ∀ x ∈ blockSamples eightBit 0 4 0, -(2 ^ (eightBit.bps.toNat - 1)) ≤ x ∧ x < -(2 ^ (eightBit.bps.toNat - 1)) + 2 ^ eightBit.bps.toNat :=
  ⟨inv_of_check (by decide +kernel), answered_with (by decide +kernel), by decide, by decide +kernel⟩

theorem witness_PrdencReturnsDifference :
    small.Inv ∧ (smpMin small.cfg.sampleW ≤ (signed (-32768)).toInt ∧ (signed (-32768)).toInt ≤ smpMax small.cfg.sampleW) ∧
    smpMax small.cfg.sampleW < (signed 32768).toInt ∧ (signed (-32769)).toInt < smpMin small.cfg.sampleW :=
  ⟨small_inv, by decide⟩

/-- From `PREV = -32768`. -/
theorem witness_PrddecReturnsSample :
    (smpMin .w16 ≤ -32768 + (signed 65535).toInt ∧ -32768 + (signed 65535).toInt ≤ smpMax .w16) ∧
    smpMax .w16 < -32768 + (signed 65536).toInt ∧ -32768 + (signed (-1)).toInt < smpMin .w16 := by decide

theorem witness_PredictorInvertsItself :
    small.Inv ∧ (smpMin small.cfg.sampleW ≤ (signed (-32768)).toInt ∧ (signed (-32768)).toInt ≤ smpMax small.cfg.sampleW) ∧
    ∀ x ∈ [signed 32767, signed (-32768)], smpMin small.cfg.sampleW ≤ x.toInt ∧ x.toInt ≤ smpMax small.cfg.sampleW := by
  refine ⟨small_inv, by decide, fun x hx => ?_⟩
  rcases List.mem_pair.mp hx with rfl | rfl <;> decide

/-! ## Witnesses: parameter field and codeword -/

/-- `small` with `BPS = 16` and `K = 64`, the cursor at `p`. -/
abbrev coding (p : Nat) : State := { small with bps := 16, k := 64 }.seek p

theorem coding_inv {p : Nat} (h : p ≤ 160) : (coding p).Inv :=
  State.Inv.seek (s := { small with bps := 16, k := 64 }) (inv_of_check (by decide)) h

theorem witness_WrkWritesParameterField :
    (coding 156).Inv ∧ (coding 156).pos + bitLength (coding 156).bps.toNat ≤ (coding 156).bufBits ∧
    (coding 157).Inv ∧ (coding 157).bufBits < (coding 157).pos + bitLength (coding 157).bps.toNat :=
  ⟨coding_inv (by decide), by decide +kernel, coding_inv (by decide), by decide +kernel⟩

theorem witness_RdkReadsParameterField :
    (coding 156).Inv ∧ (coding 156).pos + bitLength (coding 156).bps.toNat ≤ (coding 156).bufBits ∧
    (coding 157).Inv ∧ (coding 157).bufBits < (coding 157).pos + bitLength (coding 157).bps.toNat :=
  witness_WrkWritesParameterField

/-- The largest codeword of 66 bits ends on the last bit of `BUF`, and does not fit one position later. -/
theorem witness_RencWritesCodeword :
    (coding 94).Inv ∧ ((signed (2 ^ 63 - 1)).toInt ≠ -(2 ^ 63) ∧ (coding 94).k.toNat ≤ 64 ∧
      (coding 94).pos + (2 + (signed (2 ^ 63 - 1)).toInt.natAbs / 2 ^ (coding 94).k.toNat + (coding 94).k.toNat) ≤
        (coding 94).bufBits) ∧
    (signed (-(2 ^ 63))).toInt = -(2 ^ 63) ∧ 64 < ({ coding 94 with k := 65 }).k.toNat ∧ (coding 95).Inv ∧
    (coding 95).bufBits <
      (coding 95).pos + (2 + (signed (2 ^ 63 - 1)).toInt.natAbs / 2 ^ (coding 95).k.toNat + (coding 95).k.toNat) :=
  ⟨coding_inv (by decide), by decide +kernel, by decide +kernel, by decide, coding_inv (by decide), by decide +kernel⟩

/-- `K = 64` on bits that are 0: a codeword that ends on the last bit, one that does not fit, a remainder that is too large,
and no terminator at all. -/
theorem witness_RdecReadsCodeword :
    (coding 94).Inv ∧ 64 < ({ coding 94 with k := 65 }).k.toNat ∧
    ((coding 94).k.toNat ≤ 64 ∧ (coding 94).pos + 1 + 0 < (coding 94).bufBits ∧
      bufBit (coding 94).buf ((coding 94).pos + 1 + 0) = false ∧ (∀ j, j < 0 → bufBit (coding 94).buf ((coding 94).pos + 1 + j) = true)) ∧
    ((coding 94).pos + (2 + 0 + (coding 94).k.toNat) ≤ (coding 94).bufBits ∧
      0 * 2 ^ (coding 94).k.toNat + fieldAt (coding 94).buf ((coding 94).pos + 2 + 0) (coding 94).k.toNat ≤ 2 ^ 63 - 1) ∧
    ((coding 95).Inv ∧ (coding 95).bufBits < (coding 95).pos + (2 + 0 + (coding 95).k.toNat)) ∧
    (({ coding 0 with buf := [(8, 2)] }).Inv ∧ bufBit [(8, 2)] 1 = false ∧
      2 ^ 63 - 1 < 0 * 2 ^ (coding 0).k.toNat + fieldAt [(8, 2)] ((coding 0).pos + 2 + 0) (coding 0).k.toNat) ∧
    ∀ x, (coding 159).pos + 1 ≤ x → x < (coding 159).bufBits → bufBit (coding 159).buf x = true := by
  refine ⟨coding_inv (by decide), by decide, by decide +kernel, by decide +kernel, ⟨coding_inv (by decide), by decide⟩,
    ⟨inv_of_check (by decide), by decide, by decide +kernel⟩, fun x h1 h2 => ?_⟩
  have h1 : 160 ≤ x := h1
  have h2 : x < 160 := h2
  omega

theorem witness_CodewordRoundTrip :
    (coding 94).Inv ∧ (coding 94).k.toNat ≤ 64 ∧ (signed (-(2 ^ 63 - 1))).toInt.natAbs ≤ 2 ^ 63 - 1 ∧
    (coding 94).pos + (2 + (signed (-(2 ^ 63 - 1))).toInt.natAbs / 2 ^ (coding 94).k.toNat + (coding 94).k.toNat) ≤
      (coding 94).bufBits ∧
    ∀ i, i < 66 → bufBit (coding 94).buf ((coding 94).pos + i) = false :=
  ⟨coding_inv (by decide), by decide, by decide +kernel, by decide +kernel, fun _ _ => small_bits 0 _⟩

/-! ## Witnesses: blocks -/

theorem blockState_inv : blockState.Inv := inv_of_check (by decide +kernel)

theorem codedState_inv : codedState.Inv := inv_of_check (by decide +kernel)

/-- The block of program P2, 23 bits, where it just fits, where its last codeword does not, and where its field does not. -/
theorem witness_EncblkWritesRecord :
    (blockState.seek 489).Inv ∧ 512 < (513 : Word).toNat ∧
    ((512 : Word).toNat ≤ 512 ∧ blockState.channels.toNat ≤ (1 : Word).toNat) ∧
    ((17 : Word).toNat ≤ 512 ∧ (0 : Word).toNat < blockState.channels.toNat ∧ 16 < (17 : Word).toNat ∧
      blockState.cfg.smpElems ≤ blockState.smpIndex 16 0 ∧ ∀ j, j < 16 → blockState.smpIndex (0 + j) 0 < blockState.cfg.smpElems) ∧
    (∀ i, i < (4 : Word).toNat → blockState.smpIndex (0 + i) 0 < blockState.cfg.smpElems) ∧
    (blockState.seek 489).pos + (recordBits 4 0 [3, -2, 0, 1]).length ≤ blockState.bufBits ∧
    ((blockState.seek 490).Inv ∧ (blockState.seek 490).pos + (recordBits 4 0 ([3, -2, 0, 1].take 3)).length ≤ blockState.bufBits ∧
      blockState.bufBits < (blockState.seek 490).pos + (recordBits 4 0 ([3, -2, 0, 1].take 4)).length) ∧
    ((blockState.seek 509).Inv ∧ blockState.bufBits < (blockState.seek 509).pos + blockState.bprl) ∧
    blockSamples blockState 0 4 0 = [3, -2, 0, 1] ∧ blockParameter blockState.cfg [3, -2, 0, 1] = 0 ∧ blockState.bprl = 4 :=
  ⟨blockState_inv.seek (by decide), by decide, by decide, by decide, by decide +kernel, by decide +kernel,
    ⟨blockState_inv.seek (by decide), by decide +kernel, by decide +kernel⟩,
    ⟨blockState_inv.seek (by decide), by decide +kernel⟩, by decide +kernel, by decide +kernel, by decide +kernel⟩

/-- `codedState` with other bytes from byte 20 on. -/
def record (bps : BitVec 32) (bs : List Byte) : State := { codedState with buf := cells 0 20 bs, bps := bps }

/-- A codeword whose parts are given, where each is checked. -/
theorem codewordAt_of {m : List Host.Cell} {limit k p : Nat} {d : Int} (q : Nat)
    (h : decide (k ≤ 64 ∧ p + 1 + q < limit ∧ p + (2 + q + k) ≤ limit ∧ magnitudeAt m k p q ≤ 2 ^ 63 - 1) = true)
    (h0 : bufBit m (p + 1 + q) = false) (h1 : ∀ j, j < q → bufBit m (p + 1 + j) = true)
    (hd : d = if bufBit m p then -(magnitudeAt m k p q : Int) else (magnitudeAt m k p q : Int)) :
    CodewordAt m limit k p d (p + (2 + q + k)) := by
  obtain ⟨a1, a2, a3, a4⟩ := of_decide_eq_true h
  exact ⟨a1, q, ⟨a2, h0, h1⟩, rfl, a3, a4, hd⟩

/-- The record of program P2; one sample 0 written with sign 1; the field that fits up to the end of `BUF` and the one
that does not. -/
theorem witness_DecblkReadsRecord :
    codedState.Inv ∧ 512 < (513 : Word).toNat ∧ codedState.channels.toNat ≤ (1 : Word).toNat ∧
    ((17 : Word).toNat ≤ 512 ∧ (0 : Word).toNat < codedState.channels.toNat ∧
      codedState.cfg.smpElems ≤ codedState.smpIndex 16 0 ∧ ∀ j, j < 16 → codedState.smpIndex (0 + j) 0 < codedState.cfg.smpElems) ∧
    (∀ i, i < (16 : Word).toNat → codedState.smpIndex (0 + i) 0 < codedState.cfg.smpElems) ∧
    ((codedState.seek 509).Inv ∧ codedState.bufBits < (codedState.seek 509).pos + codedState.bprl) ∧
    ([3, -2, 0, (1 : Int)].length = (4 : Word).toNat ∧ RecordAt .w16 codedState.buf codedState.bufBits codedState.bprl
      codedState.pos [3, -2, 0, 1] (160 + (recordBits codedState.bprl 0 [3, -2, 0, 1]).length)) ∧
    ((record 16 [0x10]).Inv ∧
      RecordAt .w16 (record 16 [0x10]).buf (record 16 [0x10]).bufBits (record 16 [0x10]).bprl (record 16 [0x10]).pos [0] 166) ∧
    ((∀ x ∈ [3, -2, 0, (1 : Int)], smpMin .w16 ≤ x ∧ x ≤ smpMax .w16) ∧
      bitsAt codedState.buf 160 (recordBits 4 0 [3, -2, 0, 1]).length = recordBits 4 0 [3, -2, 0, 1]) :=
  ⟨codedState_inv, by decide, by decide, by decide, by decide +kernel, ⟨codedState_inv.seek (by decide), by decide +kernel⟩,
    ⟨rfl, (recordAt_of_bits (k := 0) (by decide) (Nat.two_pow_pos _) (by decide) (by decide +kernel) (by decide +kernel)).2⟩,
    ⟨inv_of_check (by decide +kernel), by decide, by decide, _, codewordAt_of 0 (by decide +kernel) (by decide +kernel) (by simp)
      (by decide +kernel), rfl⟩, by decide +kernel, by decide +kernel⟩

/-- The five ways a record stops being one: `K = 65`; `BUF` ends before the sign; `BUF` ends inside the remainder; the
magnitude `2^63`; and, after one sample 32767, the sample 32768. -/
theorem witness_DecblkReadsRecord_faults :
    ((record 128 [65]).Inv ∧ RecordAt .w16 (record 128 [65]).buf 512 (record 128 [65]).bprl 160 [] 167 ∧
      CodewordFault .w16 (record 128 [65]).buf 512 (fieldAt (record 128 [65]).buf 160 7) 167 0 .illegalOperand 65 167) ∧
    ((codedState.seek 508).Inv ∧ RecordAt .w16 codedState.buf 512 4 508 [] 512 ∧
      CodewordFault .w16 codedState.buf 512 (fieldAt codedState.buf 508 4) 512 0 .bufBounds 512 512) ∧
    (RecordAt .w16 [(63, 3)] 512 4 504 [] 508 ∧
      CodewordFault .w16 [(63, 3)] 512 (fieldAt [(63, 3)] 504 4) 508 0 .bufBounds 508 508) ∧
    (RecordAt .w16 [(20, 64), (29, 1)] 512 7 160 [] 167 ∧
      CodewordFault .w16 [(20, 64), (29, 1)] 512 (fieldAt [(20, 64), (29, 1)] 160 7) 167 0 .sampleRange 167 167) ∧
    ((record 16 [0xCF, 0xFF, 0x9F]).Inv ∧ [(32767 : Int)].length < (2 : Word).toNat ∧
      RecordAt .w16 (record 16 [0xCF, 0xFF, 0x9F]).buf 512 4 160 [32767] 181 ∧
      CodewordFault .w16 (record 16 [0xCF, 0xFF, 0x9F]).buf 512 (fieldAt (record 16 [0xCF, 0xFF, 0x9F]).buf 160 4) 181
        (lastSample 0 [32767]) .sampleRange 32768 198) := by
  refine ⟨⟨inv_of_check (by decide +kernel), ⟨by decide +kernel, by show (167 : Nat) = _; decide +kernel⟩,
      .inl (by decide +kernel)⟩,
    ⟨codedState_inv.seek (by decide), ⟨by decide, rfl⟩,
      .inr (.inl ⟨by decide +kernel, fun x h1 h2 => by omega, rfl, rfl, rfl⟩)⟩,
    ⟨⟨by decide, rfl⟩, .inr (.inr (.inl ⟨by decide +kernel, 0, ⟨by decide, by decide +kernel, by simp⟩, by decide +kernel,
      rfl, rfl, rfl⟩))⟩,
    ⟨⟨by decide, rfl⟩, .inr (.inr (.inr (.inl ⟨by decide +kernel, 0, ⟨by decide, by decide +kernel, by simp⟩,
      by decide +kernel, by decide +kernel, rfl, rfl, rfl⟩)))⟩,
    ⟨inv_of_check (by decide +kernel), by decide, ⟨by decide, by decide, _, codewordAt_of 0 (by decide +kernel)
      (by decide +kernel) (by simp) (by decide +kernel), by show (181 : Nat) = _; decide +kernel⟩,
      .inr (.inr (.inr (.inr ⟨1, codewordAt_of 0 (by decide +kernel) (by decide +kernel) (by simp) (by decide +kernel),
        by decide, rfl, by decide⟩)))⟩⟩

theorem witness_BlockRoundTrip :
    blockState.Inv ∧ (∃ r, exec (.encblk 0 4 0) blockState = .next (after (.encblk 0 4 0) blockState) ∧
      (after (.encblk 0 4 0) blockState).rsp = some r ∧ r.status = 0) ∧
    (∀ x, bufBit blockState.buf x = false) ∧ (after (.encblk 0 4 0) blockState).k.toNat < 2 ^ blockState.bprl ∧
    (codedState).Inv ∧ codedState.cfg = blockState.cfg ∧ codedState.channels = blockState.channels ∧
    codedState.bps = blockState.bps ∧ codedState.pos = blockState.pos ∧
    codedState.buf = (after (.encblk 0 4 0) blockState).buf := by
  refine ⟨blockState_inv, ?_, fun x => by show (0#8).getLsbD _ = false; simp, by decide +kernel, codedState_inv, rfl, rfl, rfl, rfl,
    by decide +kernel⟩
  obtain ⟨t, r, h1, h2, h3⟩ := answered_with (i := .encblk 0 4 0) (s := blockState) (c := 0) (by decide +kernel)
  have : after (.encblk 0 4 0) blockState = t := by unfold after; rw [h1]; rfl
  exact ⟨r, by rw [this]; exact h1, by rw [this]; exact h2, h3⟩

/-- Both divisors, and a silent block. -/
theorem witness_RecordSizeIsBounded :
    blockState.Inv ∧ (∃ t r, exec (.encblk 0 4 0) blockState = .next t ∧ t.rsp = some r ∧ r.status = 0) ∧
    blockState.cfg.estDiv = .nominal ∧
    (let s := { blockState with cfg := { blockState.cfg with estDiv := .actual } }
     s.Inv ∧ (∃ t r, exec (.encblk 0 1 0) s = .next t ∧ t.rsp = some r ∧ r.status = 0) ∧ 1 ≤ (1 : Word).toNat) ∧
    (∃ t r, exec (.encblk 4 12 0) blockState = .next t ∧ t.rsp = some r ∧ r.status = 0) ∧
    ∀ x ∈ blockSamples blockState 4 12 0, x = 0 :=
  ⟨blockState_inv, answered_with (by decide +kernel), rfl,
    ⟨inv_of_check (by decide +kernel), answered_with (by decide +kernel), by decide⟩, answered_with (by decide +kernel),
    by decide +kernel⟩

/-! ## Witnesses: streams. The stream of program P3 has 196 bits. -/

theorem streamState_inv : (streamState 25).Inv ∧ (streamState 24).Inv :=
  ⟨inv_of_check (by decide +kernel), inv_of_check (by decide +kernel)⟩

theorem streamState_ready (n : Nat) : (streamState n).channels ≠ 0 ∧ (streamState n).bps ≠ 0 ∧ (streamState n).rate ≠ 0 ∧
    (streamState n).count ≠ 0 ∧ (streamState n).count.toNat * (streamState n).channels.toNat ≤ (streamState n).cfg.smpElems := by
  refine ⟨?_, ?_, ?_, ?_, Nat.le_refl 6⟩ <;> simp [streamState]

theorem witness_EncodeWritesStream : (streamState 25).Inv ∧ (streamState 25).encodedStream.length ≤ (streamState 25).bufBits :=
  ⟨streamState_inv.1, by decide +kernel⟩

theorem witness_EncodeKeepsPrefixWhenFull :
    (streamState 24).Inv ∧ (streamState 24).bufBits < (streamState 24).encodedStream.length :=
  ⟨streamState_inv.2, by decide +kernel⟩

/-- A machine whose `BUF` holds a header with these low bytes. -/
def header (channels bps rate count : Byte) : State :=
  State.powerOn (inst .w16 25 6)
    (cells 0 0 [0x62, 0x74, 0x77, 0x66, count, 0, 0, 0, 0, 0, 0, 0, channels, 0, bps, 0, rate, 0, 0, 0]) []

/-- The five refusals, on the registers and on a header. -/
theorem witness_StreamCommandsCheckParameters :
    ({ streamState 25 with channels := 0 }.channels.toNat = 0 ∧ { streamState 25 with bps := 0 }.bps.toNat = 0 ∧
      { streamState 25 with rate := 0 }.rate.toNat = 0 ∧ { streamState 25 with count := 0 }.count.toNat = 0 ∧
      (streamState 25).channels.toNat ≠ 0 ∧ (streamState 25).bps.toNat ≠ 0 ∧ (streamState 25).rate.toNat ≠ 0 ∧
      (streamState 25).cfg.smpElems < { streamState 25 with count := 4 }.count.toNat * (streamState 25).channels.toNat) ∧
    ((fieldAt (header 0 1 1 1).buf 0 32 = 0x66777462 ∧ fieldAt (header 0 1 1 1).buf 96 16 = 0) ∧
      fieldAt (header 1 0 1 1).buf 112 16 = 0 ∧ fieldAt (header 1 1 0 1).buf 128 32 = 0 ∧
      fieldAt (header 1 1 1 0).buf 32 64 = 0 ∧
      6 < fieldAt (header 1 1 1 7).buf 32 64 * fieldAt (header 1 1 1 7).buf 96 16 ∧ invOk (header 1 1 1 7) = true) := by
  refine ⟨by decide, by decide +kernel⟩

theorem witness_WrongMagicIsOutcomeOrFault : small.Inv ∧ fieldAt small.buf 0 32 ≠ 0x66777462 :=
  ⟨small_inv, by decide +kernel⟩

/-- The stream of program P3 stands in `readState`. -/
theorem witness_DecodeReadsStream :
    readState.Inv ∧ fieldAt readState.buf 0 32 = 0x66777462 ∧ fieldAt readState.buf 32 64 = 3 ∧
    fieldAt readState.buf 96 16 = 2 ∧ fieldAt readState.buf 112 16 = 16 ∧ fieldAt readState.buf 128 32 = 44100 ∧
    3 * 2 ≤ readState.cfg.smpElems ∧
    (∃ start, PayloadAt .w16 readState.buf readState.bufBits readState.cfg.decAlign (bitLength 16) 3 2
      (streamState 25).sampleOf start (blockCount 3) 0) ∧
    (streamBits false 3 2 16 44100 (fun _ _ => 0) (streamState 25).sampleOf).length ≤ readState.bufBits ∧
    bitsAt readState.buf 0 (streamBits false 3 2 16 44100 (fun _ _ => 0) (streamState 25).sampleOf).length =
      streamBits false 3 2 16 44100 (fun _ _ => 0) (streamState 25).sampleOf :=
  ⟨readState_inv, by decide +kernel, by decide +kernel, by decide +kernel, by decide +kernel, by decide +kernel, by decide,
    ⟨_, (payloadAt_of_bits (k := fun _ _ => 0) rfl (fun f c _ _ => streamState_inv.1.holdsSample_read _)
      (fun _ _ _ _ => ⟨Nat.two_pow_pos _, by decide⟩) (by decide +kernel) (by decide +kernel)).1⟩, by decide +kernel,
    by decide +kernel⟩

/-- The header alone in 20 bytes: no room for the first `K` field. -/
def headerOnly : State := State.powerOn (inst .w16 20 6) (cells 0 0 (streamBytes.take 20)) []

/-- The first 24 bytes of the stream of program P3 (F-S13). -/
def shortStream : State := State.powerOn (inst .w16 24 6) (cells 0 0 (streamBytes.take 24)) [(5, 9)]

/-- A `K` field that does not fit, and a codeword that does not, the third of the second record. -/
theorem witness_DecodeReadsStream_faults :
    (headerOnly.Inv ∧ fieldAt headerOnly.buf 0 32 = 0x66777462 ∧ 0 < blockCount (fieldAt headerOnly.buf 32 64) ∧
      0 < fieldAt headerOnly.buf 96 16 ∧
      PayloadAt .w16 headerOnly.buf 160 false 4 3 2 (streamState 25).sampleOf (fun _ _ => 160) 0 0 ∧
      headerOnly.bufBits < 160 + bitLength (fieldAt headerOnly.buf 112 16)) ∧
    shortStream.Inv ∧ fieldAt shortStream.buf 0 32 = 0x66777462 ∧
    ∃ start : Nat → Nat → Nat, PayloadAt .w16 shortStream.buf 192 false 4 3 2 (streamState 25).sampleOf start 0 1 ∧
      2 < blockFrames 3 0 ∧
      RecordAt .w16 shortStream.buf 192 4 (start 0 1) ((framesOfBlock 3 (fun f => (streamState 25).sampleOf f 1) 0).take 2) 191 ∧
      CodewordFault .w16 shortStream.buf 192 (fieldAt shortStream.buf (start 0 1) 4) 191 (-3) .bufBounds 191 191 := by
  refine ⟨⟨inv_of_check (by decide +kernel), by decide +kernel, by decide +kernel, by decide +kernel,
    ⟨rfl, fun b c _ h => by omega, fun b h => by omega⟩, by decide +kernel⟩, inv_of_check (by decide +kernel),
    by decide +kernel, fun _ c => 160 + 20 * c, ⟨rfl, fun b c _ h => ?_, fun b h => by omega⟩, by decide, ?_,
    .inr (.inl ⟨by decide +kernel, fun x h1 h2 => by omega, rfl, rfl, rfl⟩)⟩
  · obtain ⟨rfl, rfl⟩ : b = 0 ∧ c = 0 := by omega
    exact (recordAt_of_bits (k := 0) (by decide) (by decide) (by decide +kernel) (by decide +kernel) (by decide +kernel)).2
  · exact (recordAt_of_bits (k := 0) (by decide) (by decide) (by decide +kernel) (by decide +kernel) (by decide +kernel)).2

theorem witness_StreamRoundTrip :
    (streamState 25).Inv ∧ (∃ t r, exec .encode (streamState 25) = .next t ∧ t.rsp = some r ∧ r.status = 0 ∧
      ∀ a, a < r.r0.toNat → readByte readState.buf a = readByte t.buf a) ∧
    (streamState 25).cfg.encAlign = (streamState 25).cfg.decAlign ∧ (streamState 25).channels.toNat < 2 ^ 16 ∧
    (streamState 25).bps.toNat < 2 ^ 16 ∧
    (∀ b, b < 1 → ∀ c, c < 2 → (streamState 25).parameterOf b c < 2 ^ (streamState 25).bprl) ∧
    readState.Inv ∧ readState.cfg = (streamState 25).cfg := by
  refine ⟨streamState_inv.1, ?_, rfl, by decide, by decide, by decide +kernel, readState_inv, rfl⟩
  obtain ⟨t, r, h1, h2, h3⟩ := answered_with (i := .encode) (s := streamState 25) (c := 0) (by decide +kernel)
  have ht : after .encode (streamState 25) = t := by unfold after; rw [h1]; rfl
  have hb : (after .encode (streamState 25)).buf = readState.buf := by decide +kernel
  exact ⟨t, r, h1, h2, h3, fun a _ => by rw [← ht, hb]⟩

theorem witness_StreamCommandsIgnoreOldRegisters :
    let s := streamState 25
    let u := { s with curByte := 25, curBit := 0, k := 64, prev := -1, acc := 7, avg := 7 }
    u = { s with curByte := u.curByte, curBit := u.curBit, k := u.k, prev := u.prev, acc := u.acc, avg := u.avg } := rfl

end Sys2Proof.Tests
end

section
/-! PROOF. The initial states meet the invariant (10_state.md R22, R26, R27, R34, R43). -/

namespace Sys2Proof.Machine

/-- The registers start inside their ranges, so power-on owes the invariant only what it takes as an argument: a legal
instance and contents of the memories that the rules allow (R44). -/
theorem State.powerOn_inv {cfg : Config} {buf : List Host.Cell} {smp : List (Nat × Int)} (hcfg : cfg.legal = true)
    (hbuf : Memory.within 0#8 cfg.bufBytes buf = true) (hsmp : Memory.within 0 cfg.smpElems smp = true)
    (hsamples : (smp.all fun c => inContainer cfg.sampleW c.2) = true) : (State.powerOn cfg buf smp).Inv where
  cfg := hcfg
  cursor := Nat.zero_le _
  prev := inContainer_zero cfg.sampleW
  acc := Nat.zero_le _
  avg := Nat.two_pow_pos 32
  log := rfl
  buf := hbuf
  smp := hsmp
  samples := hsamples

theorem Config.programInstance_legal : Config.programInstance.legal = true := by decide

/-- Settles O11: `State.reset` is power-on of a legal instance with empty memories, so one lemma gives both parts. -/
theorem initialStatesMeetInvariant : Obligations.InitialStatesMeetInvariant :=
  ⟨State.powerOn_inv Config.programInstance_legal rfl rfl rfl, fun _ _ _ => State.powerOn_inv⟩

end Sys2Proof.Machine
end

section
/-! PROOF. What a step does with the host's next word, the registers after power-on and `RESET`, and the invariant along
every step (10_state.md R22, R24, R26, R27, R34, R37, R38, R43, R45; 30_encoding.md R74). -/

namespace Sys2Proof.Machine

variable {s : State} {w : CommandWord} {rest : List CommandWord}

/-! ## The three ways a step goes -/

theorem fetch_of_pending_nil (hp : s.pending = []) : fetch s = none := by
  simp only [fetch, hp]

theorem fetch_of_pending_cons (hp : s.pending = w :: rest) : fetch s = some (w, { s with pending := rest }) := by
  simp only [fetch, hp]

theorem step_of_pending_nil (hp : s.pending = []) : step s = await s := by
  simp only [step, fetch_of_pending_nil hp]

theorem step_of_decode_ok {i : Instr} (hp : s.pending = w :: rest) (hd : decode w = .ok i) :
    step s = exec i { s with pending := rest } := by
  simp only [step, fetch_of_pending_cons hp, hd]

theorem step_of_decode_error {e : DecodeError} (hp : s.pending = w :: rest) (hd : decode w = .error e) :
    step s = rejectWord e { s with pending := rest } := by
  simp only [step, fetch_of_pending_cons hp, hd]

/-- Settles O5. -/
theorem stepRunsDecodedCommand : Obligations.StepRunsDecodedCommand := fun _ _ _ _ => step_of_decode_ok

/-- Settles O6: `await` is the state itself with the response field emptied. -/
theorem stepWithoutCommandWaits : Obligations.StepWithoutCommandWaits := fun _ hp => step_of_pending_nil hp

/-! ## Reset -/

theorem exec_reset (s : State) : exec .reset s = .next (s.resetRegisters.answered (okResponse 0 0)) := rfl

/-- Settles O9. `RESET` is power-on that keeps the configuration, the memories and the model's own two fields, so the
register values are shown once, for power-on with any value of those two fields. -/
theorem resetValuesOfRegisters : Obligations.ResetValuesOfRegisters := by
  unfold Obligations.ResetValuesOfRegisters
  intro atReset
  have hvalues (cfg : Config) (buf : List Host.Cell) (smp : List (Nat × Int)) (pending : List CommandWord)
      (rsp : Option Response) : atReset { State.powerOn cfg buf smp with pending := pending, rsp := rsp } := by
    refine ⟨rfl, rfl, rfl, rfl, rfl, rfl, rfl, rfl, rfl, rfl, rfl, rfl, rfl, ?_⟩
    rintro ⟨hchannels, -⟩
    exact hchannels rfl
  exact ⟨fun cfg buf smp => hvalues cfg buf smp [] none,
    fun s => ⟨_, exec_reset s, hvalues s.cfg s.buf s.smp s.pending (some (okResponse 0 0))⟩⟩

/-! ## The invariant along a step

Laws/Inv.lean has it for the body of every command; what is left is how a command ends and how a step comes to it. -/

theorem opRdreg_state (reg : Word) (s : State) : (opRdreg reg s).state = s := by
  unfold opRdreg; split <;> rfl

theorem opLdb_state (addr : Word) (s : State) : (opLdb addr s).state = s := by
  unfold opLdb; split <;> rfl

theorem opLds_state (index : Word) (s : State) : (opLds index s).state = s := by
  unfold opLds; split <;> rfl

theorem State.Inv.withPending (h : s.Inv) (words : List CommandWord) : State.Inv { s with pending := words } :=
  { h with }

theorem State.Inv.withRsp (h : s.Inv) (r : Option Response) : State.Inv { s with rsp := r } := { h with }

/-- Neither a response nor the fault log can break the invariant, so it is enough that the body keeps it. -/
theorem Ends.inv {o : Host.Outcome State Fault Refusal} {t : State} (ho : Ends o State.Inv) (ht : o = .next t) :
    t.Inv := by
  obtain ⟨u, hu, ⟨r0, r1, rfl⟩ | ⟨c, info, rfl⟩⟩ := ho
  · cases ht; exact hu.answered _
  · cases ht; exact hu.faulted c info

theorem exec_ends_inv (h : s.Inv) (i : Instr) : Ends (exec i s) State.Inv := by
  cases i with
  | reset => rw [exec_reset]; exact ⟨_, h.resetRegisters, .inl ⟨0, 0, rfl⟩⟩
  | wrreg reg value => exact respond_ends (opWrreg_inv h reg value)
  | rdreg reg => exact respond_ends (by rw [opRdreg_state]; exact h)
  | ldb addr => exact respond_ends (by rw [opLdb_state]; exact h)
  | stb addr byte => exact respond_ends (opStb_inv h addr byte)
  | lds index => exact respond_ends (by rw [opLds_state]; exact h)
  | sts index sample => exact respond_ends (opSts_inv h index sample)
  | setpos byte bit => exact respond_ends (opSetpos_inv h _ _)
  | getpos => exact ⟨s, h, .inl ⟨_, _, rfl⟩⟩
  | wrbit v => exact respond_ends (opWrbit_inv h _)
  | rdbit => exact respond_ends (takeBits_inv h 1)
  | wruint width value => exact respond_ends (opWruint_inv h _ _)
  | rduint width => exact respond_ends (opRduint_inv h _)
  | wrones count => exact respond_ends (opWrones_inv h _)
  | rdunary => exact respond_ends (opRdunary_inv h)
  | align => exact respond_ends (opAlign_inv h)
  | bitlen n => exact ⟨s, h, .inl ⟨_, _, rfl⟩⟩
  | wrhdr => exact respond_ends (opWrhdr_inv h)
  | rdhdr => exact respond_ends (opRdhdr_inv h)
  | estimate frame0 n ch => exact respond_ends (opEstimate_inv h _ _ _)
  | prdrst => exact ⟨_, h.withPrev (inContainer_zero _), .inl ⟨0, 0, rfl⟩⟩
  | prdenc sample => exact respond_ends (opPrdenc_inv h sample)
  | prddec diff => exact respond_ends (opPrddec_inv h diff)
  | wrk => exact respond_ends (opWrk_inv h)
  | rdk => exact respond_ends (opRdk_inv h)
  | renc diff => exact respond_ends (opRenc_inv h diff)
  | rdec => exact respond_ends (opRdec_inv h)
  | encblk frame0 n ch => exact respond_ends (opEncblk_inv h _ _ _)
  | decblk frame0 n ch => exact respond_ends (opDecblk_inv h _ _ _)
  | encode => exact respond_ends (opEncode_inv h)
  | decode => exact respond_ends (opDecode_inv h)

theorem rejectWord_ends {P : State → Prop} (e : DecodeError) (h : P s) : Ends (rejectWord e s) P :=
  ⟨s, h, .inr ⟨_, _, rfl⟩⟩

/-- Settles O12, by whether a word is issued and whether it is a command. -/
theorem everyStepKeepsInvariant : Obligations.EveryStepKeepsInvariant := by
  intro s t h ht
  cases hp : s.pending with
  | nil =>
    rw [stepWithoutCommandWaits s hp] at ht
    cases ht
    exact h.withRsp none
  | cons w rest =>
    have htaken : State.Inv { s with pending := rest } := h.withPending rest
    cases hd : decode w with
    | ok i =>
      rw [step_of_decode_ok hp hd] at ht
      exact (exec_ends_inv htaken i).inv ht
    | error e =>
      rw [step_of_decode_error hp hd] at ht
      exact (rejectWord_ends e htaken).inv ht

end Sys2Proof.Machine
end

section
/-! PROOF. Command words: the decoder against the encoder and the opcode map, and what the core does with a word that is
no command or whose operands are out of range (30_encoding.md R70, R71, R73, R74, R75). -/

namespace Sys2Proof.Machine

/-! ## The opcode map -/

/-- The map undoes the encoder's fields: the family `FieldRoundTrip`, one member per constructor. -/
theorem fieldRoundTrip (i : Instr) : Laws.FieldRoundTrip.Statement i := by
  cases i with
  | reset => exact Laws.FieldRoundTrip.reset
  | wrreg reg value => exact Laws.FieldRoundTrip.wrreg reg value
  | rdreg reg => exact Laws.FieldRoundTrip.rdreg reg
  | ldb addr => exact Laws.FieldRoundTrip.ldb addr
  | stb addr byte => exact Laws.FieldRoundTrip.stb addr byte
  | lds index => exact Laws.FieldRoundTrip.lds index
  | sts index sample => exact Laws.FieldRoundTrip.sts index sample
  | setpos byte bit => exact Laws.FieldRoundTrip.setpos byte bit
  | getpos => exact Laws.FieldRoundTrip.getpos
  | wrbit v => exact Laws.FieldRoundTrip.wrbit v
  | rdbit => exact Laws.FieldRoundTrip.rdbit
  | wruint width value => exact Laws.FieldRoundTrip.wruint width value
  | rduint width => exact Laws.FieldRoundTrip.rduint width
  | wrones count => exact Laws.FieldRoundTrip.wrones count
  | rdunary => exact Laws.FieldRoundTrip.rdunary
  | align => exact Laws.FieldRoundTrip.align
  | bitlen n => exact Laws.FieldRoundTrip.bitlen n
  | wrhdr => exact Laws.FieldRoundTrip.wrhdr
  | rdhdr => exact Laws.FieldRoundTrip.rdhdr
  | estimate frame0 n ch => exact Laws.FieldRoundTrip.estimate frame0 n ch
  | prdrst => exact Laws.FieldRoundTrip.prdrst
  | prdenc sample => exact Laws.FieldRoundTrip.prdenc sample
  | prddec diff => exact Laws.FieldRoundTrip.prddec diff
  | wrk => exact Laws.FieldRoundTrip.wrk
  | rdk => exact Laws.FieldRoundTrip.rdk
  | renc diff => exact Laws.FieldRoundTrip.renc diff
  | rdec => exact Laws.FieldRoundTrip.rdec
  | encblk frame0 n ch => exact Laws.FieldRoundTrip.encblk frame0 n ch
  | decblk frame0 n ch => exact Laws.FieldRoundTrip.decblk frame0 n ch
  | encode => exact Laws.FieldRoundTrip.encode
  | decode => exact Laws.FieldRoundTrip.decode

theorem decode_packFields (op : Opcode) (a0 a1 a2 : Word) :
    decode (packFields op a0 a1 a2) = decodeFields op a0 a1 a2 := by
  simp only [decode, opField_packFields, a0Field_packFields, a1Field_packFields, a2Field_packFields]

/-- Settles O2: packing loses no field, and on fields the map undoes the encoder. -/
theorem decodeEncodeIsIdentity : Obligations.DecodeEncodeIsIdentity := by
  intro i
  rw [encode, decode_packFields]
  exact fieldRoundTrip i

/-- Settles O1: each word is closed, so the decoder computes the command. -/
theorem decodeReadsSpecWords : Obligations.DecodeReadsSpecWords :=
  ⟨rfl, rfl, rfl, rfl, rfl, rfl, rfl, rfl, rfl⟩

section

variable {op : Opcode} {a0 a1 a2 : Word} {i : Instr}

/-! ## Used and unused operand fields

How many operand fields a command uses is the number of its `operandValues`: `a0` is used from 1 on, `a1` from 2,
`a2` from 3. -/

/-- The encoder writes what the map has read, and 0 where the command uses no field. -/
theorem encodeFields_of_decodeFields (h : decodeFields op a0 a1 a2 = .ok i) :
    encodeFields i = (op, if 1 ≤ (operandValues i).length then a0 else 0,
      if 2 ≤ (operandValues i).length then a1 else 0, if 3 ≤ (operandValues i).length then a2 else 0) := by
  unfold decodeFields at h
  split at h <;> cases h <;> rfl

/-- The map does not look at an unused field: anything may stand in its place. -/
theorem decodeFields_encodeFields_of_unused (i : Instr) (b0 b1 b2 : Word) :
    decodeFields (encodeFields i).1 (if 1 ≤ (operandValues i).length then (encodeFields i).2.1 else b0)
      (if 2 ≤ (operandValues i).length then (encodeFields i).2.2.1 else b1)
      (if 3 ≤ (operandValues i).length then (encodeFields i).2.2.2 else b2) = .ok i := by
  cases i <;> rfl

theorem ite_ite_of_imp_eq {used : Prop} [Decidable used] {a b : Word} (h : used → b = a) :
    (if used then (if used then a else 0) else b) = b := by
  split
  next hu => exact (h hu).symm
  next => rfl

theorem decodeFields_of_used_fields_eq {b0 b1 b2 : Word} (h : decodeFields op a0 a1 a2 = .ok i)
    (h0 : 1 ≤ (operandValues i).length → b0 = a0) (h1 : 2 ≤ (operandValues i).length → b1 = a1)
    (h2 : 3 ≤ (operandValues i).length → b2 = a2) : decodeFields op b0 b1 b2 = .ok i := by
  have hb := decodeFields_encodeFields_of_unused i b0 b1 b2
  simp only [encodeFields_of_decodeFields h] at hb
  rwa [ite_ite_of_imp_eq h0, ite_ite_of_imp_eq h1, ite_ite_of_imp_eq h2] at hb

/-- Settles O3. -/
theorem unusedFieldsAreIgnored : Obligations.UnusedFieldsAreIgnored := by
  intro w i h
  have hfields := encodeFields_of_decodeFields h
  refine ⟨fun v hop h0 h1 h2 => ?_, ?_⟩
  · rw [decode, hop]
    exact decodeFields_of_used_fields_eq h h0 h1 h2
  · simp only [encode, hfields, opField_packFields, a0Field_packFields, a1Field_packFields, a2Field_packFields, and_self]

/-! ## Reserved opcodes (R74) -/

/-- The opcode alone decides whether a word is a command (R70). -/
theorem decodeFields_isOk (op : Opcode) (a0 a1 a2 : Word) :
    (decodeFields op a0 a1 a2).isOk = (decodeFields op 0 0 0).isOk := by
  unfold decodeFields
  split <;> rfl

theorem decodeFields_isOk_eq_false_iff : ∀ op : Opcode, (decodeFields op 0 0 0).isOk = false ↔
    (op.toNat = 0x00 ∨ (0x08 ≤ op.toNat ∧ op.toNat ≤ 0x0F) ∨ (0x1A ≤ op.toNat ∧ op.toNat ≤ 0x1F) ∨
      (0x22 ≤ op.toNat ∧ op.toNat ≤ 0x2F) ∨ (0x34 ≤ op.toNat ∧ op.toNat ≤ 0x3F) ∨
      (0x44 ≤ op.toNat ∧ op.toNat ≤ 0x4F) ∨ (0x52 ≤ op.toNat ∧ op.toNat ≤ 0x5F) ∨ 0x62 ≤ op.toNat) := by
  decide

theorem exists_decode_error_iff {w : CommandWord} :
    (∃ e, decode w = .error e) ↔ (decodeFields (opField w) 0 0 0).isOk = false := by
  rw [← decodeFields_isOk (opField w) (a0Field w) (a1Field w) (a2Field w), ← decode]
  cases decode w with
  | ok i => simp [Except.isOk, Except.toBool]
  | error e => simp [Except.isOk, Except.toBool]

theorem decodeError_eq {e : DecodeError} (h : decodeFields op a0 a1 a2 = .error e) : e = .reservedOpcode op := by
  unfold decodeFields at h
  split at h <;> cases h
  rfl

theorem rejectWord_reservedOpcode (op : Opcode) (s : State) :
    rejectWord (.reservedOpcode op) s = .next (s.faulted .illegalCommand (op.setWidth 64)) := by
  rw [rejectWord, takeFault_eq, word, BitVec.ofNat_toNat]

/-- Settles O4. -/
theorem reservedOpcodesRaiseIllegalCommand : Obligations.ReservedOpcodesRaiseIllegalCommand := by
  have hiff (w : CommandWord) := exists_decode_error_iff.trans (decodeFields_isOk_eq_false_iff (opField w))
  refine ⟨hiff, fun s w rest hp ⟨e, he⟩ => ?_, (hiff 0).mpr (.inl rfl)⟩
  rw [step_of_decode_error hp he, decodeError_eq he, rejectWord_reservedOpcode]

end

/-! ## Operands out of range (R71)

A body checks the ranges of `Instr.wellFormed` before it changes anything, though not always first (`STB` looks at the
address before the byte), so what is common to all of them is that they fault in the state they began in. -/

section

variable {α : Type} {s : State}

/-- The body ends in a fault and has changed nothing. -/
def Done.Refuses (d : Done α) (s : State) : Prop := ∃ c info, d = .raised c info s

theorem Done.refuses_raised (c : Cause) (info : Word) (s : State) : (Done.raised c info s : Done α).Refuses s :=
  ⟨c, info, rfl⟩

/-- How a command ends whose body refuses. -/
theorem respond_of_refuses {d : Done α} {r0 r1 : α → Word} (h : d.Refuses s) :
    ∃ c info, respond r0 r1 d = .next (s.faulted c info) := by
  obtain ⟨c, info, rfl⟩ := h
  exact ⟨c, info, respond_raised r0 r1 c info s⟩

theorem causeCode_ne_zero (c : Cause) : causeCode c ≠ 0 := by cases c <;> decide

/-- What `WRREG` accepts for a register is in the ranges of R101. -/
theorem wrregLegal_of_regAccepts {reg value : Word} {r : Reg} (hr : regOfNumber reg.toNat = some r)
    (h : regAccepts s value r = true) : wrregLegal reg value = true := by
  unfold regOfNumber at hr
  split at hr <;> cases hr <;> simp_all [regAccepts, wrregLegal, fits32, fitsRegister32]

theorem opWrreg_refuses {reg value : Word} (h : wrregLegal reg value = false) : (opWrreg reg value s).Refuses s := by
  unfold opWrreg
  split
  · exact Done.refuses_raised _ _ s
  next r hr =>
    split
    · have hvalue : ¬regAccepts s value r = true := fun hv => by simp [wrregLegal_of_regAccepts hr hv] at h
      rw [if_neg hvalue]
      exact Done.refuses_raised _ _ s
    · exact Done.refuses_raised _ _ s

theorem regOfNumber_of_gt {n : Nat} (h : 15 < n) : regOfNumber n = none := by
  unfold regOfNumber
  split
  case h_17 => rfl
  all_goals omega

theorem opRdreg_of_gt {reg : Word} (h : 15 < reg.toNat) : opRdreg reg s = .raised .illegalOperand reg s := by
  rw [opRdreg, regOfNumber_of_gt h]

theorem opStb_refuses {addr byte : Word} (h : 255 < byte.toNat) : (opStb addr byte s).Refuses s := by
  unfold opStb
  split
  · rw [if_neg (Nat.not_le.mpr h)]
    exact Done.refuses_raised _ _ s
  · exact Done.refuses_raised _ _ s

theorem opSetpos_of_bit_gt {bit : Nat} (h : 7 < bit) (byte : Nat) :
    opSetpos byte bit s = .raised .illegalOperand (word bit) s := if_neg (Nat.not_le.mpr h)

theorem opWrbit_of_gt {v : Nat} (h : 1 < v) : opWrbit v s = .raised .illegalOperand (word v) s :=
  if_neg (Nat.not_le.mpr h)

theorem opWruint_of_width_gt {width : Nat} (h : 64 < width) (value : Nat) :
    opWruint width value s = .raised .illegalOperand (word width) s := if_neg (Nat.not_le.mpr h)

theorem opRduint_of_width_gt {width : Nat} (h : 64 < width) :
    opRduint width s = .raised .illegalOperand (word width) s := if_neg (Nat.not_le.mpr h)

theorem opEstimate_of_n_gt {n : Nat} (h : 512 < n) (frame0 ch : Nat) :
    opEstimate frame0 n ch s = .raised .illegalOperand (word n) s := if_neg (Nat.not_le.mpr h)

theorem opEncblk_of_n_gt {n : Nat} (h : 512 < n) (frame0 ch : Nat) :
    opEncblk frame0 n ch s = .raised .illegalOperand (word n) s := if_neg (Nat.not_le.mpr h)

theorem opDecblk_of_n_gt {n : Nat} (h : 512 < n) (frame0 ch : Nat) :
    opDecblk frame0 n ch s = .raised .illegalOperand (word n) s := if_neg (Nat.not_le.mpr h)

/-- R157 refuses the one difference whose magnitude does not fit. -/
theorem opRenc_of_eq_intMin {diff : Word} (h : diff = BitVec.intMin 64) :
    opRenc diff s = .raised .illegalOperand diff s := by
  have hmin : sext64 diff = -(2 ^ 63) := by rw [h]; rfl
  exact if_pos hmin

theorem lt_of_decide_le_eq_false {m n : Nat} (h : decide (m ≤ n) = false) : n < m :=
  Nat.not_le.mp (of_decide_eq_false h)

/-- An ill-formed command ends in a fault on the state it began in. -/
theorem exec_illFormed {i : Instr} (h : i.wellFormed = false) (s : State) :
    ∃ c info, exec i s = .next (s.faulted c info) := by
  cases i with
  | wrreg reg value => exact respond_of_refuses (opWrreg_refuses h)
  | rdreg reg => exact respond_of_refuses ⟨_, _, opRdreg_of_gt (lt_of_decide_le_eq_false h)⟩
  | stb addr byte => exact respond_of_refuses (opStb_refuses (lt_of_decide_le_eq_false h))
  | setpos byte bit => exact respond_of_refuses ⟨_, _, opSetpos_of_bit_gt (lt_of_decide_le_eq_false h) _⟩
  | wrbit v => exact respond_of_refuses ⟨_, _, opWrbit_of_gt (lt_of_decide_le_eq_false h)⟩
  | wruint width value => exact respond_of_refuses ⟨_, _, opWruint_of_width_gt (lt_of_decide_le_eq_false h) _⟩
  | rduint width => exact respond_of_refuses ⟨_, _, opRduint_of_width_gt (lt_of_decide_le_eq_false h)⟩
  | estimate frame0 n ch => exact respond_of_refuses ⟨_, _, opEstimate_of_n_gt (lt_of_decide_le_eq_false h) _ _⟩
  | renc diff => exact respond_of_refuses ⟨_, _, opRenc_of_eq_intMin (not_not.mp (of_decide_eq_false h))⟩
  | encblk frame0 n ch => exact respond_of_refuses ⟨_, _, opEncblk_of_n_gt (lt_of_decide_le_eq_false h) _ _⟩
  | decblk frame0 n ch => exact respond_of_refuses ⟨_, _, opDecblk_of_n_gt (lt_of_decide_le_eq_false h) _ _⟩
  | reset | ldb | lds | sts | getpos | rdbit | wrones | rdunary | align | bitlen | wrhdr | rdhdr | prdrst | prdenc
  | prddec | wrk | rdk | rdec | encode | decode => cases h

/-- Settles O15. -/
theorem illFormedCommandsFault : Obligations.IllFormedCommandsFault := by
  intro i s h
  obtain ⟨c, info, he⟩ := exec_illFormed h s
  exact ⟨_, _, he, rfl, causeCode_ne_zero c, rfl⟩

end

end Sys2Proof.Machine
end

section
/-! PROOF. `RESET` and the fault log, and the host port: one register, one byte of `BUF` or one element of `SMP` at a
time (40_system_host.md R100 to R106). -/

namespace Sys2Proof.Machine

variable {s : State}

/-! ## The fault log (60_exceptions.md R207) -/

/-- The log holds the cause code `c`. -/
def State.LogHolds (c : BitVec 4) (t : State) : Prop := t.status.fseen = true ∧ t.status.fcause = c

theorem logFault_of_fseen {st : Status} (h : st.fseen = true) (c : Cause) : logFault c st = st := if_pos h

theorem State.LogHolds.withStatus_logFault {c : BitVec 4} (h : s.LogHolds c) (d : Cause) :
    (s.withStatus (logFault d s.status)).LogHolds c := by
  rw [logFault_of_fseen h.1]
  exact h

/-- Of all updates a command makes, only that of `RESET` and the taking of a fault touch the log, and a fault leaves a
log that already holds a cause. -/
theorem exec_keeps_logHolds {i : Instr} {t : State} {c : BitVec 4} (hi : i ≠ .reset) (ht : exec i s = .next t)
    (h : s.LogHolds c) : t.LogHolds c :=
  exec_keeps (P := State.LogHolds c) i
    (hans := fun _ _ hu => hu)
    (hlog := fun _ d hu => hu.withStatus_logFault d)
    (hseek := fun _ _ _ hu => hu)
    (hk := fun _ _ _ hu => hu)
    (hprev := fun _ _ _ hu => hu)
    (hest := fun _ _ _ _ hu => hu)
    (hpar := fun _ _ _ _ _ _ hu => hu)
    (hhdr := fun _ _ _ hu => hu)
    (hbuf := fun _ _ _ hu => hu)
    (hsmp := fun _ _ _ hu => hu)
    (hreset := fun hr => absurd hr hi)
    ht h

/-- Settles O10: the first part is what `RESET` is, the second is that the log's cause is kept by everything else. -/
theorem resetCommandKeepsMemories : Obligations.ResetCommandKeepsMemories :=
  ⟨exec_reset, fun _ _ _ hi ht hseen => exec_keeps_logHolds hi ht ⟨hseen, rfl⟩⟩

/-! ## Values in operand fields and results (00_scope.md R6, R16) -/

theorem word_toNat_eq_setWidth {w : Nat} (x : BitVec w) : word x.toNat = x.setWidth 64 := BitVec.ofNat_toNat 64 x

theorem word_add (a b : Nat) : word (a + b) = word a + word b := BitVec.ofNat_add a b

/-- A flag with the weight `n` in a word. -/
theorem word_mul_boolToNat (n : Nat) (b : Bool) : word (n * b.toNat) = if b then word n else 0 := by
  cases b <;> simp [word]

theorem word_two_mul_toNat {w : Nat} (x : BitVec w) : word (2 * x.toNat) = x.setWidth 64 <<< 1 := by
  rw [← word_toNat_eq_setWidth, BitVec.shiftLeft_eq_mul_twoPow, BitVec.mul_comm]
  exact BitVec.ofNat_mul 2 x.toNat

theorem State.holdsSample_iff {x : Int} :
    s.holdsSample x = true ↔ smpMin s.cfg.sampleW ≤ x ∧ x ≤ smpMax s.cfg.sampleW := inContainer_iff _ x

theorem State.holdsSample_eq_false {x : Int} (h : x < smpMin s.cfg.sampleW ∨ smpMax s.cfg.sampleW < x) :
    s.holdsSample x = false := by
  rw [Bool.eq_false_iff, ne_eq, State.holdsSample_iff]
  omega

/-! ## WRREG (R101) -/

section Wrreg

variable {reg value : Word} {r : Reg}

theorem exec_wrreg (reg value : Word) (s : State) : exec (.wrreg reg value) s = respondPlain (opWrreg reg value s) := rfl

theorem regWritable_of_regAccepts (h : regAccepts s value r = true) : regWritable r = true := by
  cases r with
  | channels | bps | rate | count | k | prev => rfl
  | acc | avg | bprl | status | curByte | curBit | idSampleW | idBufBytes | idSmpElems | idCfg => cases h

/-- The registers with numbers above 5 are read-only (R36). -/
theorem regWritable_eq_false_of_gt {n : Nat} (hn : 5 < n) (hr : regOfNumber n = some r) : regWritable r = false := by
  unfold regOfNumber at hr
  split at hr <;> cases hr <;> simp_all [regWritable]

theorem exec_wrreg_of_accepts (hr : regOfNumber reg.toNat = some r) (h : regAccepts s value r = true) :
    exec (.wrreg reg value) s = .next ((writeReg s value r).answered (okResponse 0 0)) := by
  simp only [exec_wrreg, opWrreg, hr, regWritable_of_regAccepts h, h, if_true, respondPlain_ok]

theorem exec_wrreg_of_rejects (hr : regOfNumber reg.toNat = some r) (hw : regWritable r = true)
    (h : regAccepts s value r = false) : exec (.wrreg reg value) s = .next (s.faulted .illegalOperand value) := by
  simp only [exec_wrreg, opWrreg, hr, hw, h, if_true, Bool.false_eq_true, if_false, respondPlain_raised]

theorem exec_wrreg_of_reg_gt (h : 5 < reg.toNat) :
    exec (.wrreg reg value) s = .next (s.faulted .illegalOperand reg) := by
  cases hr : regOfNumber reg.toNat with
  | none => simp only [exec_wrreg, opWrreg, hr, respondPlain_raised]
  | some r =>
    simp only [exec_wrreg, opWrreg, hr, regWritable_eq_false_of_gt h hr, Bool.false_eq_true, if_false,
      respondPlain_raised]

/-- `BPRL` is derived from `BPS`, so it follows a write of `BPS` at once (10_state.md R32). -/
theorem readReg_bprl_of_bps {t : State} (hv : value.toNat < 2 ^ 32) (ht : t.bps = value.setWidth 32) :
    readReg t .bprl = word (bitLength value.toNat) := by
  rw [readReg, State.bprl, ht, BitVec.toNat_setWidth, Nat.mod_eq_of_lt hv]

/-- Settles O18: the number names the register, whose rule says whether the value is accepted. -/
theorem wrregWritesOneRegister : Obligations.WrregWritesOneRegister := by
  intro reg value s
  have hfits (hv : value.toNat < 2 ^ 32) : fitsRegister32 value = true := decide_eq_true hv
  refine ⟨fun h hv => ?_, fun h hv => ?_, fun h hv => ?_, fun h => ?_, fun h hv => ?_, fun h hmin hmax => ?_,
    exec_wrreg_of_reg_gt, fun h hv => ?_, fun h hout => ?_⟩
  · rw [exec_wrreg_of_accepts (r := .channels) (congrArg regOfNumber h) (hfits hv), ← BitVec.ofNat_toNat]
    rfl
  · have hexec : exec (.wrreg reg value) s =
        .next { s with bps := value.setWidth 32, rsp := some (okResponse 0 0) } := by
      rw [exec_wrreg_of_accepts (r := .bps) (congrArg regOfNumber h) (hfits hv), ← BitVec.ofNat_toNat]
      rfl
    refine ⟨hexec, fun t ht => ?_⟩
    rw [hexec] at ht
    cases ht
    exact readReg_bprl_of_bps hv rfl
  · rw [exec_wrreg_of_accepts (r := .rate) (congrArg regOfNumber h) (hfits hv), ← BitVec.ofNat_toNat]
    rfl
  · exact exec_wrreg_of_accepts (r := .count) (congrArg regOfNumber h) rfl
  · rw [exec_wrreg_of_accepts (r := .k) (congrArg regOfNumber h) (hfits hv), ← BitVec.ofNat_toNat]
    rfl
  · exact exec_wrreg_of_accepts (r := .prev) (congrArg regOfNumber h) (State.holdsSample_iff.mpr ⟨hmin, hmax⟩)
  · have hbig : fitsRegister32 value = false := decide_eq_false (Nat.not_lt.mpr hv)
    obtain h | h | h | h := h
    · exact exec_wrreg_of_rejects (r := .channels) (congrArg regOfNumber h) rfl hbig
    · exact exec_wrreg_of_rejects (r := .bps) (congrArg regOfNumber h) rfl hbig
    · exact exec_wrreg_of_rejects (r := .rate) (congrArg regOfNumber h) rfl hbig
    · exact exec_wrreg_of_rejects (r := .k) (congrArg regOfNumber h) rfl hbig
  · exact exec_wrreg_of_rejects (r := .prev) (congrArg regOfNumber h) rfl (State.holdsSample_eq_false hout)

end Wrreg

/-! ## RDREG (R102) -/

theorem exec_rdreg_of_reg {reg : Word} {r : Reg} {v : Word} (hr : regOfNumber reg.toNat = some r)
    (hv : readReg s r = v) : exec (.rdreg reg) s = .next (s.answered (okResponse v 0)) := by
  have hexec : exec (.rdreg reg) s = respond id (fun _ => 0) (opRdreg reg s) := rfl
  simp only [hexec, opRdreg, hr, hv, respond_ok, id_eq]

theorem exec_rdreg_of_gt {reg : Word} (h : 15 < reg.toNat) :
    exec (.rdreg reg) s = .next (s.faulted .illegalOperand reg) :=
  congrArg (respond id fun _ => 0) (opRdreg_of_gt h)

/-- `STATUS` as a word (10_state.md R34). -/
theorem statusWord_eq (st : Status) :
    statusWord st = (if st.fseen then 1 else 0) + (st.fcause.setWidth 64 <<< 1) + (if st.hdrOk then 32 else 0) := by
  rw [statusWord, word_add, word_add, word_two_mul_toNat, word_mul_boolToNat 32]
  cases st.fseen <;> rfl

/-- `ID_CFG` as a word (10_state.md R35). -/
theorem idCfgWord_eq (cfg : Config) :
    idCfgWord cfg = (if cfg.encAlign then 1 else 0) + (if cfg.decAlign then 2 else 0) +
      (if cfg.estDiv = .actual then 4 else 0) := by
  rw [idCfgWord, word_add, word_add, word_mul_boolToNat 2, word_mul_boolToNat 4]
  simp only [decide_eq_true_eq]
  cases cfg.encAlign <;> rfl

/-- Settles O19: the number names the register, whose value `readReg` reads. -/
theorem rdregReadsRegister : Obligations.RdregReadsRegister := by
  intro reg s
  have reads {n : Nat} {v : Word} (r : Reg) (hr : regOfNumber n = some r) (hv : readReg s r = v) (hn : reg.toNat = n) :
      exec (.rdreg reg) s = .next { s with rsp := some (okResponse v 0) } := exec_rdreg_of_reg (hn ▸ hr) hv
  have hwidth : readReg s .idSampleW = match s.cfg.sampleW with
      | .w8 => 8
      | .w16 => 16
      | .w32 => 32 := by
    rw [readReg]
    cases s.cfg.sampleW <;> rfl
  exact ⟨reads .channels rfl (word_toNat_eq_setWidth _), reads .bps rfl (word_toNat_eq_setWidth _),
    reads .rate rfl (word_toNat_eq_setWidth _), reads .count rfl rfl, reads .k rfl (word_toNat_eq_setWidth _),
    reads .prev rfl rfl, reads .acc rfl rfl, reads .avg rfl rfl, reads .bprl rfl rfl,
    reads .status rfl (statusWord_eq _), reads .curByte rfl rfl, reads .curBit rfl (word_toNat_eq_setWidth _),
    reads .idSampleW rfl hwidth, reads .idBufBytes rfl rfl, reads .idSmpElems rfl rfl,
    reads .idCfg rfl (idCfgWord_eq _), exec_rdreg_of_gt⟩

/-! ## LDB and STB (R103, R104) -/

theorem opLdb_of_lt {addr : Word} (h : addr.toNat < s.cfg.bufBytes) :
    opLdb addr s = .ok ((readByte s.buf addr.toNat).setWidth 64) s := by
  rw [opLdb, if_pos h, word_toNat_eq_setWidth]

theorem opLdb_of_ge {addr : Word} (h : s.cfg.bufBytes ≤ addr.toNat) : opLdb addr s = .raised .bufBounds addr s :=
  if_neg (Nat.not_lt.mpr h)

/-- Settles O20. -/
theorem ldbReadsByte : Obligations.LdbReadsByte := fun _ _ =>
  ⟨fun h => congrArg (respond id fun _ => 0) (opLdb_of_lt h),
    fun h => congrArg (respond id fun _ => 0) (opLdb_of_ge h)⟩

section Stb

variable {addr byte : Word}

theorem opStb_of_legal (ha : addr.toNat < s.cfg.bufBytes) (hb : byte.toNat ≤ 255) :
    opStb addr byte s = .ok () (s.withBuf (Memory.write 0#8 s.buf addr.toNat (byte.setWidth 8))) := by
  rw [opStb, if_pos ha, if_pos hb, BitVec.ofNat_toNat]

theorem opStb_of_addr_ge (h : s.cfg.bufBytes ≤ addr.toNat) : opStb addr byte s = .raised .bufBounds addr s :=
  if_neg (Nat.not_lt.mpr h)

theorem opStb_of_byte_gt (ha : addr.toNat < s.cfg.bufBytes) (hb : 255 < byte.toNat) :
    opStb addr byte s = .raised .illegalOperand byte s := by
  rw [opStb, if_pos ha, if_neg (Nat.not_le.mpr hb)]

/-- Settles O21. The store keeps every other byte because `BUF` is in canonical form, which is where the invariant is
used. -/
theorem stbStoresOneByte : Obligations.StbStoresOneByte := fun _ _ _ hi =>
  ⟨fun ha hb => ⟨_, congrArg respondPlain (opStb_of_legal ha hb), Memory.read_write hi.bufWf _ _, rfl⟩,
    fun h => congrArg respondPlain (opStb_of_addr_ge h), fun ha hb => congrArg respondPlain (opStb_of_byte_gt ha hb)⟩

end Stb

/-! ## LDS and STS (R105, R106) -/

theorem opLds_of_lt {index : Word} (h : index.toNat < s.cfg.smpElems) :
    opLds index s = .ok (toBits64 (readSample s.smp index.toNat)) s := if_pos h

theorem opLds_of_ge {index : Word} (h : s.cfg.smpElems ≤ index.toNat) : opLds index s = .raised .smpBounds index s :=
  if_neg (Nat.not_lt.mpr h)

/-- Settles O22. -/
theorem ldsReadsSample : Obligations.LdsReadsSample := fun _ _ =>
  ⟨fun h => congrArg (respond id fun _ => 0) (opLds_of_lt h),
    fun h => congrArg (respond id fun _ => 0) (opLds_of_ge h)⟩

section Sts

variable {index sample : Word}

theorem opSts_of_legal (hi : index.toNat < s.cfg.smpElems) (hx : s.holdsSample (sext64 sample) = true) :
    opSts index sample s = .ok () (s.storeSample index.toNat (sext64 sample)) := by
  rw [opSts, if_pos hi, if_pos hx]

theorem opSts_of_index_ge (h : s.cfg.smpElems ≤ index.toNat) : opSts index sample s = .raised .smpBounds index s :=
  if_neg (Nat.not_lt.mpr h)

theorem opSts_of_sample_outside (hi : index.toNat < s.cfg.smpElems) (hx : s.holdsSample (sext64 sample) = false) :
    opSts index sample s = .raised .illegalOperand sample s := by
  rw [opSts, if_pos hi, hx]
  rfl

/-- Settles O23. As for `STB`, the canonical form of `SMP` is what keeps every other element. -/
theorem stsStoresOneSample : Obligations.StsStoresOneSample := fun _ _ _ hinv =>
  ⟨fun hi hmin hmax => ⟨_, congrArg respondPlain (opSts_of_legal hi (State.holdsSample_iff.mpr ⟨hmin, hmax⟩)),
      Memory.read_write hinv.smpWf _ _, rfl⟩,
    fun h => congrArg respondPlain (opSts_of_index_ge h),
    fun hi hout => congrArg respondPlain (opSts_of_sample_outside hi (State.holdsSample_eq_false hout))⟩

end Sts

end Sys2Proof.Machine
end

section
/-! PROOF. The bit cursor: what each command does where it fits and where it does not (41_bit_cursor.md R110 to
R119). -/

namespace Sys2Proof.Machine

variable {s : State}

/-! ## The cursor and what is written at it, from a state that meets the invariant -/

theorem State.Inv.pos_advance (h : s.Inv) {n : Nat} (hp : s.pos + n ≤ s.bufBits) : (s.advance n).pos = s.pos + n :=
  s.pos_advance (by have := h.small; omega)

theorem State.Inv.pos_emit (h : s.Inv) {bs : List Bool} {n : Nat} (hn : bs.length = n) (hp : s.pos + n ≤ s.bufBits) :
    (s.emit bs).pos = s.pos + n := by
  subst hn
  exact s.pos_emit (by have := h.small; omega)

theorem State.Inv.orWritten_emit (h : s.Inv) (bs : List Bool) : OrWritten s.buf (s.emit bs).buf s.pos bs :=
  bufBit_orBits h.bufWf s.pos bs

/-- The bit at the cursor, by the cursor's two registers (20_memory.md R53). -/
theorem bufBit_pos (s : State) : bufBit s.buf s.pos = (readByte s.buf s.curByte.toNat).getLsbD s.curBit.toNat := by
  have hbit := s.curBit.isLt
  have hdiv : s.pos / 8 = s.curByte.toNat := by rw [State.pos]; omega
  have hmod : s.pos % 8 = s.curBit.toNat := by rw [State.pos]; omega
  rw [bufBit, hdiv, hmod]

theorem word_boolToNat (b : Bool) : word b.toNat = if b then 1 else 0 := by cases b <;> rfl

/-- A field as a result: its bits, zero-extended to 64 (R115). -/
theorem getLsbD_word_fieldAt (m : List Host.Cell) (p : Nat) {w : Nat} (hw : w ≤ 64) (i : Nat) :
    (word (fieldAt m p w)).getLsbD i = (decide (i < w) && bufBit m (p + i)) := by
  rw [word, BitVec.getLsbD_ofNat, fieldAt_testBit]
  by_cases hi : i < w
  · have hi64 : i < 64 := by omega
    simp [hi, hi64]
  · simp [hi]

/-- How a command ends that refuses an operand: the operand itself is the info value. -/
theorem respond_raised_operand {α : Type} {d : Done α} {r0 r1 : α → Word} {c : Cause} {operand : Word}
    (h : d = .raised c (word operand.toNat) s) : respond r0 r1 d = .next (s.faulted c operand) := by
  rw [h, respond_raised, word_of_toNat]

/-! ## SETPOS and GETPOS (R110, R111) -/

section Setpos

variable {byte bit : Word}

theorem State.seek_byte_bit (hb : bit.toNat ≤ 7) :
    s.seek (8 * byte.toNat + bit.toNat) = { s with curByte := byte, curBit := bit.setWidth 3 } := by
  have hpos : State.pos { s with curByte := byte, curBit := bit.setWidth 3 } = 8 * byte.toNat + bit.toNat := by
    simp only [State.pos, BitVec.toNat_setWidth]
    omega
  rw [← hpos]
  exact State.seek_pos { s with curByte := byte, curBit := bit.setWidth 3 }

theorem exec_setpos_of_fits (hb : bit.toNat ≤ 7) (hp : 8 * byte.toNat + bit.toNat ≤ s.bufBits) :
    exec (.setpos byte bit) s = .next ((s.seek (8 * byte.toNat + bit.toNat)).answered (okResponse 0 0)) :=
  congrArg respondPlain ((if_pos hb).trans (if_pos hp))

theorem exec_setpos_of_bit_gt (hb : 7 < bit.toNat) :
    exec (.setpos byte bit) s = .next (s.faulted .illegalOperand bit) :=
  respond_raised_operand (opSetpos_of_bit_gt hb byte.toNat)

theorem exec_setpos_of_byte_gt (hb : bit.toNat ≤ 7) (hp : s.bufBits < 8 * byte.toNat + bit.toNat) :
    exec (.setpos byte bit) s = .next (s.faulted .illegalOperand byte) :=
  respond_raised_operand ((if_pos hb).trans (if_neg (Nat.not_le.mpr hp)))

end Setpos

/-- `SETPOS` with what `GETPOS` gave in `s` puts the cursor back to where it was. -/
theorem exec_setpos_back {t : State} (hp : s.pos ≤ t.bufBits) :
    exec (.setpos s.curByte (s.curBit.setWidth 64)) t = .next ((t.seek s.pos).answered (okResponse 0 0)) := by
  have hbit := s.curBit.isLt
  have hwide : (s.curBit.setWidth 64).toNat = s.curBit.toNat := by rw [BitVec.toNat_setWidth]; omega
  have hpos : 8 * s.curByte.toNat + (s.curBit.setWidth 64).toNat = s.pos := by rw [hwide, State.pos]
  rw [exec_setpos_of_fits (by omega) (by omega), hpos]

/-- Settles O24. -/
theorem setposMovesCursor : Obligations.SetposMovesCursor := fun byte bit s =>
  ⟨fun hb hp => by rw [exec_setpos_of_fits hb hp, State.seek_byte_bit hb]; rfl, exec_setpos_of_bit_gt,
    exec_setpos_of_byte_gt⟩

/-- Settles O25. -/
theorem getposReadsCursor : Obligations.GetposReadsCursor := fun s => by
  have hexec : exec .getpos s = .next (s.answered (okResponse s.curByte (word s.curBit.toNat))) := rfl
  rw [hexec, word_toNat_eq_setWidth]
  rfl

/-! ## WRBIT, WRUINT and WRONES (R112, R114, R116)

Where the bits fit, each of the three is one `State.emit`. -/

theorem exec_wrbit_of_fits {v : Word} (hv : v.toNat ≤ 1) (hp : s.pos + 1 ≤ s.bufBits) :
    exec (.wrbit v) s = .next ((s.emit [decide (v.toNat = 1)]).answered (okResponse 0 0)) :=
  congrArg respondPlain ((opWrbit_eq hv s).trans (if_pos hp))

theorem exec_wrbit_of_overflow {v : Word} (hv : v.toNat ≤ 1) (hp : s.bufBits < s.pos + 1) :
    exec (.wrbit v) s = .next (s.faulted .bufBounds (word s.pos)) :=
  congrArg respondPlain ((opWrbit_eq hv s).trans (if_neg (Nat.not_le.mpr hp)))

theorem exec_wrbit_of_gt {v : Word} (hv : 1 < v.toNat) :
    exec (.wrbit v) s = .next (s.faulted .illegalOperand v) := respond_raised_operand (opWrbit_of_gt hv)

section Wruint

variable {width : Word}

theorem exec_wruint_of_fits (value : Word) (hw : width.toNat ≤ 64) (hp : s.pos + width.toNat ≤ s.bufBits) :
    exec (.wruint width value) s =
      .next ((s.emit (uintBits width.toNat value.toNat)).answered (okResponse 0 0)) :=
  congrArg respondPlain ((opWruint_eq hw value.toNat s).trans (if_pos hp))

theorem exec_wruint_of_overflow (value : Word) (hw : width.toNat ≤ 64) (hp : s.bufBits < s.pos + width.toNat) :
    exec (.wruint width value) s = .next (s.faulted .bufBounds (word s.pos)) :=
  congrArg respondPlain ((opWruint_eq hw value.toNat s).trans (if_neg (Nat.not_le.mpr hp)))

theorem exec_wruint_of_width_gt (value : Word) (hw : 64 < width.toNat) :
    exec (.wruint width value) s = .next (s.faulted .illegalOperand width) :=
  respond_raised_operand (opWruint_of_width_gt hw value.toNat)

end Wruint

theorem exec_wrones_of_fits {count : Word} (hp : s.pos + count.toNat ≤ s.bufBits) :
    exec (.wrones count) s = .next ((s.emit (List.replicate count.toNat true)).answered (okResponse 0 0)) :=
  congrArg respondPlain ((opWrones_eq count.toNat s).trans (if_pos hp))

theorem exec_wrones_of_overflow {count : Word} (hp : s.bufBits < s.pos + count.toNat) :
    exec (.wrones count) s = .next (s.faulted .bufBounds (word s.pos)) :=
  congrArg respondPlain ((opWrones_eq count.toNat s).trans (if_neg (Nat.not_le.mpr hp)))

/-- Settles O26. A 0 is OR-ed as the run of zeros of length 1, which leaves `BUF` as it is. -/
theorem wrbitOrsOneBit : Obligations.WrbitOrsOneBit := fun v s h =>
  ⟨fun hv hp =>
      ⟨_, exec_wrbit_of_fits hv hp, h.pos_emit rfl hp, h.orWritten_emit _,
        fun h0 => by subst h0; exact orBits_zeros h.bufWf s.pos 1, rfl⟩,
    exec_wrbit_of_gt, exec_wrbit_of_overflow⟩

/-- Settles O28. -/
theorem wruintOrsField : Obligations.WruintOrsField := fun _ value _ h =>
  ⟨fun hw hp =>
      ⟨_, exec_wruint_of_fits value hw hp, h.pos_emit (uintBits_length _ _) hp, h.orWritten_emit _, rfl⟩,
    exec_wruint_of_width_gt value, exec_wruint_of_overflow value⟩

/-- Settles O30. -/
theorem wronesOrsRun : Obligations.WronesOrsRun := fun _ _ h =>
  ⟨fun hp => ⟨_, exec_wrones_of_fits hp, h.pos_emit List.length_replicate hp, h.orWritten_emit _, rfl⟩,
    exec_wrones_of_overflow⟩

/-! ## RDBIT and RDUINT (R113, R115) -/

theorem exec_rdbit_of_fits (hp : s.pos + 1 ≤ s.bufBits) :
    exec .rdbit s = .next ((s.advance 1).answered (okResponse (if bufBit s.buf s.pos then 1 else 0) 0)) := by
  rw [← word_boolToNat]
  exact congrArg (respond word fun _ => 0) ((opRdbit_eq s).trans (if_pos hp))

theorem exec_rdbit_of_overflow (hp : s.bufBits < s.pos + 1) :
    exec .rdbit s = .next (s.faulted .bufBounds (word s.pos)) :=
  congrArg (respond word fun _ => 0) ((opRdbit_eq s).trans (if_neg (Nat.not_le.mpr hp)))

section Rduint

variable {width : Word}

theorem exec_rduint_of_fits (hw : width.toNat ≤ 64) (hp : s.pos + width.toNat ≤ s.bufBits) :
    exec (.rduint width) s =
      .next ((s.advance width.toNat).answered (okResponse (word (fieldAt s.buf s.pos width.toNat)) 0)) :=
  congrArg (respond word fun _ => 0) ((opRduint_eq hw s).trans (if_pos hp))

theorem exec_rduint_of_overflow (hw : width.toNat ≤ 64) (hp : s.bufBits < s.pos + width.toNat) :
    exec (.rduint width) s = .next (s.faulted .bufBounds (word s.pos)) :=
  congrArg (respond word fun _ => 0) ((opRduint_eq hw s).trans (if_neg (Nat.not_le.mpr hp)))

theorem exec_rduint_of_width_gt (hw : 64 < width.toNat) :
    exec (.rduint width) s = .next (s.faulted .illegalOperand width) :=
  respond_raised_operand (opRduint_of_width_gt hw)

end Rduint

/-- Settles O27. -/
theorem rdbitReadsOneBit : Obligations.RdbitReadsOneBit := fun s h =>
  ⟨fun hp => ⟨_, exec_rdbit_of_fits hp, h.pos_advance hp, by rw [bufBit_pos]; rfl⟩, exec_rdbit_of_overflow⟩

/-- Settles O29. -/
theorem rduintReadsField : Obligations.RduintReadsField := fun _ s h =>
  ⟨fun hw hp => ⟨_, _, exec_rduint_of_fits hw hp, h.pos_advance hp, getLsbD_word_fieldAt s.buf s.pos hw, rfl⟩,
    exec_rduint_of_width_gt, exec_rduint_of_overflow⟩

/-! ## RDUNARY (R117) -/

theorem exec_rdunary_of_some {q : Nat} (hq : onesAt s.buf s.pos (s.bufBits - s.pos) = some q) :
    exec .rdunary s = .next ((s.advance (q + 1)).answered (okResponse (word q) 0)) := by
  have hop : opRdunary s = .ok q (s.advance (q + 1)) := by rw [opRdunary, hq]
  exact congrArg (respond word fun _ => 0) hop

theorem exec_rdunary_of_none (hq : onesAt s.buf s.pos (s.bufBits - s.pos) = none) :
    exec .rdunary s = .next (s.faulted .bufBounds (word s.pos)) := by
  have hop : opRdunary s = .raised .bufBounds (word s.pos) s := by rw [opRdunary, hq]
  exact congrArg (respond word fun _ => 0) hop

/-- Settles O31: `onesAt` finds the least run that a 0 ends, and finds none exactly where there is no 0. -/
theorem rdunaryReadsRun : Obligations.RdunaryReadsRun := fun s h =>
  ⟨fun q hq hzero hones =>
      ⟨_, exec_rdunary_of_some (onesAt_eq_some.mpr ⟨by omega, hzero, hones⟩), h.pos_advance (by omega), rfl⟩,
    fun hones => exec_rdunary_of_none (onesAt_eq_none.mpr fun j hj => hones j (by omega))⟩

/-! ## ALIGN (R118) -/

theorem exec_align (s : State) :
    exec .align s = .next ((s.advance ((8 - s.pos % 8) % 8)).answered (okResponse 0 0)) :=
  congrArg respondPlain (opAlign_eq s)

theorem opAlign_eq_registers (s : State) :
    opAlign s = .ok () { s with curByte := if s.curBit = 0 then s.curByte else s.curByte + 1, curBit := 0 } := by
  unfold opAlign
  split
  next hbit => rw [← hbit]
  next hbit =>
    have hbyte : BitVec.ofNat 64 (8 * (s.curByte.toNat + 1) / 8) = s.curByte + 1 := by
      rw [Nat.mul_div_cancel_left _ (by decide), BitVec.ofNat_add, BitVec.ofNat_toNat, BitVec.setWidth_eq]
      rfl
    have hzero : BitVec.ofNat 3 (8 * (s.curByte.toNat + 1) % 8) = 0 := by rw [Nat.mul_mod_right]; rfl
    rw [State.seek, hbyte, hzero]

/-- Settles O32. `BUF` ends on a byte boundary, so the next boundary is not past its end. -/
theorem alignMovesToByteBoundary : Obligations.AlignMovesToByteBoundary := by
  intro s
  refine ⟨congrArg respondPlain (opAlign_eq_registers s), fun h t ht => ?_⟩
  have hcursor := h.cursor
  have hend : s.bufBits = 8 * s.cfg.bufBytes := rfl
  have hpos := h.pos_advance (n := (8 - s.pos % 8) % 8) (by omega)
  rw [exec_align] at ht
  cases ht
  rw [State.answered_pos, hpos]
  omega

/-! ## BITLEN (R119) -/

/-- Settles O33. -/
theorem bitlenIsFloorLog : Obligations.BitlenIsFloorLog := by
  intro n s
  refine ⟨bitLength n.toNat, rfl, Nat.le_of_lt_succ (bitLength_lt n.isLt (by decide)), fun hn => ?_, fun hn => ?_⟩
  · obtain hn | hn : n.toNat = 0 ∨ n.toNat = 1 := by omega
    · rw [hn]; rfl
    · rw [hn]; rfl
  · exact ⟨Nat.log2_self_le (by omega), Nat.lt_log2_self⟩

end Sys2Proof.Machine
end

section
/-! PROOF. Bit cursor commands one after the other: a wide access is the same as its bits one by one, and what is read
back after a write (41_bit_cursor.md R120, R121). -/

namespace Sys2Proof.Machine

variable {s : State}

/-! ## One wide access and its bits one by one (R120) -/

theorem execAll_cons {i : Instr} {t : State} (hi : exec i s = .next t) (rest : List Instr) :
    execAll (i :: rest) s = execAll rest t := by
  rw [execAll, hi]

theorem responsesOf_cons {i : Instr} {t : State} (hi : exec i s = .next t) (rest : List Instr) :
    responsesOf (i :: rest) s = t.rsp.toList ++ responsesOf rest t := by
  rw [responsesOf, hi]

/-- The command that OR-writes one given bit. -/
def wrbitOf (b : Bool) : Instr := .wrbit (if b then 1 else 0)

theorem exec_wrbitOf (b : Bool) (hp : s.pos + 1 ≤ s.bufBits) :
    exec (wrbitOf b) s = .next ((s.emit [b]).answered (okResponse 0 0)) := by
  cases b with
  | false => exact exec_wrbit_of_fits (v := 0) (by decide) hp
  | true => exact exec_wrbit_of_fits (v := 1) (by decide) hp

/-- Bits written one by one leave what one write of them all leaves, but for the response. -/
theorem execAll_wrbitOf {bs : List Bool} (h : s.Inv) (hp : s.pos + bs.length ≤ s.bufBits) :
    ∃ r, execAll (bs.map wrbitOf) s = .next { s.emit bs with rsp := r } := by
  induction bs generalizing s with
  | nil => exact ⟨s.rsp, by rw [State.emit_nil]; rfl⟩
  | cons b bs ih =>
    rw [List.length_cons] at hp
    have hfirst : (s.emit [b]).pos = s.pos + 1 := h.pos_emit rfl (by omega)
    have hinv : ((s.emit [b]).answered (okResponse 0 0)).Inv :=
      (h.emit (by rw [List.length_singleton]; omega)).answered _
    obtain ⟨r, hr⟩ := ih hinv (by
      rw [State.answered_pos, State.answered_bufBits, State.emit_bufBits, hfirst]; omega)
    have hsplit : s.emit (b :: bs) = (s.emit [b]).emit bs :=
      (s.emit_emit (a := [b]) bs (by have := h.small; rw [List.length_singleton]; omega)).symm
    refine ⟨r, ?_⟩
    rw [List.map_cons, execAll_cons (exec_wrbitOf b (by omega)), hr, hsplit]
    rfl

/-- Bits read one by one move the cursor as far as one read of them all, and the responses hold the bits in order. -/
theorem execAll_rdbit {n : Nat} (h : s.Inv) (hp : s.pos + n ≤ s.bufBits) :
    (∃ r, execAll (List.replicate n .rdbit) s = .next { s.advance n with rsp := r }) ∧
      responsesOf (List.replicate n .rdbit) s =
        (List.range n).map fun i => okResponse (if bufBit s.buf (s.pos + i) then 1 else 0) 0 := by
  induction n generalizing s with
  | zero => exact ⟨⟨s.rsp, by rw [State.advance_zero]; rfl⟩, rfl⟩
  | succ n ih =>
    have hexec := exec_rdbit_of_fits (s := s) (by omega)
    have hfirst : (s.advance 1).pos = s.pos + 1 := h.pos_advance (by omega)
    have hsplit : s.advance (n + 1) = (s.advance 1).advance n := by
      rw [s.advance_advance n (by have := h.small; omega), Nat.add_comm]
    obtain ⟨⟨r, hr⟩, hresponses⟩ := ih
      (s := (s.advance 1).answered (okResponse (if bufBit s.buf s.pos then 1 else 0) 0))
      ((h.advance (by omega)).answered _)
      (by rw [State.answered_pos, State.answered_bufBits, State.advance_bufBits, hfirst]; omega)
    refine ⟨⟨r, ?_⟩, ?_⟩
    · rw [List.replicate_succ, execAll_cons hexec, hr, hsplit]
      rfl
    · rw [List.replicate_succ, responsesOf_cons hexec, hresponses, List.range_succ_eq_map, List.map_cons, List.map_map]
      simp only [State.answered_pos, hfirst, Nat.add_assoc, Nat.add_comm 1]
      rfl

/-- Settles O34. -/
theorem wideAccessesEqualSingleBits : Obligations.WideAccessesEqualSingleBits := by
  intro s h
  refine ⟨fun width value hw hp => ?_, fun count hp => ?_, fun width hw hp => ?_⟩
  · obtain ⟨r, hr⟩ := execAll_wrbitOf (bs := uintBits width.toNat value.toNat) h (by rwa [uintBits_length])
    rw [uintBits, List.map_map] at hr
    exact ⟨_, _, exec_wruint_of_fits value hw hp, hr, rfl⟩
  · obtain ⟨r, hr⟩ := execAll_wrbitOf (bs := List.replicate count.toNat true) h (by rwa [List.length_replicate])
    rw [List.map_replicate] at hr
    exact ⟨_, _, exec_wrones_of_fits hp, hr, rfl⟩
  · obtain ⟨⟨r, hr⟩, hresponses⟩ := execAll_rdbit h hp
    refine ⟨_, _, _, exec_rduint_of_fits hw hp, rfl, hr, rfl, hresponses.trans (List.map_congr_left fun i hi => ?_)⟩
    rw [getLsbD_word_fieldAt s.buf s.pos hw, decide_eq_true (List.mem_range.mp hi), Bool.true_and]

/-! ## What is read back after a write (R121) -/

/-- `s` with the bits OR-written at the cursor and the cursor put back to where it was. -/
def State.rewritten (s : State) (bs : List Bool) : State :=
  { s with buf := orBits s.buf s.pos bs, rsp := some (okResponse 0 0) }

/-- Moving the cursor back after a write undoes what the write did to it. -/
theorem execAll_setpos_back (h : s.Inv) (bs : List Bool) (r : Response) (rest : List Instr) :
    execAll (.setpos s.curByte (s.curBit.setWidth 64) :: rest) ((s.emit bs).answered r) =
      execAll rest (s.rewritten bs) := by
  have hback : (((s.emit bs).answered r).seek s.pos).answered (okResponse 0 0) =
      ((s.seek s.pos).withBuf (orBits s.buf s.pos bs)).answered (okResponse 0 0) := rfl
  have hexec := exec_setpos_back (s := s) (t := (s.emit bs).answered r) h.cursor
  rw [execAll_cons hexec, hback, State.seek_pos]
  rfl

/-- What `RDUINT` finds after `WRUINT` and `SETPOS` back. -/
theorem execAll_wruint_setpos_rduint {width : Word} (value : Word) (h : s.Inv) (hw : width.toNat ≤ 64)
    (hp : s.pos + width.toNat ≤ s.bufBits) :
    execAll [.wruint width value, .setpos s.curByte (s.curBit.setWidth 64), .rduint width] s =
      .next (((s.rewritten (uintBits width.toNat value.toNat)).advance width.toNat).answered
        (okResponse (word (fieldAt (orBits s.buf s.pos (uintBits width.toNat value.toNat)) s.pos width.toNat)) 0)) := by
  rw [execAll_cons (exec_wruint_of_fits value hw hp), execAll_setpos_back h]
  exact execAll_cons (exec_rduint_of_fits (s := s.rewritten _) hw hp) []

/-- A unary code is one run of bits: the ones and the 0 that ends them. -/
theorem execAll_wrones_wrbit {count : Word} (rest : List Instr) (h : s.Inv)
    (hp : s.pos + count.toNat + 1 ≤ s.bufBits) :
    execAll (.wrones count :: .wrbit 0 :: rest) s =
      execAll rest ((s.emit (List.replicate count.toNat true ++ [false])).answered (okResponse 0 0)) := by
  have hones : (s.emit (List.replicate count.toNat true)).pos = s.pos + count.toNat :=
    h.pos_emit List.length_replicate (by omega)
  have hroom : ((s.emit (List.replicate count.toNat true)).answered (okResponse 0 0)).pos + 1 ≤ s.bufBits := by
    rw [State.answered_pos, hones]
    exact hp
  have hjoin := s.emit_emit (a := List.replicate count.toNat true) [false]
    (by have := h.small; rw [List.length_replicate]; omega)
  rw [execAll_cons (exec_wrones_of_fits (by omega)), execAll_cons (exec_wrbit_of_fits (by decide) hroom), ← hjoin]
  rfl

/-- The ones that are written are 1 whatever was there before; the run ends with them because the 0 after them stands
on a bit that was 0. -/
theorem onesAt_orBits_unary {m : List Host.Cell} (hm : Memory.wf 0#8 m = true) {p n c : Nat} (hc : c < n)
    (hzero : bufBit m (p + c) = false) : onesAt (orBits m p (List.replicate c true ++ [false])) p n = some c := by
  have hbit (j : Nat) (hj : j ≤ c) :
      bufBit (orBits m p (List.replicate c true ++ [false])) (p + j) = (bufBit m (p + j) || decide (j < c)) := by
    rw [bufBit_orBits hm, Nat.add_sub_cancel_left, getD_append, List.length_replicate]
    obtain hlt | rfl := Nat.lt_or_eq_of_le hj
    · simp [hlt]
    · simp
  refine onesAt_eq_some.mpr ⟨hc, ?_, fun j hj => ?_⟩
  · rw [hbit c le_rfl, hzero]
    simp
  · rw [hbit j hj.le]
    simp [hj]

/-- What `RDUNARY` finds after `WRONES`, `WRBIT 0` and `SETPOS` back, where the 0 stands on a bit that was 0. -/
theorem execAll_wrones_wrbit_setpos_rdunary {count : Word} (h : s.Inv) (hp : s.pos + count.toNat + 1 ≤ s.bufBits)
    (hzero : bufBit s.buf (s.pos + count.toNat) = false) :
    execAll [.wrones count, .wrbit 0, .setpos s.curByte (s.curBit.setWidth 64), .rdunary] s =
      .next (((s.rewritten (List.replicate count.toNat true ++ [false])).advance (count.toNat + 1)).answered
        (okResponse count 0)) := by
  have hread := exec_rdunary_of_some (s := s.rewritten (List.replicate count.toNat true ++ [false]))
    (onesAt_orBits_unary h.bufWf (show count.toNat < s.bufBits - s.pos by omega) hzero)
  rw [word_of_toNat] at hread
  rw [execAll_wrones_wrbit _ h hp, execAll_setpos_back h]
  exact execAll_cons hread []

/-- A field reads back as the bits that were there OR the bits that were written. -/
theorem bufBit_orBits_uintBits {m : List Host.Cell} (hm : Memory.wf 0#8 m = true) (p v : Nat) {w i : Nat} (hi : i < w) :
    bufBit (orBits m p (uintBits w v)) (p + i) = (bufBit m (p + i) || v.testBit i) := by
  rw [bufBit_orBits hm, Nat.add_sub_cancel_left, uintBits_getD]
  simp [hi]

/-- Settles O35. -/
theorem readAfterWrite : Obligations.ReadAfterWrite := by
  intro s h
  refine ⟨fun width value hw hp hzero => ?_, fun count hp hzero => ?_, fun width value hw hp => ?_⟩
  · have hfield : fieldAt (orBits s.buf s.pos (uintBits width.toNat value.toNat)) s.pos width.toNat =
        value.toNat % 2 ^ width.toNat := fieldAt_of_bits fun i hi => by
      rw [bufBit_orBits_uintBits h.bufWf s.pos value.toNat hi, hzero i hi, Bool.false_or]
    refine ⟨_, execAll_wruint_setpos_rduint value h hw hp, ?_, h.pos_advance hp⟩
    rw [State.answered_rsp, hfield, word]
  · exact ⟨_, execAll_wrones_wrbit_setpos_rdunary h hp (hzero count.toNat le_rfl), rfl, h.pos_advance hp⟩
  · refine ⟨_, _, execAll_wruint_setpos_rduint value h hw hp, rfl, fun i => ?_⟩
    rw [getLsbD_word_fieldAt _ s.pos hw]
    by_cases hi : i < width.toNat
    · rw [bufBit_orBits_uintBits h.bufWf s.pos value.toNat hi]
      rfl
    · rw [decide_eq_false hi, Bool.false_and, Bool.false_and]

end Sys2Proof.Machine
end

section
/-! PROOF. The header commands: what each one does to the state, and that `RDHDR` finds what `WRHDR` wrote
(42_header.md R130, R131, R133). -/

namespace Sys2Proof.Machine

variable {s : State}

/-! ## WRHDR (R130) -/

/-- The header bits `WRHDR` writes, from the parameter registers. -/
def State.headerOf (s : State) : List Bool :=
  headerBits s.count.toNat s.channels.toNat s.bps.toNat s.rate.toNat

@[simp] theorem State.headerOf_length (s : State) : s.headerOf.length = 160 := headerBits_length _ _ _ _

theorem exec_wrhdr (h : s.Inv) : exec .wrhdr s = .next (((s.seek 0).emit s.headerOf).answered (okResponse 0 0)) :=
  congrArg respondPlain (opWrhdr_eq h.small h.atLeastHeader)

theorem State.seek_zero_emit_answered_buf (s : State) (bs : List Bool) (r : Response) :
    (((s.seek 0).emit bs).answered r).buf = orBits s.buf 0 bs := by
  rw [State.answered_buf, State.emit_buf, State.seek_buf, s.pos_seek (by decide)]

/-- As many bits as a header has, written from the start, end on the byte boundary (20, 0) (30_encoding.md R78). -/
theorem State.seek_zero_emit_answered_frame (s : State) {bs : List Bool} (hlen : bs.length = 160) (r : Response) :
    ((s.seek 0).emit bs).answered r = { s with
      curByte := 20, curBit := 0, buf := (((s.seek 0).emit bs).answered r).buf, rsp := some r } := by
  rw [State.emit, State.advance, State.withBuf_pos, s.pos_seek (by decide), hlen]
  rfl

/-- Settles O36. -/
theorem wrhdrWritesHeader : Obligations.WrhdrWritesHeader := by
  intro s h
  have hwritten : OrWritten s.buf (((s.seek 0).emit s.headerOf).answered (okResponse 0 0)).buf 0 s.headerOf := by
    rw [State.seek_zero_emit_answered_buf]
    exact bufBit_orBits h.bufWf 0 s.headerOf
  exact ⟨_, exec_wrhdr h, hwritten, s.seek_zero_emit_answered_frame s.headerOf_length _⟩

/-! ## RDHDR (R131) -/

theorem exec_rdhdr_of_mismatch (h : s.Inv) (hm : fieldAt s.buf 0 32 ≠ magic) :
    exec .rdhdr s =
      .next (((s.seek 32).withStatus (setHdrOk false s.status)).answered (okResponse 0 0)) :=
  congrArg (respond (fun b : Bool => word b.toNat) fun _ => 0) ((opRdhdr_eq h.small h.atLeastHeader).trans (if_neg hm))

theorem exec_rdhdr_of_magic (h : s.Inv) (hm : fieldAt s.buf 0 32 = magic) :
    exec .rdhdr s =
      .next ((s.afterHeader (fieldAt s.buf 32 64) (fieldAt s.buf 96 16) (fieldAt s.buf 112 16)
        (fieldAt s.buf 128 32)).answered (okResponse 1 0)) :=
  congrArg (respond (fun b : Bool => word b.toNat) fun _ => 0) ((opRdhdr_eq h.small h.atLeastHeader).trans (if_pos hm))

/-- Settles O37. -/
theorem rdhdrReadsHeader : Obligations.RdhdrReadsHeader := fun _ h =>
  ⟨exec_rdhdr_of_mismatch h, exec_rdhdr_of_magic h⟩

/-! ## WRHDR, then RDHDR (R133) -/

theorem bufBit_of_readByte_eq_zero {m : List Host.Cell} {n p : Nat} (hzero : ∀ a, a < n → readByte m a = 0)
    (hp : p < 8 * n) : bufBit m p = false := by
  rw [bufBit, hzero (p / 8) (by omega)]
  exact BitVec.getLsbD_zero

/-- On bytes that are 0 an OR-written header stands as it was written. -/
theorem bitsAt_emit_headerOf (h : s.Inv) (hzero : ∀ a, a < 20 → readByte s.buf a = 0) :
    bitsAt (((s.seek 0).emit s.headerOf).answered (okResponse 0 0)).buf 0 160 = s.headerOf := by
  have hbits := bitsAt_orBits (p := 0) (bs := s.headerOf) h.bufWf fun i hi =>
    bufBit_of_readByte_eq_zero hzero (by rw [State.headerOf_length] at hi; omega)
  rwa [State.headerOf_length, ← State.seek_zero_emit_answered_buf s s.headerOf (okResponse 0 0)] at hbits

/-- `RDHDR` on a header that holds the parameter registers' own values keeps them. `CHANNELS` and `BPS` must fit their
16-bit fields; `COUNT` and `RATE` fit theirs whatever they hold (R132). -/
theorem exec_rdhdr_of_own_header (h : s.Inv) (hbits : bitsAt s.buf 0 160 = s.headerOf)
    (hc : s.channels.toNat < 2 ^ 16) (hb : s.bps.toNat < 2 ^ 16) :
    exec .rdhdr s = .next ((s.afterHeader s.count.toNat s.channels.toNat s.bps.toNat s.rate.toNat).answered
      (okResponse 1 0)) := by
  obtain ⟨hmagic, hcount, hchannels, hbps, hrate⟩ := header_fields hbits
  rw [exec_rdhdr_of_magic h hmagic, hcount, hchannels, hbps, hrate, Nat.mod_eq_of_lt s.count.isLt, Nat.mod_eq_of_lt hc,
    Nat.mod_eq_of_lt hb, Nat.mod_eq_of_lt s.rate.isLt]

theorem State.afterHeader_own_params (s : State) :
    s.afterHeader s.count.toNat s.channels.toNat s.bps.toNat s.rate.toNat =
      (s.seek 160).withStatus (setHdrOk true s.status) := by
  simp [State.afterHeader, State.withParams, State.seek]

/-- Settles O38: the state after `WRHDR` holds its own header, and its parameters are those of before. -/
theorem headerReadsBackAsWritten : Obligations.HeaderReadsBackAsWritten := by
  intro s h hzero hc hb
  have hwrite := exec_wrhdr h
  have hinv := (exec_ends_inv h .wrhdr).inv hwrite
  have hread := exec_rdhdr_of_own_header hinv (bitsAt_emit_headerOf h hzero) hc hb
  rw [State.afterHeader_own_params] at hread
  exact ⟨_, (execAll_cons hwrite _).trans (execAll_cons hread []), rfl, rfl, rfl, rfl, rfl⟩

end Sys2Proof.Machine
end

section
/-! PROOF. The estimator and the predictor: what each command does to operands it accepts and refuses, the bounds on the
estimate, and that the decoder's predictor undoes the encoder's (43_estimator_predictor.md R140 to R146). -/

namespace Sys2Proof.Machine

variable {s : State}

/-- A command answered with status 0 has not faulted: its body ended with a result. -/
theorem respond_completed {α : Type} {r0 r1 : α → Word} {d : Done α} {t : State} {r : Response}
    (ht : respond r0 r1 d = .next t) (hr : t.rsp = some r) (h0 : r.status = 0) :
    ∃ a u, d = .ok a u ∧ t = u.answered (okResponse (r0 a) (r1 a)) := by
  cases d with
  | ok a u =>
    cases ht
    exact ⟨a, u, rfl, rfl⟩
  | raised c info u =>
    cases ht
    cases hr
    exact absurd h0 (causeCode_ne_zero c)

/-! ## The average of a block (R140 to R142) -/

theorem estDivisor_eq (cfg : Config) (n : Nat) :
    estDivisor cfg n = if cfg.estDiv = .nominal then 512 else max n 1 := by
  unfold estDivisor
  cases cfg.estDiv <;> rfl

theorem le_estDivisor (cfg : Config) {n : Nat} (hn : n ≤ 512) : n ≤ estDivisor cfg n := by
  rw [estDivisor_eq]
  split <;> omega

/-- The sum over the block as R140 writes it, with `ref` before the first sample. -/
theorem absDiffSum_map_range (f : Nat → Int) (n : Nat) (ref : Int) :
    absDiffSum ref ((List.range n).map f) =
      ∑ i ∈ Finset.range n, (f i - if i = 0 then ref else f (i - 1)).natAbs := by
  induction n generalizing f ref with
  | zero => rfl
  | succ n ih =>
    have hshift (i : Nat) : (f (i + 1) - if i = 0 then f 0 else f (i - 1 + 1)) = f (i + 1) - f i := by
      cases i <;> rfl
    rw [List.range_succ_eq_map, List.map_cons, List.map_map, absDiffSum, ih, Finset.sum_range_succ', Nat.add_comm]
    simp [hshift]

/-- Values of one interval of length `d` differ by less than `d`. -/
theorem absDiffSum_le_of_range {lo ref : Int} {d : Nat} {xs : List Int} (hr : lo ≤ ref ∧ ref < lo + d)
    (hx : ∀ x ∈ xs, lo ≤ x ∧ x < lo + d) : absDiffSum ref xs ≤ xs.length * (d - 1) := by
  induction xs generalizing ref with
  | nil => exact Nat.zero_le _
  | cons x xs ih =>
    rw [List.forall_mem_cons] at hx
    obtain ⟨hhead, htail⟩ := hx
    have hfirst : (x - ref).natAbs ≤ d - 1 := by omega
    have hrest := ih hhead htail
    rw [absDiffSum, List.length_cons, Nat.add_mul, Nat.one_mul]
    omega

/-- Where the samples need `b` bits, the parameter is below `b` (R161). The first difference is taken against 0, so the
range must hold 0 too. -/
theorem blockParameter_lt_of_range (cfg : Config) {lo : Int} {b : Nat} {xs : List Int} (hb : 0 < b)
    (hn : xs.length ≤ 512) (h0 : lo ≤ 0 ∧ 0 < lo + 2 ^ b) (hx : ∀ x ∈ xs, lo ≤ x ∧ x < lo + 2 ^ b) :
    blockParameter cfg xs < b := by
  have hpos : 0 < 2 ^ b := Nat.two_pow_pos b
  have hsum : absDiffSum 0 xs ≤ xs.length * (2 ^ b - 1) :=
    absDiffSum_le_of_range (by exact_mod_cast h0) (by exact_mod_cast hx)
  have havg : blockAverage cfg xs ≤ 2 ^ b - 1 :=
    Nat.div_le_of_le_mul (hsum.trans (Nat.mul_le_mul_right _ (le_estDivisor cfg hn)))
  exact bitLength_lt (by omega) hb

/-! ## ESTIMATE (R140, R142) -/

/-- The state with the estimate of the samples in `ACC`, `AVG` and `K`. -/
def State.estimated (s : State) (xs : List Int) : State :=
  s.withEstimate (absDiffSum 0 xs) (blockAverage s.cfg xs) (blockParameter s.cfg xs)

section Estimated

variable {xs : List Int} (hn : xs.length ≤ 512) (hx : ∀ x ∈ xs, s.holdsSample x = true)

include hn hx

/-- The accumulator cannot overflow (R141). -/
theorem State.estimated_acc_toNat : (s.estimated xs).acc.toNat = absDiffSum 0 xs := by
  have hbits : 2 ^ sampleBits s.cfg.sampleW - 1 ≤ 2 ^ 32 - 1 := by cases s.cfg.sampleW <;> decide
  have hsum : absDiffSum 0 xs ≤ 512 * (2 ^ 32 - 1) :=
    (absDiffSum_le (inContainer_zero _) hx).trans (Nat.mul_le_mul hn hbits)
  exact word_toNat (by omega)

theorem State.estimated_avg_toNat : (s.estimated xs).avg.toNat = blockAverage s.cfg xs := by
  have hbits : 2 ^ sampleBits s.cfg.sampleW - 1 < 2 ^ 64 := by cases s.cfg.sampleW <;> decide
  exact word_toNat ((blockAverage_le hn hx).trans_lt hbits)

theorem State.estimated_k_toNat : (s.estimated xs).k.toNat = blockParameter s.cfg xs := by
  have hk := blockParameter_le hn hx
  exact k_toNat_withEstimate _ _ _ (by omega)

end Estimated

section Operands

variable {frame0 n ch : Nat}

theorem opEstimate_of_ch_ge (hn : n ≤ 512) (hc : s.channels.toNat ≤ ch) :
    opEstimate frame0 n ch s = .raised .illegalOperand (word ch) s :=
  (if_pos hn).trans (if_neg (Nat.not_lt.mpr hc))

theorem opEstimate_of_index_ge (hn : n ≤ 512) (hc : ch < s.channels.toNat) {i : Nat} (hi : i < n)
    (hout : s.cfg.smpElems ≤ s.smpIndex (frame0 + i) ch)
    (hbefore : ∀ j, j < i → s.smpIndex (frame0 + j) ch < s.cfg.smpElems) :
    opEstimate frame0 n ch s = .raised .smpBounds (saturated (s.smpIndex (frame0 + i) ch)) s := by
  rw [opEstimate, if_pos (show n ≤ blockSize from hn), if_pos hc,
    firstOutside_eq_some.mpr ⟨i, hi, rfl, hout, hbefore⟩]
  rfl

/-- An `ESTIMATE` that ends with a result was given a block that passes the three checks. -/
theorem legal_of_opEstimate_eq_ok {p : Nat × Nat} {u : State} (h : opEstimate frame0 n ch s = .ok p u) :
    n ≤ 512 ∧ ch < s.channels.toNat ∧ ∀ j, j < n → s.smpIndex (frame0 + j) ch < s.cfg.smpElems := by
  unfold opEstimate at h
  split_ifs at h with hn hc
  cases hf : firstOutside s frame0 ch n 0 with
  | some index =>
    rw [hf] at h
    cases h
  | none => exact ⟨hn, hc, firstOutside_eq_none.mp hf⟩

end Operands

section Estimate

variable {frame0 n ch : Word}

theorem exec_estimate (frame0 n ch : Word) (s : State) :
    exec (.estimate frame0 n ch) s =
      respond (fun p => word p.1) (fun p => word p.2) (opEstimate frame0.toNat n.toNat ch.toNat s) := rfl

theorem exec_estimate_of_legal (hn : n.toNat ≤ 512) (hc : ch.toNat < s.channels.toNat)
    (hi : ∀ j, j < n.toNat → s.smpIndex (frame0.toNat + j) ch.toNat < s.cfg.smpElems) :
    exec (.estimate frame0 n ch) s =
      .next ((s.estimated (blockSamples s frame0.toNat n.toNat ch.toNat)).answered
        (okResponse (word (blockParameter s.cfg (blockSamples s frame0.toNat n.toNat ch.toNat)))
          (word (blockAverage s.cfg (blockSamples s frame0.toNat n.toNat ch.toNat))))) := by
  rw [exec_estimate, opEstimate_eq hn hc hi]
  rfl

theorem exec_estimate_of_n_gt (h : 512 < n.toNat) :
    exec (.estimate frame0 n ch) s = .next (s.faulted .illegalOperand n) :=
  respond_raised_operand (opEstimate_of_n_gt h _ _)

theorem exec_estimate_of_ch_ge (hn : n.toNat ≤ 512) (hc : s.channels.toNat ≤ ch.toNat) :
    exec (.estimate frame0 n ch) s = .next (s.faulted .illegalOperand ch) :=
  respond_raised_operand (opEstimate_of_ch_ge hn hc)

theorem exec_estimate_of_index_ge (hn : n.toNat ≤ 512) (hc : ch.toNat < s.channels.toNat) {i : Nat} (hi : i < n.toNat)
    (hout : s.cfg.smpElems ≤ s.smpIndex (frame0.toNat + i) ch.toNat)
    (hbefore : ∀ j, j < i → s.smpIndex (frame0.toNat + j) ch.toNat < s.cfg.smpElems) :
    exec (.estimate frame0 n ch) s =
      .next (s.faulted .smpBounds (saturated (s.smpIndex (frame0.toNat + i) ch.toNat))) := by
  rw [exec_estimate, opEstimate_of_index_ge hn hc hi hout hbefore, respond_raised]

/-- A completed `ESTIMATE` had at most 512 samples and left their estimate. -/
theorem exec_estimate_completed {t : State} {r : Response} (ht : exec (.estimate frame0 n ch) s = .next t)
    (hr : t.rsp = some r) (h0 : r.status = 0) :
    n.toNat ≤ 512 ∧ t = (s.estimated (blockSamples s frame0.toNat n.toNat ch.toNat)).answered r := by
  obtain ⟨p, u, hop, -⟩ := respond_completed ht hr h0
  obtain ⟨hn, hc, hi⟩ := legal_of_opEstimate_eq_ok hop
  rw [exec_estimate_of_legal hn hc hi] at ht
  cases ht
  cases hr
  exact ⟨hn, rfl⟩

end Estimate

/-- Where `BPS` is a power of two, the `K` field holds the values below `BPS` (R161). -/
theorem State.two_pow_bprl {m : Nat} (h : s.bps.toNat = 2 ^ m) : 2 ^ s.bprl = s.bps.toNat := by
  rw [State.bprl, bitLength, h, Nat.log2_two_pow]

/-- Settles O40. The bounds of R142 come from the container, the bound by `BPS` from the range of the block's samples,
which holds the 0 before the first sample in both its forms. -/
theorem estimateFitsItsField : Obligations.EstimateFitsItsField := by
  intro frame0 n ch s t r h ht hr h0
  obtain ⟨hn, rfl⟩ := exec_estimate_completed ht hr h0
  have hx := h.holdsSample_block frame0.toNat n.toNat ch.toNat
  have hlen : (blockSamples s frame0.toNat n.toNat ch.toNat).length ≤ 512 := by rwa [blockSamples_length]
  rw [State.answered_avg, State.answered_k, State.estimated_avg_toNat hlen hx, State.estimated_k_toNat hlen hx]
  refine ⟨blockAverage_le hlen hx, Nat.le_sub_one_of_lt (blockParameter_lt hlen hx), fun m lo hm _ hlo hrange => ?_⟩
  have hbps : 0 < s.bps.toNat := hm ▸ Nat.two_pow_pos m
  have hzero : lo ≤ 0 ∧ 0 < lo + 2 ^ s.bps.toNat := by
    have hdouble : (2 : Int) ^ s.bps.toNat = 2 * 2 ^ (s.bps.toNat - 1) := by
      rw [← pow_succ', Nat.sub_add_cancel hbps]
    have hpos : (0 : Int) < 2 ^ (s.bps.toNat - 1) := by positivity
    omega
  have hk : blockParameter s.cfg _ < s.bps.toNat := blockParameter_lt_of_range s.cfg hbps hlen hzero hrange
  exact ⟨Nat.le_sub_one_of_lt hk, hk.trans_eq (State.two_pow_bprl hm).symm⟩

/-- Settles O39. The invariant bounds the sum, so the 64-bit registers hold the exact values. -/
theorem estimateComputesParameter : Obligations.EstimateComputesParameter := by
  intro frame0 n ch s x
  refine ⟨fun h hn hc hi => ?_, exec_estimate_of_n_gt, exec_estimate_of_ch_ge,
    fun hn hc i hi hout hbefore => exec_estimate_of_index_ge hn hc hi hout hbefore⟩
  have hx := h.holdsSample_block frame0.toNat n.toNat ch.toNat
  have hlen := blockSamples_length s frame0.toNat n.toNat ch.toNat
  have hacc := State.estimated_acc_toNat (hlen.trans_le hn) hx
  have havg := State.estimated_avg_toNat (hlen.trans_le hn) hx
  have hk := State.estimated_k_toNat (hlen.trans_le hn) hx
  refine ⟨_, _, exec_estimate_of_legal hn hc hi, hacc.trans (absDiffSum_map_range x n.toNat 0), ?_, ?_, hk, rfl⟩
  · rw [State.answered_avg, State.answered_acc, havg, hacc, blockAverage, hlen, estDivisor_eq]
  · rw [State.answered_avg, havg]
    rfl

/-! ## PRDRST, PRDENC and PRDDEC (R143 to R145) -/

theorem exec_prdrst (s : State) : exec .prdrst s = .next ((s.withPrev 0).answered (okResponse 0 0)) := rfl

theorem exec_prdenc_of_holds {sample : Word} (hx : s.holdsSample (sext64 sample) = true) :
    exec (.prdenc sample) s =
      .next ((s.withPrev (sext64 sample)).answered (okResponse (toBits64 (sext64 sample - s.prev)) 0)) :=
  congrArg (respond toBits64 fun _ => 0) (if_pos hx)

theorem exec_prdenc_of_outside {sample : Word} (hx : s.holdsSample (sext64 sample) = false) :
    exec (.prdenc sample) s = .next (s.faulted .illegalOperand sample) :=
  congrArg (respond toBits64 fun _ => 0) (if_neg (ne_true_of_eq_false hx))

theorem exec_prddec_of_holds {diff : Word} (hx : s.holdsSample (s.prev + sext64 diff) = true) :
    exec (.prddec diff) s =
      .next ((s.withPrev (s.prev + sext64 diff)).answered (okResponse (toBits64 (s.prev + sext64 diff)) 0)) :=
  congrArg (respond toBits64 fun _ => 0) (if_pos hx)

theorem exec_prddec_of_outside {diff : Word} (hx : s.holdsSample (s.prev + sext64 diff) = false) :
    exec (.prddec diff) s = .next (s.faulted .sampleRange (toBits64 (s.prev + sext64 diff))) :=
  congrArg (respond toBits64 fun _ => 0) (if_neg (ne_true_of_eq_false hx))

/-- Settles O41. -/
theorem prdrstClearsReference : Obligations.PrdrstClearsReference := exec_prdrst

/-- Settles O42. -/
theorem prdencReturnsDifference : Obligations.PrdencReturnsDifference := fun sample s =>
  ⟨fun hmin hmax =>
      have hx : s.holdsSample (sext64 sample) = true := State.holdsSample_iff.mpr ⟨hmin, hmax⟩
      ⟨exec_prdenc_of_holds hx, fun h => inContainer_sub hx h.prev⟩,
    fun hout => exec_prdenc_of_outside (State.holdsSample_eq_false hout)⟩

/-- Settles O43. -/
theorem prddecReturnsSample : Obligations.PrddecReturnsSample := fun _ _ =>
  ⟨fun hmin hmax => exec_prddec_of_holds (State.holdsSample_iff.mpr ⟨hmin, hmax⟩),
    fun hout => exec_prddec_of_outside (State.holdsSample_eq_false hout)⟩

/-! ## The predictor's inverse law (R146) -/

theorem State.holdsSample_of_cfg_eq {u : State} (h : u.cfg = s.cfg) {x : Int} (hx : s.holdsSample x = true) :
    u.holdsSample x = true := by
  rwa [State.holdsSample, h]

/-- `PRDDEC` on the difference `PRDENC` answers: the difference of two container values is small enough to stand in a
result word, so adding it gives the sample back. -/
theorem exec_prddec_of_difference {sample : Word} (hp : s.holdsSample s.prev = true)
    (hx : s.holdsSample (sext64 sample) = true) :
    exec (.prddec (toBits64 (sext64 sample - s.prev))) s =
      .next ((s.withPrev (sext64 sample)).answered (okResponse sample 0)) := by
  have hexec := congrArg (respond toBits64 fun _ => 0) (opPrddec_eq hp hx)
  rwa [respond_ok, toBits64_sext64] at hexec

/-- The words `PRDENC` answers over the samples, from `PREV = ref` on. -/
def differences (ref : Int) (samples : List Word) : List Word := (residuals ref (samples.map sext64)).map toBits64

theorem differences_cons (ref : Int) (x : Word) (xs : List Word) :
    differences ref (x :: xs) = toBits64 (sext64 x - ref) :: differences (sext64 x) xs := rfl

theorem responsesOf_prdenc {samples : List Word} (hx : ∀ x ∈ samples, s.holdsSample (sext64 x) = true) :
    responsesOf (samples.map .prdenc) s = (differences s.prev samples).map (okResponse · 0) := by
  induction samples generalizing s with
  | nil => rfl
  | cons x xs ih =>
    rw [List.forall_mem_cons] at hx
    obtain ⟨hhead, htail⟩ := hx
    have hrest := ih (s := (s.withPrev (sext64 x)).answered (okResponse (toBits64 (sext64 x - s.prev)) 0)) htail
    rw [differences_cons, List.map_cons, responsesOf_cons (exec_prdenc_of_holds hhead)]
    exact congrArg (okResponse (toBits64 (sext64 x - s.prev)) 0 :: ·) hrest

theorem responsesOf_prddec_differences {samples : List Word} (hp : s.holdsSample s.prev = true)
    (hx : ∀ x ∈ samples, s.holdsSample (sext64 x) = true) :
    responsesOf ((differences s.prev samples).map .prddec) s = samples.map (okResponse · 0) := by
  induction samples generalizing s with
  | nil => rfl
  | cons x xs ih =>
    rw [List.forall_mem_cons] at hx
    obtain ⟨hhead, htail⟩ := hx
    have hrest := ih (s := (s.withPrev (sext64 x)).answered (okResponse x 0)) hhead htail
    rw [differences_cons, List.map_cons, responsesOf_cons (exec_prddec_of_difference hp hhead)]
    exact congrArg (okResponse x 0 :: ·) hrest

/-- Settles O44, by induction on the sequence in the two lemmas on responses. -/
theorem predictorInvertsItself : Obligations.PredictorInvertsItself := by
  refine ⟨fun sample s u h hcfg hprev hmin hmax => ?_, fun samples s u hcfg hx => ?_⟩
  · have hs : s.holdsSample (sext64 sample) = true := State.holdsSample_iff.mpr ⟨hmin, hmax⟩
    have hp : u.holdsSample u.prev = true := State.holdsSample_of_cfg_eq hcfg (hprev ▸ h.prev)
    have hdec := exec_prddec_of_difference hp (State.holdsSample_of_cfg_eq hcfg hs)
    rw [hprev] at hdec
    exact ⟨_, _, _, exec_prdenc_of_holds hs, rfl, rfl, hdec, rfl, rfl⟩
  · have hs : ∀ x ∈ samples, s.holdsSample (sext64 x) = true := fun x h => State.holdsSample_iff.mpr (hx x h)
    have hu : ∀ x ∈ samples, u.holdsSample (sext64 x) = true := fun x h => State.holdsSample_of_cfg_eq hcfg (hs x h)
    refine ⟨differences 0 samples, ?_, ?_⟩
    · rw [responsesOf_cons (exec_prdrst s)]
      exact congrArg (okResponse 0 0 :: ·)
        (responsesOf_prdenc (s := (s.withPrev 0).answered (okResponse 0 0)) hs)
    · rw [responsesOf_cons (exec_prdrst u)]
      exact congrArg (okResponse 0 0 :: ·)
        (responsesOf_prddec_differences (s := (u.withPrev 0).answered (okResponse 0 0)) (inContainer_zero _) hu)

end Sys2Proof.Machine
end

section
/-! PROOF. The Rice parameter field and the codeword: what each command does where it fits and where it faults, and that
`RDEC` finds what `RENC` wrote (44_rice_codeword.md R155 to R159). -/

namespace Sys2Proof.Machine

variable {s : State}

/-! ## WRK (R155) -/

/-- The low bits of a register, as a field is written. -/
theorem uintBits_toNat {n : Nat} (w : Nat) (x : BitVec n) : uintBits w x.toNat = (List.range w).map x.getLsbD := rfl

theorem exec_wrk_of_fits (hp : s.pos + s.bprl ≤ s.bufBits) :
    exec .wrk s = .next ((s.emit (uintBits s.bprl s.k.toNat)).answered (okResponse 0 0)) :=
  congrArg respondPlain ((opWrk_eq s).trans (if_pos hp))

theorem exec_wrk_of_overflow (hp : s.bufBits < s.pos + s.bprl) :
    exec .wrk s = .next (s.faulted .bufBounds (word s.pos)) :=
  congrArg respondPlain ((opWrk_eq s).trans (if_neg (Nat.not_le.mpr hp)))

/-- Settles O45. -/
theorem wrkWritesParameterField : Obligations.WrkWritesParameterField := by
  intro s h
  refine ⟨fun hp => ⟨_, exec_wrk_of_fits hp, h.pos_emit (uintBits_length _ _) hp, ?_, rfl⟩, exec_wrk_of_overflow⟩
  rw [← uintBits_toNat]
  exact h.orWritten_emit _

/-! ## RDK (R156) -/

theorem exec_rdk_of_fits (hp : s.pos + s.bprl ≤ s.bufBits) :
    exec .rdk s = .next (((s.advance s.bprl).withK (fieldAt s.buf s.pos s.bprl)).answered
      (okResponse (word (fieldAt s.buf s.pos s.bprl)) 0)) :=
  congrArg (respond word fun _ => 0) ((opRdk_eq s).trans (if_pos hp))

theorem exec_rdk_of_overflow (hp : s.bufBits < s.pos + s.bprl) :
    exec .rdk s = .next (s.faulted .bufBounds (word s.pos)) :=
  congrArg (respond word fun _ => 0) ((opRdk_eq s).trans (if_neg (Nat.not_le.mpr hp)))

/-- `K` has room for every value of a field of at most 32 bits. -/
theorem State.withK_fieldAt_toNat (s : State) (m : List Host.Cell) (p : Nat) {w : Nat} (hw : w ≤ 32) :
    (s.withK (fieldAt m p w)).k.toNat = fieldAt m p w := by
  have hfield : fieldAt m p w < 2 ^ 32 := (fieldAt_lt m p w).trans_le (Nat.pow_le_pow_right (by decide) hw)
  rw [State.withK_k, BitVec.toNat_ofNat, Nat.mod_eq_of_lt hfield]

/-- Settles O46. -/
theorem rdkReadsParameterField : Obligations.RdkReadsParameterField := by
  intro s h
  refine ⟨fun hp => ⟨_, exec_rdk_of_fits hp, h.pos_advance hp, ?_⟩, exec_rdk_of_overflow⟩
  have hk := (s.advance s.bprl).withK_fieldAt_toNat s.buf s.pos (s.bprl_le.trans (by decide))
  rw [← word_toNat_eq_setWidth, State.answered_k, hk]
  refine ⟨fun i => ?_, fieldAt_lt s.buf s.pos s.bprl, rfl⟩
  rw [BitVec.getLsbD, hk]
  exact fieldAt_testBit s.buf s.pos s.bprl i

/-! ## RENC (R157) -/

/-- The codeword `RENC` writes for the difference in its operand, under `K`. -/
def State.codewordOf (s : State) (diff : Word) : List Bool := codeword s.k.toNat (sext64 diff)

theorem State.codewordOf_eq (s : State) (diff : Word) :
    s.codewordOf diff = [decide (diff.toInt < 0)] ++ List.replicate (diff.toInt.natAbs / 2 ^ s.k.toNat) true ++ [false] ++
      (List.range s.k.toNat).map (diff.toInt.natAbs % 2 ^ s.k.toNat).testBit := by
  rw [State.codewordOf, codeword, Nat.shiftRight_eq_div_pow]
  rfl

theorem State.codewordOf_length (s : State) (diff : Word) :
    (s.codewordOf diff).length = 2 + diff.toInt.natAbs / 2 ^ s.k.toNat + s.k.toNat := by
  rw [State.codewordOf, codeword_length, Nat.shiftRight_eq_div_pow]
  rfl

section Renc

variable {diff : Word} {n : Nat}

theorem exec_renc_of_fits (h : s.Inv) (hd : diff.toInt ≠ -(2 ^ 63)) (hk : s.k.toNat ≤ 64)
    (hn : (s.codewordOf diff).length = n) (hp : s.pos + n ≤ s.bufBits) :
    exec (.renc diff) s = .next ((s.emit (s.codewordOf diff)).answered (okResponse (word n) 0)) := by
  subst hn
  exact congrArg (respond word fun _ => 0) ((opRenc_eq h.small hd hk).trans (if_pos hp))

theorem exec_renc_of_overflow (h : s.Inv) (hd : diff.toInt ≠ -(2 ^ 63)) (hk : s.k.toNat ≤ 64)
    (hn : (s.codewordOf diff).length = n) (hp : s.bufBits < s.pos + n) :
    exec (.renc diff) s = .next (s.faulted .bufBounds (word s.pos)) := by
  subst hn
  exact congrArg (respond word fun _ => 0) ((opRenc_eq h.small hd hk).trans (if_neg (Nat.not_le.mpr hp)))

theorem exec_renc_of_min (hd : diff.toInt = -(2 ^ 63)) :
    exec (.renc diff) s = .next (s.faulted .illegalOperand diff) :=
  congrArg (respond word fun _ => 0) (if_pos hd)

theorem exec_renc_of_k_gt (hd : diff.toInt ≠ -(2 ^ 63)) (hk : 64 < s.k.toNat) :
    exec (.renc diff) s = .next (s.faulted .illegalOperand (s.k.setWidth 64)) := by
  have hop : opRenc diff s = .raised .illegalOperand (word s.k.toNat) s :=
    (if_neg hd).trans (if_neg (Nat.not_le.mpr hk))
  rw [← word_toNat_eq_setWidth]
  exact congrArg (respond word fun _ => 0) hop

end Renc

/-- Settles O47. -/
theorem rencWritesCodeword : Obligations.RencWritesCodeword := by
  intro diff s h
  have hlen := s.codewordOf_length diff
  refine ⟨fun hd hk hp => ⟨_, exec_renc_of_fits h hd hk hlen hp, h.pos_emit hlen hp, ?_, rfl⟩, exec_renc_of_min,
    exec_renc_of_k_gt, fun hd hk hp => exec_renc_of_overflow h hd hk hlen hp⟩
  rw [← State.codewordOf_eq]
  exact h.orWritten_emit _

/-! ## RDEC (R158) -/

/-- `RDEC` on a codeword of `n` bits. -/
theorem exec_rdec_at (hs : s.bufBits < 2 ^ 64) {d : Int} {n : Nat}
    (hc : CodewordAt s.buf s.bufBits s.k.toNat s.pos d (s.pos + n)) :
    exec .rdec s = .next ((s.advance n).answered (okResponse (toBits64 d) (word n))) := by
  have hop : opRdec s = .ok (d, n) (s.advance n) := by
    rw [opRdec_at hs hc, Nat.add_sub_cancel_left]
    rfl
  exact congrArg (respond (fun p => toBits64 p.1) fun p => word p.2) hop

theorem exec_rdec_of_raised {c : Cause} {info : Word} (hop : opRdec s = .raised c info s) :
    exec .rdec s = .next (s.faulted c info) :=
  congrArg (respond (fun p : Int × Nat => toBits64 p.1) fun p => word p.2) hop

theorem exec_rdec_of_k_gt (hk : 64 < s.k.toNat) :
    exec .rdec s = .next (s.faulted .illegalOperand (s.k.setWidth 64)) := by
  rw [← word_toNat_eq_setWidth]
  exact exec_rdec_of_raised (if_neg (Nat.not_le.mpr hk))

theorem exec_rdec_of_no_stop (h : s.Inv) (hk : s.k.toNat ≤ 64)
    (hones : ∀ x, s.pos + 1 ≤ x → x < s.bufBits → bufBit s.buf x = true) :
    exec .rdec s = .next (s.faulted .bufBounds (word s.pos)) := by
  have hrun : onesAt s.buf (s.pos + 1) (s.bufBits - (s.pos + 1)) = none :=
    onesAt_eq_none.mpr fun j hj => hones _ (Nat.le_add_right _ j) (by omega)
  apply exec_rdec_of_raised
  rw [opRdec_eq h.small hk, hrun]

theorem onesAt_of_unaryAt {m : List Host.Cell} {limit p q : Nat} (h : UnaryAt m limit p q) :
    onesAt m p (limit - p) = some q := by
  obtain ⟨hfit, hzero, hones⟩ := h
  exact onesAt_eq_some.mpr ⟨by omega, hzero, hones⟩

section Run

variable {q : Nat} (h : s.Inv) (hk : s.k.toNat ≤ 64) (hq : UnaryAt s.buf s.bufBits (s.pos + 1) q)

include h hk hq

theorem exec_rdec_of_overflow (hp : s.bufBits < s.pos + (2 + q + s.k.toNat)) :
    exec .rdec s = .next (s.faulted .bufBounds (word s.pos)) := by
  apply exec_rdec_of_raised
  rw [opRdec_eq h.small hk, onesAt_of_unaryAt hq]
  exact if_neg (Nat.not_le.mpr hp)

theorem exec_rdec_of_magnitude_gt (hp : s.pos + (2 + q + s.k.toNat) ≤ s.bufBits)
    (ha : 2 ^ 63 - 1 < magnitudeAt s.buf s.k.toNat s.pos q) :
    exec .rdec s = .next (s.faulted .sampleRange (word s.pos)) := by
  rw [magnitudeAt, ← Nat.add_assoc] at ha
  apply exec_rdec_of_raised
  rw [opRdec_eq h.small hk, onesAt_of_unaryAt hq]
  exact (if_pos hp).trans (if_neg (Nat.not_le.mpr ha))

end Run

/-- Settles O48. The bits after the sign either hold no 0 or a first one, and the run of ones before it is the
quotient. -/
theorem rdecReadsCodeword : Obligations.RdecReadsCodeword := by
  intro s h
  refine ⟨exec_rdec_of_k_gt, exec_rdec_of_no_stop h, fun q hk hfit hzero hones => ?_⟩
  have hq : UnaryAt s.buf s.bufBits (s.pos + 1) q := ⟨hfit, hzero, hones⟩
  rw [Nat.add_assoc s.pos 2 q]
  exact ⟨fun hp ha => ⟨_, exec_rdec_at h.small ⟨hk, q, hq, rfl, hp, ha, rfl⟩, h.pos_advance hp, rfl⟩,
    exec_rdec_of_magnitude_gt h hk hq, exec_rdec_of_overflow h hk hq⟩

/-! ## RENC, then RDEC (R159) -/

/-- On bits that were 0 the codeword `RENC` OR-writes stands as such. -/
theorem codewordAt_orBits_codewordOf (h : s.Inv) {diff : Word} (hk : s.k.toNat ≤ 64)
    (hd : diff.toInt.natAbs < 2 ^ 63) (hp : s.pos + (s.codewordOf diff).length ≤ s.bufBits)
    (hzero : ∀ i, i < (s.codewordOf diff).length → bufBit s.buf (s.pos + i) = false) :
    CodewordAt (orBits s.buf s.pos (s.codewordOf diff)) s.bufBits s.k.toNat s.pos diff.toInt
      (s.pos + (s.codewordOf diff).length) :=
  codewordAt_of_bits hk hd hp (bitsAt_orBits h.bufWf hzero)

/-- Settles O49: with the cursor back at the start, `RDEC` stands before the codeword that `RENC` wrote. -/
theorem codewordRoundTrip : Obligations.CodewordRoundTrip := by
  intro diff s h hk hd n hp hzero
  have hlen : (s.codewordOf diff).length = n := s.codewordOf_length diff
  have hat := codewordAt_orBits_codewordOf (diff := diff) h hk (by omega) (by rwa [hlen]) (by rwa [hlen])
  rw [hlen] at hat
  have hwrite := exec_renc_of_fits h (show diff.toInt ≠ -(2 ^ 63) by omega) hk hlen hp
  have hread := exec_rdec_at (s := s.rewritten (s.codewordOf diff)) h.small hat
  have hdiff : toBits64 diff.toInt = diff := toBits64_sext64 diff
  rw [hdiff] at hread
  have hall := execAll_cons hread []
  rw [← execAll_setpos_back h _ (okResponse (word n) 0), ← execAll_cons hwrite] at hall
  have hpos := h.pos_emit hlen hp
  exact ⟨_, _, hwrite, rfl, hall, rfl, (h.pos_advance hp).trans hpos.symm, rfl, hpos⟩

end Sys2Proof.Machine
end

section
/-! PROOF. `ENCBLK`: the three refusals, the record where it fits, the part of it where it does not, and the size of a
record (45_block.md R170, R173). -/

namespace Sys2Proof.Machine

variable {s : State}

/-! ## What a block command accepts (R170, R171) -/

/-- The block passes the three checks that come before any change: its length, its channel, its indices. -/
structure State.LegalBlock (s : State) (frame0 n ch : Nat) : Prop where
  length : n ≤ 512
  channel : ch < s.channels.toNat
  indices : ∀ j, j < n → s.smpIndex (frame0 + j) ch < s.cfg.smpElems

/-- The record of a block's samples under the parameter the estimator gives them. -/
def State.recordOf (s : State) (xs : List Int) : List Bool := recordBits s.bprl (blockParameter s.cfg xs) xs

section Operands

variable {frame0 n ch : Nat}

theorem opEncblk_of_ch_ge (hn : n ≤ 512) (hc : s.channels.toNat ≤ ch) :
    opEncblk frame0 n ch s = .raised .illegalOperand (word ch) s :=
  (if_pos hn).trans (if_neg (Nat.not_lt.mpr hc))

/-- The loops of `ENCBLK` see only what its `ESTIMATE` has let pass. -/
theorem opEncblk_of_opEstimate_eq_raised {c : Cause} {info : Word} {u : State} (hn : n ≤ 512)
    (hc : ch < s.channels.toNat) (h : opEstimate frame0 n ch s = .raised c info u) :
    opEncblk frame0 n ch s = .raised c info u := by
  rw [opEncblk, if_pos (show n ≤ blockSize from hn), if_pos hc, h, Done.andThen_raised]

theorem legalBlock_of_opEncblk_eq_ok {a : Nat} {u : State} (h : opEncblk frame0 n ch s = .ok a u) :
    s.LegalBlock frame0 n ch := by
  have hn : n ≤ 512 := by
    by_contra hn
    rw [opEncblk_of_n_gt (Nat.not_le.mp hn)] at h
    cases h
  have hc : ch < s.channels.toNat := by
    by_contra hc
    rw [opEncblk_of_ch_ge hn (Nat.not_lt.mp hc)] at h
    cases h
  cases he : opEstimate frame0 n ch s with
  | ok p t =>
    obtain ⟨-, -, hi⟩ := legal_of_opEstimate_eq_ok he
    exact ⟨hn, hc, hi⟩
  | raised c info t =>
    rw [opEncblk_of_opEstimate_eq_raised hn hc he] at h
    cases h

end Operands

section Encblk

variable {frame0 n ch : Word}

theorem exec_encblk (frame0 n ch : Word) (s : State) :
    exec (.encblk frame0 n ch) s = respond word (fun _ => 0) (opEncblk frame0.toNat n.toNat ch.toNat s) := rfl

theorem exec_encblk_of_n_gt (h : 512 < n.toNat) :
    exec (.encblk frame0 n ch) s = .next (s.faulted .illegalOperand n) :=
  respond_raised_operand (opEncblk_of_n_gt h _ _)

theorem exec_encblk_of_ch_ge (hn : n.toNat ≤ 512) (hc : s.channels.toNat ≤ ch.toNat) :
    exec (.encblk frame0 n ch) s = .next (s.faulted .illegalOperand ch) :=
  respond_raised_operand (opEncblk_of_ch_ge hn hc)

theorem exec_encblk_of_index_ge (hn : n.toNat ≤ 512) (hc : ch.toNat < s.channels.toNat) {i : Nat} (hi : i < n.toNat)
    (hout : s.cfg.smpElems ≤ s.smpIndex (frame0.toNat + i) ch.toNat)
    (hbefore : ∀ j, j < i → s.smpIndex (frame0.toNat + j) ch.toNat < s.cfg.smpElems) :
    exec (.encblk frame0 n ch) s =
      .next (s.faulted .smpBounds (saturated (s.smpIndex (frame0.toNat + i) ch.toNat))) :=
  congrArg (respond word fun _ => 0)
    (opEncblk_of_opEstimate_eq_raised hn hc (opEstimate_of_index_ge hn hc hi hout hbefore))

variable {xs : List Int} (h : s.Inv) (hb : s.LegalBlock frame0.toNat n.toNat ch.toNat)
  (hxs : blockSamples s frame0.toNat n.toNat ch.toNat = xs)

include h hb hxs

theorem exec_encblk_of_fits (hfit : s.pos + (s.recordOf xs).length ≤ s.bufBits) :
    exec (.encblk frame0 n ch) s =
      .next (((s.coded xs).emit (s.recordOf xs)).answered (okResponse (word (blockParameter s.cfg xs)) 0)) :=
  congrArg (respond word fun _ => 0)
    (opEncblk_fits h.small hxs hb.length hb.channel hb.indices (hxs ▸ h.holdsSample_block _ _ _) hfit)

theorem exec_encblk_of_field_overflow (hno : s.bufBits < s.pos + s.bprl) :
    exec (.encblk frame0 n ch) s = .next ((s.estimated xs).faulted .bufBounds (word s.pos)) := by
  rw [exec_encblk, opEncblk_loop hxs hb.length hb.channel hb.indices (hxs ▸ h.holdsSample_block _ _ _),
    if_neg (Nat.not_le.mpr hno)]
  rfl

end Encblk

/-- Where the first `i` parts of a record fit and the first `j + 1` do not, `i` is not past `j`. -/
theorem le_of_recordBits_take_fits {bprl k p limit i j : Nat} {xs : List Int}
    (hfit : p + (recordBits bprl k (xs.take i)).length ≤ limit)
    (hno : limit < p + (recordBits bprl k (xs.take (j + 1))).length) : i ≤ j := by
  by_contra hgt
  have hlt : j + 1 ≤ i := Nat.not_le.mp hgt
  have hprefix := recordBits_take_prefix bprl k (xs.take i) (j + 1)
  rw [List.take_take, Nat.min_eq_left hlt] at hprefix
  have hlen := hprefix.length_le
  omega

theorem bprl_le_recordBits_length (bprl k : Nat) (xs : List Int) : bprl ≤ (recordBits bprl k xs).length := by
  rw [recordBits_eq, List.length_append, uintBits_length]
  exact Nat.le_add_right _ _

/-- The first codeword that does not fit is one and the same, however it is found. -/
theorem exec_encblk_of_codeword_overflow {frame0 n ch : Word} {xs : List Int} {j p : Nat} (h : s.Inv)
    (hb : s.LegalBlock frame0.toNat n.toNat ch.toNat) (hxs : blockSamples s frame0.toNat n.toNat ch.toNat = xs)
    (hp : s.pos + (recordBits s.bprl (blockParameter s.cfg xs) (xs.take j)).length = p)
    (hfit : p ≤ s.bufBits)
    (hno : s.bufBits < s.pos + (recordBits s.bprl (blockParameter s.cfg xs) (xs.take (j + 1))).length) :
    exec (.encblk frame0 n ch) s =
      .next ((((s.coded xs).withPrev (lastSample 0 (xs.take j))).emit
        (recordBits s.bprl (blockParameter s.cfg xs) (xs.take j))).faulted .bufBounds (word p)) := by
  subst hp
  have hwhole := (recordBits_take_prefix s.bprl (blockParameter s.cfg xs) xs (j + 1)).length_le
  obtain ⟨hfield, -⟩ | ⟨i, hi, hfit', hno', hop⟩ := opEncblk_overflow h.small hxs hb.length hb.channel hb.indices
    (hxs ▸ h.holdsSample_block _ _ _) (by omega)
  · have hbprl := bprl_le_recordBits_length s.bprl (blockParameter s.cfg xs) (xs.take j)
    omega
  · obtain rfl : i = j := (le_of_recordBits_take_fits hfit' hno).antisymm (le_of_recordBits_take_fits hfit hno')
    exact congrArg (respond word fun _ => 0) hop

/-- `ENCBLK` writes after it has set registers that do not move the cursor. -/
theorem State.Inv.pos_emit_of_pos_eq {t : State} (h : s.Inv) (ht : t.pos = s.pos) {bs : List Bool}
    (hfit : s.pos + bs.length ≤ s.bufBits) : (t.emit bs).pos = s.pos + bs.length := by
  have hsmall := h.small
  rw [t.pos_emit (by omega), ht]

/-- Settles O50: the record fits, or its `K` field does not, or a codeword does not, of which there is one that is the
first. -/
theorem encblkWritesRecord : Obligations.EncblkWritesRecord := by
  intro frame0 n ch s h xs k estimated frame
  refine ⟨exec_encblk_of_n_gt, exec_encblk_of_ch_ge, fun hn hc i hi hout hbefore =>
    exec_encblk_of_index_ge hn hc hi hout hbefore, fun hn hc hi => ?_⟩
  have hb : s.LegalBlock frame0.toNat n.toNat ch.toNat := ⟨hn, hc, hi⟩
  refine ⟨fun hfit => ?_, fun hno => ?_, fun j _ hfit hno => ?_⟩
  · exact ⟨_, exec_encblk_of_fits h hb rfl hfit, rfl, h.pos_emit_of_pos_eq (t := s.coded xs) rfl hfit,
      bufBit_orBits h.bufWf s.pos _, rfl, ⟨rfl, rfl, rfl⟩, rfl, rfl⟩
  · exact ⟨_, exec_encblk_of_field_overflow h hb rfl hno, rfl, rfl, ⟨rfl, rfl, rfl⟩, rfl, rfl, rfl, rfl⟩
  · have hstop := h.pos_emit_of_pos_eq (t := (s.coded xs).withPrev (lastSample 0 (xs.take j))) rfl hfit
    exact ⟨_, exec_encblk_of_codeword_overflow h hb rfl hstop.symm (hstop ▸ hfit) hno, rfl, rfl, ⟨rfl, rfl, rfl⟩,
      hstop, bufBit_orBits h.bufWf s.pos _, rfl, rfl⟩

/-! ## A completed ENCBLK -/

/-- An `ENCBLK` answered with status 0 was given a legal block, and the whole record fits and is written. -/
theorem exec_encblk_completed {frame0 n ch : Word} {t : State} {r : Response} {xs : List Int} (h : s.Inv)
    (hxs : blockSamples s frame0.toNat n.toNat ch.toNat = xs) (ht : exec (.encblk frame0 n ch) s = .next t)
    (hr : t.rsp = some r) (h0 : r.status = 0) :
    s.LegalBlock frame0.toNat n.toNat ch.toNat ∧ s.pos + (s.recordOf xs).length ≤ s.bufBits ∧
      t = ((s.coded xs).emit (s.recordOf xs)).answered (okResponse (word (blockParameter s.cfg xs)) 0) := by
  obtain ⟨a, u, hop, -⟩ := respond_completed ht hr h0
  have hb := legalBlock_of_opEncblk_eq_ok hop
  have hfit : s.pos + (s.recordOf xs).length ≤ s.bufBits := by
    by_contra hno
    obtain ⟨-, hraised⟩ | ⟨j, -, -, -, hraised⟩ := opEncblk_overflow h.small hxs hb.length hb.channel hb.indices
      (hxs ▸ h.holdsSample_block _ _ _) (Nat.not_le.mp hno)
    · cases hop.symm.trans hraised
    · cases hop.symm.trans hraised
  rw [exec_encblk_of_fits h hb hxs hfit] at ht
  cases ht
  exact ⟨hb, hfit, rfl⟩

theorem State.coded_k_toNat {xs : List Int} (hn : xs.length ≤ 512) (hx : ∀ x ∈ xs, s.holdsSample x = true) :
    (s.coded xs).k.toNat = blockParameter s.cfg xs := State.estimated_k_toNat hn hx

/-! ## The size of a record (R173) -/

/-- The quotients of a block's codewords together: the one-bits of their unary runs. -/
def quotientSum (k : Nat) (ref : Int) (xs : List Int) : Nat := ((residuals ref xs).map (·.natAbs >>> k)).sum

theorem quotientSum_cons (k : Nat) (ref x : Int) (xs : List Int) :
    quotientSum k ref (x :: xs) = (x - ref).natAbs >>> k + quotientSum k x xs := rfl

theorem codewords_length (k : Nat) (ref : Int) (xs : List Int) :
    (codewords k ref xs).length = xs.length * (2 + k) + quotientSum k ref xs := by
  induction xs generalizing ref with
  | nil => simp [quotientSum, residuals]
  | cons x xs ih =>
    rw [codewords_cons, List.length_append, codeword_length, ih, quotientSum_cons, List.length_cons, Nat.succ_mul]
    omega

theorem State.recordOf_length (s : State) (xs : List Int) :
    (s.recordOf xs).length =
      s.bprl + xs.length * (2 + blockParameter s.cfg xs) + quotientSum (blockParameter s.cfg xs) 0 xs := by
  rw [State.recordOf, recordBits_eq, List.length_append, uintBits_length, codewords_length, Nat.add_assoc]

/-- Each quotient is its magnitude divided by `2^k`, rounded down. -/
theorem quotientSum_mul_two_pow_le (k : Nat) (ref : Int) (xs : List Int) :
    quotientSum k ref xs * 2 ^ k ≤ absDiffSum ref xs := by
  induction xs generalizing ref with
  | nil => exact (Nat.zero_mul _).le
  | cons x xs ih =>
    rw [quotientSum_cons, Nat.add_mul, Nat.shiftRight_eq_div_pow, absDiffSum]
    exact Nat.add_le_add (Nat.div_mul_le_self _ _) (ih x)

/-- The estimated parameter is the logarithm of the average, so the sum of the magnitudes is below `2^(K+1)` times the
divisor. -/
theorem absDiffSum_lt_two_pow_blockParameter (cfg : Config) (xs : List Int) :
    absDiffSum 0 xs < 2 * estDivisor cfg xs.length * 2 ^ blockParameter cfg xs := by
  have hdiv : 0 < estDivisor cfg xs.length := by
    rw [estDivisor_eq]
    split <;> omega
  have havg : blockAverage cfg xs < 2 ^ (blockParameter cfg xs + 1) := Nat.lt_log2_self
  rw [blockAverage, Nat.div_lt_iff_lt_mul hdiv, pow_succ'] at havg
  calc absDiffSum 0 xs < 2 * 2 ^ blockParameter cfg xs * estDivisor cfg xs.length := havg
    _ = 2 * estDivisor cfg xs.length * 2 ^ blockParameter cfg xs := Nat.mul_right_comm _ _ _

theorem quotientSum_lt (cfg : Config) (xs : List Int) :
    quotientSum (blockParameter cfg xs) 0 xs < 2 * estDivisor cfg xs.length :=
  lt_of_mul_lt_mul_right
    ((quotientSum_mul_two_pow_le _ 0 xs).trans_lt (absDiffSum_lt_two_pow_blockParameter cfg xs)) (Nat.zero_le _)

theorem absDiffSum_of_silent {xs : List Int} (hx : ∀ x ∈ xs, x = 0) : absDiffSum 0 xs = 0 := by
  induction xs with
  | nil => rfl
  | cons x xs ih =>
    rw [List.forall_mem_cons] at hx
    obtain ⟨rfl, htail⟩ := hx
    rw [absDiffSum, ih htail]
    rfl

theorem blockParameter_of_silent (cfg : Config) {xs : List Int} (hx : ∀ x ∈ xs, x = 0) : blockParameter cfg xs = 0 := by
  rw [blockParameter, blockAverage, absDiffSum_of_silent hx, Nat.zero_div]
  rfl

theorem quotientSum_of_silent {xs : List Int} (hx : ∀ x ∈ xs, x = 0) : quotientSum 0 0 xs = 0 := by
  have hle := quotientSum_mul_two_pow_le 0 0 xs
  rw [absDiffSum_of_silent hx] at hle
  omega

/-- Settles O53. The length of the record is known up to the quotients, and these together are less than twice the
divisor. -/
theorem recordSizeIsBounded : Obligations.RecordSizeIsBounded := by
  intro frame0 n ch s t r h ht hr h0
  have hx := h.holdsSample_block frame0.toNat n.toNat ch.toNat
  have hlen := blockSamples_length s frame0.toNat n.toNat ch.toNat
  generalize hxs : blockSamples s frame0.toNat n.toNat ch.toNat = xs at hx hlen ⊢
  obtain ⟨hb, hfit, rfl⟩ := exec_encblk_completed h hxs ht hr h0
  have hn : n.toNat ≤ 512 := hb.length
  have hk : (s.coded xs).k.toNat = blockParameter s.cfg xs := State.coded_k_toNat (hlen.trans_le hn) hx
  have hkw : 2 + blockParameter s.cfg xs ≤ sampleBits s.cfg.sampleW + 1 := by
    have := blockParameter_lt (hlen.trans_le hn) hx
    omega
  have hwhole : n.toNat * (2 + blockParameter s.cfg xs) ≤ 512 * (sampleBits s.cfg.sampleW + 1) := Nat.mul_le_mul hn hkw
  have hsize := s.recordOf_length xs
  have hquot := quotientSum_lt s.cfg xs
  rw [hlen] at hsize hquot
  rw [estDivisor_eq] at hquot
  rw [State.answered_pos, h.pos_emit_of_pos_eq (t := s.coded xs) rfl hfit, State.answered_k, State.emit_k, hk]
  refine ⟨?_, fun hd => ?_, fun hd => ?_, fun hd hn1 => ?_, fun hsilent => ?_⟩
  · rw [Nat.mul_add] at hsize
    omega
  · rw [if_pos hd] at hquot
    omega
  · rw [if_pos hd] at hquot
    omega
  · rw [if_neg (by rw [hd]; decide)] at hquot
    omega
  · rw [blockParameter_of_silent s.cfg hsilent, quotientSum_of_silent hsilent] at hsize
    omega

end Sys2Proof.Machine
end

section
/-! PROOF. `DECBLK`: the three refusals, what it leaves of a record or a part of one, and that it restores the block
that `ENCBLK` wrote (45_block.md R171, R172). -/

namespace Sys2Proof.Machine

variable {s : State}

/-! ## The samples a block stores (10_state.md R39) -/

theorem blockSamples_getD (s : State) (frame0 ch : Nat) {n j : Nat} (hj : j < n) :
    (blockSamples s frame0 n ch).getD j 0 = readSample s.smp (s.smpIndex (frame0 + j) ch) := by
  simp [blockSamples, List.getD, hj]

section Frames

variable {channels ch f : Nat} {xs : List Int} {m : List (Nat × Int)} (hm : Memory.wf 0 m = true) (hc : ch < channels)

include hm hc

theorem read_framesWritten_at {j : Nat} (hj : j < xs.length) :
    readSample (framesWritten channels ch f xs m) ((f + j) * channels + ch) = xs.getD j 0 := by
  have hmod : ((f + j) * channels + ch) % channels = ch := by
    rw [Nat.mul_comm, Nat.mul_add_mod, Nat.mod_eq_of_lt hc]
  have hdiv : ((f + j) * channels + ch) / channels = f + j := by
    rw [Nat.mul_comm, Nat.mul_add_div (by omega), Nat.div_eq_of_lt hc, Nat.add_zero]
  rw [read_framesWritten hm hc, hmod, hdiv, if_pos ⟨rfl, by omega, by omega⟩, Nat.add_sub_cancel_left]

theorem read_framesWritten_elsewhere {i : Nat} (hi : ∀ j, j < xs.length → i ≠ (f + j) * channels + ch) :
    readSample (framesWritten channels ch f xs m) i = readSample m i := by
  rw [read_framesWritten hm hc, if_neg]
  rintro ⟨hmod, hlo, hhi⟩
  have hsplit := Nat.div_add_mod i channels
  rw [hmod, Nat.mul_comm] at hsplit
  refine hi (i / channels - f) (by omega) ?_
  rw [Nat.add_sub_cancel' hlo, hsplit]

end Frames

/-! ## DECBLK (R171) -/

section Operands

variable {frame0 n ch : Nat}

theorem opDecblk_of_ch_ge (hn : n ≤ 512) (hc : s.channels.toNat ≤ ch) :
    opDecblk frame0 n ch s = .raised .illegalOperand (word ch) s :=
  (if_pos hn).trans (if_neg (Nat.not_lt.mpr hc))

theorem opDecblk_of_index_ge (hn : n ≤ 512) (hc : ch < s.channels.toNat) {i : Nat} (hi : i < n)
    (hout : s.cfg.smpElems ≤ s.smpIndex (frame0 + i) ch)
    (hbefore : ∀ j, j < i → s.smpIndex (frame0 + j) ch < s.cfg.smpElems) :
    opDecblk frame0 n ch s = .raised .smpBounds (saturated (s.smpIndex (frame0 + i) ch)) s := by
  rw [opDecblk, if_pos (show n ≤ blockSize from hn), if_pos hc,
    firstOutside_eq_some.mpr ⟨i, hi, rfl, hout, hbefore⟩]
  rfl

end Operands

/-- What `DECBLK` leaves in `t` when it has read the parameter `k` and the samples `xs` and stops at position `p`: the
samples at the block's indices, everything else that R171 does not name as before. -/
def State.LeftByDecblk (s : State) (frame0 ch k : Nat) (t : State) (xs : List Int) (p : Nat) : Prop :=
  t.pos = p ∧ t.k.toNat = k ∧ t.prev = lastSample 0 xs ∧
    (∀ j, j < xs.length → readSample t.smp (s.smpIndex (frame0 + j) ch) = xs.getD j 0) ∧
    (∀ i, (∀ j, j < xs.length → i ≠ s.smpIndex (frame0 + j) ch) → readSample t.smp i = readSample s.smp i) ∧
    t = { s with
      k := t.k, prev := t.prev, smp := t.smp, curByte := t.curByte, curBit := t.curBit, status := t.status,
      rsp := t.rsp }

/-- The fault log and the response, which the end of the command writes, are no part of it. -/
theorem State.leftByDecblk_decoded {frame0 ch k p : Nat} {xs : List Int} (h : s.Inv) (hc : ch < s.channels.toNat)
    (hk : k < 2 ^ 32) (hp : p ≤ s.bufBits) (st : Status) (r : Option Response) :
    s.LeftByDecblk frame0 ch k { s.decoded frame0 ch k p xs with status := st, rsp := r } xs p := by
  have hsmall := h.small
  exact ⟨s.decoded_pos frame0 ch k xs (by omega), s.decoded_k frame0 ch p xs hk, rfl,
    fun _ hj => read_framesWritten_at h.smpWf hc hj, fun _ hi => read_framesWritten_elsewhere h.smpWf hc hi, rfl⟩

/-- Where the decoder stops at a position where no sample can be decoded is inside the bits. -/
theorem CodewordFault.stop_le {w : SampleWidth} {m : List Host.Cell} {limit k p stop : Nat} {ref : Int} {c : Cause}
    {info : Word} (h : CodewordFault w m limit k p ref c info stop) (hp : p ≤ limit) : stop ≤ limit := by
  obtain ⟨-, -, -, rfl⟩ | ⟨-, -, -, -, rfl⟩ | ⟨-, q, -, -, -, -, rfl⟩ | ⟨-, q, -, -, -, -, -, rfl⟩ | ⟨d, hd, -⟩ := h
  · exact hp
  · exact hp
  · exact hp
  · exact hp
  · exact hd.bounds.2

section Decblk

variable {frame0 n ch : Word}

theorem exec_decblk (frame0 n ch : Word) (s : State) :
    exec (.decblk frame0 n ch) s = respond word (fun _ => 0) (opDecblk frame0.toNat n.toNat ch.toNat s) := rfl

theorem exec_decblk_of_n_gt (h : 512 < n.toNat) :
    exec (.decblk frame0 n ch) s = .next (s.faulted .illegalOperand n) :=
  respond_raised_operand (opDecblk_of_n_gt h _ _)

theorem exec_decblk_of_ch_ge (hn : n.toNat ≤ 512) (hc : s.channels.toNat ≤ ch.toNat) :
    exec (.decblk frame0 n ch) s = .next (s.faulted .illegalOperand ch) :=
  respond_raised_operand (opDecblk_of_ch_ge hn hc)

theorem exec_decblk_of_index_ge (hn : n.toNat ≤ 512) (hc : ch.toNat < s.channels.toNat) {i : Nat} (hi : i < n.toNat)
    (hout : s.cfg.smpElems ≤ s.smpIndex (frame0.toNat + i) ch.toNat)
    (hbefore : ∀ j, j < i → s.smpIndex (frame0.toNat + j) ch.toNat < s.cfg.smpElems) :
    exec (.decblk frame0 n ch) s =
      .next (s.faulted .smpBounds (saturated (s.smpIndex (frame0.toNat + i) ch.toNat))) :=
  congrArg (respond word fun _ => 0) (opDecblk_of_index_ge hn hc hi hout hbefore)

variable (hb : s.LegalBlock frame0.toNat n.toNat ch.toNat)

include hb

theorem exec_decblk_of_field_overflow (hno : s.bufBits < s.pos + s.bprl) :
    exec (.decblk frame0 n ch) s = .next (s.faulted .bufBounds (word s.pos)) :=
  congrArg (respond word fun _ => 0)
    ((opDecblk_loop hb.length hb.channel hb.indices).trans (if_neg (Nat.not_le.mpr hno)))

variable (h : s.Inv) {xs : List Int} {e : Nat}
  (hrec : RecordAt s.cfg.sampleW s.buf s.bufBits s.bprl s.pos xs e)

include h hrec

theorem exec_decblk_of_record (hlen : xs.length = n.toNat) :
    exec (.decblk frame0 n ch) s =
      .next ((s.decoded frame0.toNat ch.toNat (fieldAt s.buf s.pos s.bprl) e xs).answered
        (okResponse (word (fieldAt s.buf s.pos s.bprl)) 0)) := by
  rw [exec_decblk, ← hlen, opDecblk_ok h.small (hlen.trans_le hb.length) hb.channel (hlen ▸ hb.indices) hrec,
    respond_ok]

theorem exec_decblk_of_part (hlt : xs.length < n.toNat) {c : Cause} {info : Word} {stop : Nat}
    (hf : CodewordFault s.cfg.sampleW s.buf s.bufBits (fieldAt s.buf s.pos s.bprl) e (lastSample 0 xs) c info stop) :
    exec (.decblk frame0 n ch) s =
      .next ((s.decoded frame0.toNat ch.toNat (fieldAt s.buf s.pos s.bprl) stop xs).faulted c info) :=
  congrArg (respond word fun _ => 0) (opDecblk_fault h.small hb.length hb.channel hb.indices hlt hrec hf)

end Decblk

/-- Settles O51. What the decoder finds is a record of as many samples as the block has, or of fewer before a position
where none can be decoded; in both `DECBLK` leaves `State.decoded`. -/
theorem decblkReadsRecord : Obligations.DecblkReadsRecord := by
  refine ⟨?_, fun w m limit bprl k p xs hx hkb hk hfit hbits =>
    recordAt_of_bits hk hkb (fun x hmem => (inContainer_iff w x).mpr (hx x hmem)) hfit hbits⟩
  intro frame0 n ch s h k index left
  refine ⟨exec_decblk_of_n_gt, exec_decblk_of_ch_ge, fun hn hc i hi hout hbefore =>
    exec_decblk_of_index_ge hn hc hi hout hbefore, fun hn hc hi => ?_⟩
  have hb : s.LegalBlock frame0.toNat n.toNat ch.toNat := ⟨hn, hc, hi⟩
  have hk : k < 2 ^ 32 := fieldAt_bprl_lt s s.pos
  refine ⟨exec_decblk_of_field_overflow hb, fun xs e hrec => ?_, ?_⟩
  · have hend := (hrec.2.bounds hrec.1).2
    exact ⟨fun hlen => ⟨_, exec_decblk_of_record hb h hrec hlen, rfl, rfl, State.leftByDecblk_decoded h hc hk hend _ _⟩,
      fun hlt c info stop hf => ⟨_, exec_decblk_of_part hb h hrec hlt hf, rfl, rfl,
        State.leftByDecblk_decoded h hc hk (hf.stop_le hend) _ _⟩⟩
  · by_cases hfit : s.pos + s.bprl ≤ s.bufBits
    · obtain ⟨xs, e, hsamples, hcases⟩ :=
        samples_or_fault s.cfg.sampleW s.buf s.bufBits k n.toNat (s.pos + s.bprl) 0
      exact .inr ⟨xs, e, ⟨hfit, hsamples⟩, hcases⟩
    · exact .inl (Nat.not_le.mp hfit)

/-! ## ENCBLK, then DECBLK (R172) -/

/-- The block checks look at `CHANNELS` and at the size of `SMP` only. -/
theorem State.LegalBlock.congr {u : State} {frame0 n ch : Nat} (hb : s.LegalBlock frame0 n ch) (hcfg : u.cfg = s.cfg)
    (hchannels : u.channels = s.channels) : u.LegalBlock frame0 n ch :=
  ⟨hb.length, by rw [hchannels]; exact hb.channel, fun j hj => by
    rw [State.smpIndex, hchannels, hcfg]
    exact hb.indices j hj⟩

/-- On bits that were 0 an OR-written run stands as it was written, and still does in any memory that agrees with the
one written on the bits of the run. -/
theorem bitsAt_of_agrees_orBits {m m' : List Host.Cell} (hm : Memory.wf 0#8 m = true) {p : Nat} {bs : List Bool}
    (hzero : ∀ x, p ≤ x → x < p + bs.length → bufBit m x = false)
    (hagree : ∀ x, p ≤ x → x < p + bs.length → bufBit m' x = bufBit (orBits m p bs) x) :
    bitsAt m' p bs.length = bs := by
  have hwritten := bitsAt_orBits (p := p) (bs := bs) hm fun i hi => hzero (p + i) (by omega) (by omega)
  rw [bitsAt_eq_iff] at hwritten ⊢
  intro i hi
  rw [hagree (p + i) (by omega) (by omega), hwritten i hi]

/-- Settles O52. The bits `ENCBLK` wrote on zeros are still a record of the block's samples in the later state, and
`DECBLK` reads any record. -/
theorem blockRoundTrip : Obligations.BlockRoundTrip := by
  intro frame0 n ch s t u r h ht hr h0 hzero hkb hu hcfg hchannels hbps hpos hagree
  have hx := h.holdsSample_block frame0.toNat n.toNat ch.toNat
  have hlen := blockSamples_length s frame0.toNat n.toNat ch.toNat
  generalize hxs : blockSamples s frame0.toNat n.toNat ch.toNat = xs at hx hlen
  obtain ⟨hb, hfit, rfl⟩ := exec_encblk_completed h hxs ht hr h0
  have hn : xs.length ≤ 512 := hlen.trans_le hb.length
  have hend := h.pos_emit_of_pos_eq (t := s.coded xs) rfl hfit
  rw [State.answered_pos, hend] at hzero hagree
  rw [State.answered_k, State.emit_k, State.coded_k_toNat hn hx] at hkb
  have hbits : bitsAt u.buf s.pos (s.recordOf xs).length = s.recordOf xs :=
    bitsAt_of_agrees_orBits h.bufWf hzero hagree
  have hbprl : u.bprl = s.bprl := by rw [State.bprl, State.bprl, hbps]
  have hlimit : u.bufBits = s.bufBits := by rw [State.bufBits, State.bufBits, hcfg]
  obtain ⟨hfield, hrec⟩ : fieldAt u.buf u.pos u.bprl = blockParameter s.cfg xs ∧
      RecordAt u.cfg.sampleW u.buf u.bufBits u.bprl u.pos xs (s.pos + (s.recordOf xs).length) := by
    rw [hcfg, hlimit, hbprl, hpos]
    exact recordAt_of_bits ((blockParameter_le hn hx).trans (by decide)) hkb hx hfit hbits
  have hindex (j : Nat) : u.smpIndex (frame0.toNat + j) ch.toNat = s.smpIndex (frame0.toNat + j) ch.toNat := by
    rw [State.smpIndex, State.smpIndex, hchannels]
  have hbu := hb.congr hcfg hchannels
  have hread := exec_decblk_of_record hbu hu hrec hlen
  obtain ⟨hp, -, hprev, hin, hout, -⟩ := State.leftByDecblk_decoded (frame0 := frame0.toNat) (xs := xs) hu hbu.channel
    (fieldAt_bprl_lt u u.pos) (hrec.2.bounds hrec.1).2 u.status
    (some (okResponse (word (fieldAt u.buf u.pos u.bprl)) 0))
  simp only [hindex, hlen] at hin hout
  rw [hfield] at hread hp hprev hin hout
  refine ⟨_, hread, rfl, hp.trans hend.symm, rfl, hprev, fun j hj => ?_, hout, rfl⟩
  rw [← blockSamples_getD s frame0.toNat ch.toNat hj, hxs]
  exact hin j hj

end Sys2Proof.Machine
end

section
/-! PROOF. `ENCODE`: what it leaves where the stream fits in `BUF`, and where it does not (46_stream.md R181, R185;
60_exceptions.md R206). -/

namespace Sys2Proof.Machine

variable {s t : State} {B : List Bool}

theorem exec_encode (s : State) : exec .encode s = respond word (fun _ => 0) (opEncode s) := rfl

/-! ## What the block loop leaves -/

/-- `BUF` was cleared before the bits were written, so it holds them and else 0. -/
theorem EncMid.bufBit_eq (h : EncMid s t B) (x : Nat) : bufBit t.buf x = B.getD x false := by
  rw [h.buf, bufBit_orBits rfl]
  simp [bufBit, readByte]

theorem EncMid.answered_eq (h : EncMid s t B) (r : Response) :
    t.answered r = { s with
      buf := t.buf, curByte := t.curByte, curBit := t.curBit, k := t.k, prev := t.prev, acc := t.acc, avg := t.avg,
      rsp := some r } := by
  simp only [State.answered, h.cfg, h.channels, h.bps, h.rate, h.count, h.status, h.smp, h.pending]

theorem EncMid.faulted_eq (h : EncMid s t B) (c : Cause) (info : Word) :
    t.faulted c info = { s with
      buf := t.buf, curByte := t.curByte, curBit := t.curBit, k := t.k, prev := t.prev, acc := t.acc, avg := t.avg,
      status := logFault c t.status, rsp := (s.faulted c info).rsp } := by
  simp only [State.faulted, h.cfg, h.channels, h.bps, h.rate, h.count, h.status, h.smp, h.pending]

theorem getD_of_prefix {a b : List Bool} (h : a <+: b) (x : Nat) :
    a.getD x false = (decide (x < a.length) && b.getD x false) := by
  obtain ⟨c, rfl⟩ := h
  rw [getD_append]
  by_cases hx : x < a.length
  · simp [hx]
  · simp [hx]

theorem EncStop.prefix_encodedStream {b c : Nat} (h : EncStop s t B b c) (hb : b < blockCount s.count.toNat)
    (hc : c < s.channels.toNat) : B <+: s.encodedStream := by
  obtain ⟨rfl, -⟩ | ⟨j, -, rfl, -⟩ := h.part
  · exact s.soFar_prefix hb hc.le
  · have hrecord := s.soFar_prefix hb hc
    rw [State.soFar_channel] at hrecord
    exact ((List.prefix_append_right_inj _).mpr (recordBits_take_prefix _ _ _ j)).trans hrecord

/-! ## The command -/

/-- Settles O54: the block loop runs to its end, in the state `EncAt` describes. -/
theorem encodeWritesStream : Obligations.EncodeWritesStream := by
  intro s h hc hb hr hn hcap hfit
  obtain ⟨t, hop, hat⟩ := opEncode_fits h hc hb hr hn hcap hfit
  refine ⟨t.answered (okResponse (word (ceilDiv s.encodedStream.length 8)) 0), ?_, rfl, hat.pos, hat.bufBit_eq,
    ⟨_, rfl, hat.acc, hat.avg, hat.k, hat.prev⟩, hat.answered_eq _⟩
  rw [exec_encode, hop, respond_ok]

/-- Settles O55: the block loop stops in some record, in the state `EncStop` describes. -/
theorem encodeKeepsPrefixWhenFull : Obligations.EncodeKeepsPrefixWhenFull := by
  intro s h hc hb hr hn hcap hno
  obtain ⟨b, c, hblock, hchannel, B, t, hstop, hop⟩ := opEncode_overflow h hc hb hr hn hcap hno
  have hpos : (t.faulted .bufBounds (word B.length)).pos = B.length := hstop.pos
  have hprefix := hstop.prefix_encodedStream hblock hchannel
  refine ⟨t.faulted .bufBounds (word B.length), b, c, ?_, hblock, hchannel, ⟨hstop.acc, hstop.avg, hstop.k, ?_⟩, ?_, ?_,
    ?_, ?_, fun x => ?_, hstop.faulted_eq _ _⟩
  · rw [exec_encode, hop, respond_raised]
  · rw [hpos]
    exact hstop.part.imp (fun ⟨hB, hno, hprev⟩ => ⟨congrArg List.length hB, hno, hprev⟩)
      fun ⟨j, hj, hB, hno, hprev⟩ => ⟨j, hj, congrArg List.length hB, hno, hprev⟩
  · rw [hpos]
    rfl
  · exact congrArg (logFault .bufBounds) hstop.status
  · exact hpos ▸ hstop.header
  · exact hpos ▸ hstop.within
  · rw [hpos, ← getD_of_prefix hprefix]
    exact hstop.bufBit_eq x

end Sys2Proof.Machine
end

section
/-! PROOF. The checks of `ENCODE` and `DECODE` on the stream parameters (46_stream.md R187, R188). -/

namespace Sys2Proof.Machine

variable {s : State} {c : Cause} {info : Word}

theorem exec_decode (s : State) : exec .decode s = respond word (fun _ => 0) (opDecode s) := rfl

/-- The parameters are refused with this cause and info value: the first zero one in the order of R187 or, with none
zero, a sample buffer that is too large (R188). -/
def StreamRefusal (channels bps rate count elems : Nat) (c : Cause) (info : Word) : Prop :=
  (channels = 0 ∧ c = .invalidParams ∧ info = 0) ∨
  (channels ≠ 0 ∧ bps = 0 ∧ c = .invalidParams ∧ info = 1) ∨
  (channels ≠ 0 ∧ bps ≠ 0 ∧ rate = 0 ∧ c = .invalidParams ∧ info = 2) ∨
  (channels ≠ 0 ∧ bps ≠ 0 ∧ rate ≠ 0 ∧ count = 0 ∧ c = .invalidParams ∧ info = 3) ∨
  (channels ≠ 0 ∧ bps ≠ 0 ∧ rate ≠ 0 ∧ count ≠ 0 ∧ elems < count * channels ∧ c = .resource ∧
    info = word (min (count * channels) (2 ^ 64 - 1)))

theorem eq_zero_iff_toNat {n : Nat} (v : BitVec n) : v = 0 ↔ v.toNat = 0 := BitVec.toNat_inj.symm

/-- The first zero parameter, by the values of the registers. -/
theorem firstZeroParam_eq (s : State) :
    firstZeroParam s =
      if s.channels.toNat = 0 then some 0
      else if s.bps.toNat = 0 then some 1
      else if s.rate.toNat = 0 then some 2
      else if s.count.toNat = 0 then some 3
      else none := by
  simp only [firstZeroParam, eq_zero_iff_toNat]

theorem checkStream_of_zeroParam {reg : Nat} (h : firstZeroParam s = some reg) :
    checkStream s = .raised .invalidParams (word reg) s := by
  rw [checkStream, h]

theorem checkStream_of_tooLarge (h : firstZeroParam s = none) (hcap : s.cfg.smpElems < s.elements) :
    checkStream s = .raised .resource (saturated s.elements) s := by
  rw [checkStream, h]
  exact if_neg (Nat.not_le.mpr hcap)

/-- The checks raise the refusal the register values call for, and change nothing. -/
theorem checkStream_of_refusal
    (h : StreamRefusal s.channels.toNat s.bps.toNat s.rate.toNat s.count.toNat s.cfg.smpElems c info) :
    checkStream s = .raised c info s := by
  have hzero := firstZeroParam_eq s
  obtain ⟨hc, rfl, rfl⟩ | ⟨hc, hb, rfl, rfl⟩ | ⟨hc, hb, hr, rfl, rfl⟩ | ⟨hc, hb, hr, hn, rfl, rfl⟩ |
    ⟨hc, hb, hr, hn, hcap, rfl, rfl⟩ := h
  · rw [if_pos hc] at hzero
    exact checkStream_of_zeroParam hzero
  · rw [if_neg hc, if_pos hb] at hzero
    exact checkStream_of_zeroParam hzero
  · rw [if_neg hc, if_neg hb, if_pos hr] at hzero
    exact checkStream_of_zeroParam hzero
  · rw [if_neg hc, if_neg hb, if_neg hr, if_pos hn] at hzero
    exact checkStream_of_zeroParam hzero
  · rw [if_neg hc, if_neg hb, if_neg hr, if_neg hn] at hzero
    exact checkStream_of_tooLarge hzero hcap

theorem of_firstZeroParam_eq_none (h : firstZeroParam s = none) :
    s.channels ≠ 0 ∧ s.bps ≠ 0 ∧ s.rate ≠ 0 ∧ s.count ≠ 0 := by
  unfold firstZeroParam at h
  split_ifs at h with hc hb hr hn
  exact ⟨hc, hb, hr, hn⟩

/-- What the checks have established where they pass. -/
theorem of_checkStream_eq_ok {t : State} (h : checkStream s = .ok () t) :
    t = s ∧ (s.channels ≠ 0 ∧ s.bps ≠ 0 ∧ s.rate ≠ 0 ∧ s.count ≠ 0) ∧ s.elements ≤ s.cfg.smpElems := by
  rw [checkStream] at h
  split at h
  · cases h
  · rename_i hnone
    split at h
    · rename_i hcap
      cases h
      exact ⟨rfl, of_firstZeroParam_eq_none hnone, hcap⟩
    · cases h

/-- The state in which `DECODE` checks the parameters of a recognised header. -/
def State.loaded (s : State) : State :=
  s.afterHeader (fieldAt s.buf 32 64) (fieldAt s.buf 96 16) (fieldAt s.buf 112 16) (fieldAt s.buf 128 32)

/-- The registers after a recognised header are its fields. -/
theorem State.loaded_params (s : State) :
    s.loaded.count.toNat = fieldAt s.buf 32 64 ∧ s.loaded.channels.toNat = fieldAt s.buf 96 16 ∧
      s.loaded.bps.toNat = fieldAt s.buf 112 16 ∧ s.loaded.rate.toNat = fieldAt s.buf 128 32 :=
  s.afterHeader_params (fieldAt_lt _ _ _) (fieldAt_lt _ _ _) (fieldAt_lt _ _ _) (fieldAt_lt _ _ _)

theorem opRdhdr_of_magic (h : s.Inv) (hm : fieldAt s.buf 0 32 = magic) : opRdhdr s = .ok true s.loaded :=
  (opRdhdr_eq h.small h.atLeastHeader).trans (if_pos hm)

theorem opDecode_of_check_raised (h : s.Inv) (hm : fieldAt s.buf 0 32 = magic) {t : State}
    (hcheck : checkStream s.loaded = .raised c info t) : opDecode s = .raised c info t := by
  rw [opDecode, opRdhdr_of_magic h hm, Done.andThen_ok, if_pos rfl, hcheck, Done.andThen_raised]

/-- Settles O56: both commands run the same check, `ENCODE` on its registers as they are and `DECODE` on those it has
loaded. -/
theorem streamCommandsCheckParameters : Obligations.StreamCommandsCheckParameters := by
  unfold Obligations.StreamCommandsCheckParameters
  intro refusal
  refine ⟨fun s c info hrefusal => ?_, fun s c info h hm hrefusal => ?_⟩
  · rw [exec_encode, opEncode, checkStream_of_refusal hrefusal, Done.andThen_raised, respond_raised]
  · obtain ⟨hcount, hchannels, hbps, hrate⟩ := s.loaded_params
    have hloaded : StreamRefusal s.loaded.channels.toNat s.loaded.bps.toNat s.loaded.rate.toNat
        s.loaded.count.toNat s.cfg.smpElems c info := by
      rw [hcount, hchannels, hbps, hrate]
      exact hrefusal
    rw [exec_decode, opDecode_of_check_raised h hm (checkStream_of_refusal hloaded), respond_raised]
    rfl

end Sys2Proof.Machine
end

section
/-! PROOF. `ENCODE` and `DECODE` do not look at the cursor, `K`, `PREV`, `ACC` and `AVG` that were there before
(46_stream.md R181, R182): two runs side by side, the registers in which they may differ named at every point. -/

namespace Sys2Proof.Machine

variable {α β : Type} {free : List Target} {s t : State}

/-! ## States that differ in some registers -/

/-- `t` is `s`, but for what the registers listed in `free` hold; only the cursor and the block registers can be
free. -/
structure SameBut (free : List Target) (s t : State) : Prop where
  cursor : .cursor ∉ free → t.curByte = s.curByte ∧ t.curBit = s.curBit
  k : .k ∉ free → t.k = s.k
  prev : .prev ∉ free → t.prev = s.prev
  estimate : .estimate ∉ free → t.acc = s.acc ∧ t.avg = s.avg
  cfg : t.cfg = s.cfg
  channels : t.channels = s.channels
  bps : t.bps = s.bps
  rate : t.rate = s.rate
  count : t.count = s.count
  status : t.status = s.status
  buf : t.buf = s.buf
  smp : t.smp = s.smp
  pending : t.pending = s.pending
  rsp : t.rsp = s.rsp

/-- The registers a stream command must not depend on. -/
abbrev oldRegisters : List Target := [.cursor, .k, .prev, .estimate]

namespace SameBut

theorem refl (free : List Target) (s : State) : SameBut free s s :=
  ⟨fun _ => ⟨rfl, rfl⟩, fun _ => rfl, fun _ => rfl, fun _ => ⟨rfl, rfl⟩, rfl, rfl, rfl, rfl, rfl, rfl, rfl, rfl, rfl,
    rfl⟩

theorem mono {free' : List Target} (h : SameBut free s t) (hsub : free ⊆ free') : SameBut free' s t :=
  { h with
    cursor := fun hn => h.cursor fun hm => hn (hsub hm)
    k := fun hn => h.k fun hm => hn (hsub hm)
    prev := fun hn => h.prev fun hm => hn (hsub hm)
    estimate := fun hn => h.estimate fun hm => hn (hsub hm) }

/-- No more than the old registers can ever be free. -/
theorem old (h : SameBut free s t) : SameBut oldRegisters s t :=
  { h with
    cursor := fun hn => absurd (by simp) hn
    k := fun hn => absurd (by simp) hn
    prev := fun hn => absurd (by simp) hn
    estimate := fun hn => absurd (by simp) hn }

/-- Whatever is put into the old registers, they are all that differs. -/
theorem overwritten (s : State) (byte : BitVec 64) (bit : BitVec 3) (k : BitVec 32) (prev : Int) (acc avg : BitVec 64) :
    SameBut oldRegisters s
      { s with curByte := byte, curBit := bit, k := k, prev := prev, acc := acc, avg := avg } :=
  { refl [] s with
    cursor := fun hn => absurd (by simp) hn
    k := fun hn => absurd (by simp) hn
    prev := fun hn => absurd (by simp) hn
    estimate := fun hn => absurd (by simp) hn }

theorem eq_of_nil (h : SameBut [] s t) : t = s := by
  obtain ⟨hcursor, hk, hprev, hestimate, hcfg, hchannels, hbps, hrate, hcount, hstatus, hbuf, hsmp, hpending, hrsp⟩ := h
  obtain ⟨hbyte, hbit⟩ := hcursor List.not_mem_nil
  obtain ⟨hacc, havg⟩ := hestimate List.not_mem_nil
  cases s
  cases t
  congr
  · exact hk List.not_mem_nil
  · exact hprev List.not_mem_nil

theorem estimate_eq (h : SameBut [.estimate] s t) : t = { s with acc := t.acc, avg := t.avg } :=
  eq_of_nil { h with
    cursor := fun _ => h.cursor (by decide)
    k := fun _ => h.k (by decide)
    prev := fun _ => h.prev (by decide)
    estimate := fun _ => ⟨rfl, rfl⟩ }

theorem pos (h : SameBut free s t) (hc : .cursor ∉ free) : t.pos = s.pos := by
  obtain ⟨hbyte, hbit⟩ := h.cursor hc
  rw [State.pos, State.pos, hbyte, hbit]

theorem bufBits (h : SameBut free s t) : t.bufBits = s.bufBits := by rw [State.bufBits, State.bufBits, h.cfg]

theorem bprl (h : SameBut free s t) : t.bprl = s.bprl := by rw [State.bprl, State.bprl, h.bps]

theorem elements (h : SameBut free s t) : t.elements = s.elements := by
  rw [State.elements, State.elements, h.count, h.channels]

theorem smpIndex (h : SameBut free s t) (frame ch : Nat) : t.smpIndex frame ch = s.smpIndex frame ch := by
  rw [State.smpIndex, State.smpIndex, h.channels]

theorem holdsSample (h : SameBut free s t) (x : Int) : t.holdsSample x = s.holdsSample x := by
  rw [State.holdsSample, State.holdsSample, h.cfg]

theorem firstZeroParam (h : SameBut free s t) : firstZeroParam t = firstZeroParam s := by
  simp only [Machine.firstZeroParam, h.channels, h.bps, h.rate, h.count]

theorem firstOutside (h : SameBut free s t) (frame0 ch n i : Nat) :
    firstOutside t frame0 ch n i = firstOutside s frame0 ch n i := by
  induction n generalizing i with
  | zero => rfl
  | succ n ih => simp only [Machine.firstOutside, h.cfg, h.smpIndex, ih]

/-! ### Updates: a register that is written is the same from then on -/

theorem seek_fixes (h : SameBut (.cursor :: free) s t) (p : Nat) : SameBut free (s.seek p) (t.seek p) :=
  { h with
    cursor := fun _ => ⟨rfl, rfl⟩
    k := fun hn => h.k (by simpa using hn)
    prev := fun hn => h.prev (by simpa using hn)
    estimate := fun hn => h.estimate (by simpa using hn) }

theorem seek (h : SameBut free s t) (p : Nat) : SameBut free (s.seek p) (t.seek p) :=
  (h.mono (List.subset_cons_self _ _)).seek_fixes p

theorem withK (h : SameBut (.k :: free) s t) (v : Nat) : SameBut free (s.withK v) (t.withK v) :=
  { h with
    cursor := fun hn => h.cursor (by simpa using hn)
    k := fun _ => rfl
    prev := fun hn => h.prev (by simpa using hn)
    estimate := fun hn => h.estimate (by simpa using hn) }

theorem withPrev_fixes (h : SameBut (.prev :: free) s t) (x : Int) : SameBut free (s.withPrev x) (t.withPrev x) :=
  { h with
    cursor := fun hn => h.cursor (by simpa using hn)
    k := fun hn => h.k (by simpa using hn)
    prev := fun _ => rfl
    estimate := fun hn => h.estimate (by simpa using hn) }

theorem withPrev (h : SameBut free s t) (x : Int) : SameBut free (s.withPrev x) (t.withPrev x) :=
  (h.mono (List.subset_cons_self _ _)).withPrev_fixes x

theorem withEstimate (h : SameBut (.k :: .estimate :: free) s t) (a b c : Nat) :
    SameBut free (s.withEstimate a b c) (t.withEstimate a b c) :=
  { h with
    cursor := fun hn => h.cursor (by simpa using hn)
    k := fun _ => rfl
    prev := fun hn => h.prev (by simpa using hn)
    estimate := fun _ => ⟨rfl, rfl⟩ }

theorem withBuf (h : SameBut free s t) (m : List Host.Cell) : SameBut free (s.withBuf m) (t.withBuf m) :=
  { h with buf := rfl }

theorem withSmp (h : SameBut free s t) (m : List (Nat × Int)) : SameBut free (s.withSmp m) (t.withSmp m) :=
  { h with smp := rfl }

theorem withStatus (h : SameBut free s t) (st : Status) : SameBut free (s.withStatus st) (t.withStatus st) :=
  { h with status := rfl }

theorem withParams (h : SameBut free s t) (a b c d : Nat) :
    SameBut free (s.withParams a b c d) (t.withParams a b c d) :=
  { h with channels := rfl, bps := rfl, rate := rfl, count := rfl }

theorem answered (h : SameBut free s t) (r : Response) : SameBut free (s.answered r) (t.answered r) :=
  { h with rsp := rfl }

theorem faulted (h : SameBut free s t) (c : Cause) (info : Word) :
    SameBut free (s.faulted c info) (t.faulted c info) :=
  { h with status := congrArg (logFault c) h.status, rsp := rfl }

end SameBut

/-! ## Bodies that end alike -/

/-- Two bodies end alike: with the same result in states that differ in `free` at most, or with the same fault in states
that differ in the old registers at most. -/
inductive Done.Alike (free : List Target) : Done α → Done α → Prop
  | ok (a : α) {s t : State} (h : SameBut free s t) : Done.Alike free (.ok a s) (.ok a t)
  | raised (c : Cause) (info : Word) {s t : State} (h : SameBut oldRegisters s t) :
      Done.Alike free (.raised c info s) (.raised c info t)

theorem Done.Alike.refl (d : Done α) : Done.Alike free d d := by
  cases d with
  | ok a s => exact .ok a (.refl _ _)
  | raised c info s => exact .raised c info (.refl _ _)

theorem Done.Alike.andThen {free' : List Target} {d e : Done α} {f g : α → State → Done β} (h : Done.Alike free d e)
    (hf : ∀ a s t, d = .ok a s → SameBut free s t → Done.Alike free' (f a s) (g a t)) :
    Done.Alike free' (d.andThen f) (e.andThen g) := by
  cases h with
  | ok a h => exact hf a _ _ rfl h
  | raised c info h => exact .raised c info h

/-! ### The cursor, where it is the same -/

section Cursor

variable (h : SameBut free s t) (hc : .cursor ∉ free)

include h hc

theorem takeBits_alike (w : Nat) : Done.Alike free (takeBits w s) (takeBits w t) := by
  unfold takeBits State.advance
  rw [h.pos hc, h.bufBits, h.buf]
  split
  · exact .ok _ (h.seek _)
  · exact .raised _ _ h.old

theorem opRduint_alike (w : Nat) : Done.Alike free (opRduint w s) (opRduint w t) := by
  unfold opRduint
  split
  · exact takeBits_alike h hc w
  · exact .raised _ _ h.old

theorem opRdunary_alike : Done.Alike free (opRdunary s) (opRdunary t) := by
  unfold opRdunary State.advance
  rw [h.pos hc, h.bufBits, h.buf]
  split
  · exact .ok _ (h.seek _)
  · exact .raised _ _ h.old

theorem opAlign_alike : Done.Alike free (opAlign s) (opAlign t) := by
  obtain ⟨hbyte, hbit⟩ := h.cursor hc
  unfold opAlign
  rw [hbyte, hbit]
  split
  · exact .ok _ h
  · exact .ok _ (h.seek _)

theorem putBits_alike (w : Nat) (f : Nat → Bool) : Done.Alike free (putBits w f s) (putBits w f t) := by
  unfold putBits State.advance
  rw [h.pos hc, h.bufBits, h.buf, State.withBuf_pos, State.withBuf_pos, h.pos hc]
  split
  · exact .ok _ ((h.withBuf _).seek _)
  · exact .raised _ _ h.old

theorem opWruint_alike (w v : Nat) : Done.Alike free (opWruint w v s) (opWruint w v t) := by
  unfold opWruint
  split
  · exact putBits_alike h hc w _
  · exact .raised _ _ h.old

theorem readCodeword_alike (k : Nat) : Done.Alike free (readCodeword k s) (readCodeword k t) := by
  unfold readCodeword
  refine (takeBits_alike h hc 1).andThen fun sg s1 t1 _ h1 => ?_
  refine (opRdunary_alike h1 hc).andThen fun q s2 t2 _ h2 => ?_
  refine (opRduint_alike h2 hc k).andThen fun r s3 t3 _ h3 => ?_
  rw [h.pos hc]
  simp only
  split
  · exact .ok _ h3
  · exact .raised _ _ h3.old

theorem opRdec_alike (hk : .k ∉ free) : Done.Alike free (opRdec s) (opRdec t) := by
  unfold opRdec
  rw [h.k hk, h.pos hc]
  split
  · have hread := readCodeword_alike h hc s.k.toNat
    generalize readCodeword s.k.toNat s = d at hread
    generalize readCodeword s.k.toNat t = e at hread
    cases hread with
    | ok a h1 => exact .ok a h1
    | raised c info h1 => exact .raised c _ (h1.seek _)
  · exact .raised _ _ h.old

end Cursor

/-! ### Blocks -/

theorem opEstimate_alike (h : SameBut (.k :: .estimate :: free) s t) (frame0 n ch : Nat) :
    Done.Alike free (opEstimate frame0 n ch s) (opEstimate frame0 n ch t) := by
  unfold opEstimate
  rw [h.channels, h.firstOutside, h.cfg, blockSamples_congr h.smp h.channels]
  split
  · split
    · split
      · exact .raised _ _ h.old
      · exact .ok _ (h.withEstimate _ _ _)
    · exact .raised _ _ h.old
  · exact .raised _ _ h.old

/-- `ENCBLK` writes every block register before it reads it, so it leaves the same state. -/
theorem opEncblk_alike (h : SameBut [.k, .estimate, .prev] s t) (frame0 n ch : Nat) :
    Done.Alike [] (opEncblk frame0 n ch s) (opEncblk frame0 n ch t) := by
  unfold opEncblk
  rw [h.channels]
  split
  · split
    · refine (opEstimate_alike h frame0 n ch).andThen fun _ s1 t1 _ h1 => ?_
      have hk : t1.k = s1.k := h1.k (by decide)
      have hwrk : Done.Alike [.prev] (opWrk s1) (opWrk t1) := by
        rw [opWrk, opWrk, h1.bprl, hk]
        exact opWruint_alike h1 (by decide) _ _
      refine hwrk.andThen fun _ s2 t2 _ h2 => ?_
      have hrst : t2.withPrev 0 = s2.withPrev 0 := (h2.withPrev_fixes 0).eq_of_nil
      rw [opPrdrst, opPrdrst, hrst]
      exact .refl _
    · exact .raised _ _ h.old
  · exact .raised _ _ h.old

theorem opPrddec_alike (h : SameBut [.estimate] s t) (diff : Word) :
    Done.Alike [.estimate] (opPrddec diff s) (opPrddec diff t) := by
  have hprev : t.prev = s.prev := h.prev (by decide)
  unfold opPrddec
  rw [hprev, h.holdsSample]
  split
  · exact .ok _ (h.withPrev _)
  · exact .raised _ _ h.old

theorem decSamples_alike (h : SameBut [.estimate] s t) (frame0 ch n i : Nat) :
    Done.Alike [.estimate] (decSamples frame0 ch n i s) (decSamples frame0 ch n i t) := by
  induction n generalizing i s t with
  | zero => exact .ok _ h
  | succ n ih =>
    refine (opRdec_alike h (by decide) (by decide)).andThen fun d s1 t1 _ h1 => ?_
    refine (opPrddec_alike h1 _).andThen fun x s2 t2 _ h2 => ih ?_ _
    rw [State.storeSample, State.storeSample, h2.smp, h2.smpIndex]
    exact h2.withSmp _

/-- `DECBLK` writes `K` and `PREV` before it reads them, and does not look at `ACC` and `AVG`. -/
theorem opDecblk_alike (h : SameBut [.k, .prev, .estimate] s t) (frame0 n ch : Nat) :
    Done.Alike [.estimate] (opDecblk frame0 n ch s) (opDecblk frame0 n ch t) := by
  unfold opDecblk
  rw [h.channels, h.firstOutside]
  split
  · split
    · split
      · exact .raised _ _ h.old
      · have hrdk : Done.Alike [.prev, .estimate] (opRdk s) (opRdk t) := by
          rw [opRdk, opRdk, h.bprl]
          exact (opRduint_alike h (by decide) _).andThen fun k s1 t1 _ h1 => .ok k (h1.withK k)
        refine hrdk.andThen fun _ s1 t1 _ h1 => ?_
        refine Done.Alike.andThen (.ok () (h1.withPrev_fixes 0)) fun _ s2 t2 _ h2 => ?_
        refine (decSamples_alike h2 frame0 ch n 0).andThen fun _ s3 t3 _ h3 => ?_
        rw [h3.k (by decide)]
        exact .ok _ h3
    · exact .raised _ _ h.old
  · exact .raised _ _ h.old

/-! ### The block loop

`entry` is what is free before the first block command, `free` what is free after one. -/

section Loop

variable {entry : List Target} (hsub : free ⊆ entry)

include hsub

theorem overChannels_alike {cmd : Nat → State → Done Nat}
    (hcmd : ∀ c s t, SameBut entry s t → Done.Alike free (cmd c s) (cmd c t)) (todo c : Nat) (h : SameBut free s t) :
    Done.Alike free (overChannels cmd todo c s) (overChannels cmd todo c t) := by
  induction todo generalizing c s t with
  | zero => exact .ok _ h
  | succ todo ih => exact (hcmd c s t (h.mono hsub)).andThen fun _ _ _ _ h1 => ih _ h1

variable {cmd : Nat → Nat → Nat → State → Done Nat}
  (hcmd : ∀ frame0 n c s t, SameBut entry s t → Done.Alike free (cmd frame0 n c s) (cmd frame0 n c t))

include hcmd

/-- The channels of a block, of which there is one. -/
theorem overChannels_alike_of_entry {channels : Nat} (hch : channels ≠ 0) (frame0 n : Nat) (h : SameBut entry s t) :
    Done.Alike free (overChannels (cmd frame0 n) channels 0 s) (overChannels (cmd frame0 n) channels 0 t) := by
  obtain ⟨todo, rfl⟩ := Nat.exists_eq_succ_of_ne_zero hch
  exact (hcmd frame0 n 0 s t h).andThen fun _ _ _ _ h1 => overChannels_alike hsub (hcmd frame0 n) todo 1 h1

variable {channels : Nat} (hch : channels ≠ 0) (hcursor : .cursor ∉ free) {align : Bool} {count : Nat}

include hch hcursor

/-- One block, then the rest. -/
theorem overBlocks_succ_alike {todo b : Nat}
    (hrest : ∀ s t, SameBut free s t → Done.Alike free (overBlocks cmd align count channels todo (b + 1) s)
      (overBlocks cmd align count channels todo (b + 1) t))
    (h : SameBut entry s t) :
    Done.Alike free (overBlocks cmd align count channels (todo + 1) b s)
      (overBlocks cmd align count channels (todo + 1) b t) := by
  refine (overChannels_alike_of_entry hsub hcmd hch _ _ h).andThen fun _ s1 t1 _ h1 => ?_
  have halign : Done.Alike free (if align then opAlign s1 else .ok () s1)
      (if align then opAlign t1 else .ok () t1) := by
    split
    · exact opAlign_alike h1 hcursor
    · exact .ok _ h1
  exact halign.andThen fun _ s2 t2 _ h2 => hrest s2 t2 h2

theorem overBlocks_alike (todo b : Nat) (h : SameBut free s t) :
    Done.Alike free (overBlocks cmd align count channels todo b s) (overBlocks cmd align count channels todo b t) := by
  induction todo generalizing b s t with
  | zero => exact .ok _ h
  | succ todo ih =>
    exact overBlocks_succ_alike hsub hcmd hch hcursor (fun _ _ h1 => ih (b + 1) h1) (h.mono hsub)

theorem overBlocks_alike_of_entry {todo : Nat} (htodo : todo ≠ 0) (b : Nat) (h : SameBut entry s t) :
    Done.Alike free (overBlocks cmd align count channels todo b s) (overBlocks cmd align count channels todo b t) := by
  obtain ⟨rest, rfl⟩ := Nat.exists_eq_succ_of_ne_zero htodo
  exact overBlocks_succ_alike hsub hcmd hch hcursor
    (fun _ _ h1 => overBlocks_alike hsub hcmd hch hcursor rest (b + 1) h1) h

end Loop

/-! ## The commands -/

theorem checkStream_alike (h : SameBut free s t) : Done.Alike free (checkStream s) (checkStream t) := by
  unfold checkStream
  rw [h.firstZeroParam, h.elements, h.cfg]
  split
  · exact .raised _ _ h.old
  · split
    · exact .ok _ h
    · exact .raised _ _ h.old

/-- The header is written from position 0 on, wherever the cursor was. -/
theorem opWrhdr_alike (h : SameBut (.cursor :: free) s t) (hc : .cursor ∉ free) :
    Done.Alike free (opWrhdr s) (opWrhdr t) := by
  unfold opWrhdr
  refine (opWruint_alike (h.seek_fixes 0) hc 32 _).andThen fun _ s1 t1 _ h1 => ?_
  rw [h1.count]
  refine (opWruint_alike h1 hc 64 _).andThen fun _ s2 t2 _ h2 => ?_
  rw [h2.channels]
  refine (opWruint_alike h2 hc 16 _).andThen fun _ s3 t3 _ h3 => ?_
  rw [h3.bps]
  refine (opWruint_alike h3 hc 16 _).andThen fun _ s4 t4 _ h4 => ?_
  rw [h4.rate]
  exact opWruint_alike h4 hc 32 _

theorem loadParams_alike (h : SameBut free s t) (hc : .cursor ∉ free) :
    Done.Alike free (loadParams s) (loadParams t) := by
  unfold loadParams
  refine (opRduint_alike h hc 64).andThen fun count s1 t1 _ h1 => ?_
  refine (opRduint_alike h1 hc 16).andThen fun channels s2 t2 _ h2 => ?_
  refine (opRduint_alike h2 hc 16).andThen fun bps s3 t3 _ h3 => ?_
  exact (opRduint_alike h3 hc 32).andThen fun rate s4 t4 _ h4 => .ok () (h4.withParams _ _ _ _)

/-- The header is read from position 0 on, wherever the cursor was. -/
theorem opRdhdr_alike (h : SameBut (.cursor :: free) s t) (hc : .cursor ∉ free) :
    Done.Alike free (opRdhdr s) (opRdhdr t) := by
  unfold opRdhdr
  refine (opRduint_alike (h.seek_fixes 0) hc 32).andThen fun m s1 t1 _ h1 => ?_
  split
  · refine (loadParams_alike h1 hc).andThen fun _ s2 t2 _ h2 => ?_
    rw [h2.status]
    exact .ok _ (h2.withStatus _)
  · rw [h1.status]
    exact .ok _ (h1.withStatus _)

/-- The block loop of a stream whose parameters have passed the checks begins with a block command. -/
theorem blockLoop_alike {entry : List Target} {cmd : Nat → Nat → Nat → State → Done Nat} (align : Config → Bool)
    (hsub : free ⊆ entry)
    (hcmd : ∀ frame0 n c s t, SameBut entry s t → Done.Alike free (cmd frame0 n c s) (cmd frame0 n c t))
    (hcursor : .cursor ∉ free) (hch : s.channels ≠ 0) (hn : s.count ≠ 0) (h : SameBut entry s t) :
    Done.Alike free
      (overBlocks cmd (align s.cfg) s.count.toNat s.channels.toNat (blockCount s.count.toNat) 0 s)
      (overBlocks cmd (align t.cfg) t.count.toNat t.channels.toNat (blockCount t.count.toNat) 0 t) := by
  rw [h.cfg, h.count, h.channels]
  exact overBlocks_alike_of_entry hsub hcmd (toNat_ne_zero hch) hcursor
    (Nat.ne_of_gt (blockCount_pos (toNat_ne_zero hn))) 0 h

theorem opEncode_alike (h : SameBut oldRegisters s t) : Done.Alike [] (opEncode s) (opEncode t) := by
  refine (checkStream_alike h).andThen fun _ s0 t0 hs0 h0 => ?_
  obtain ⟨rfl, ⟨hch, -, -, hn⟩, -⟩ := of_checkStream_eq_ok hs0
  rw [h0.cfg, h0.buf]
  have hentry : SameBut (.cursor :: [.k, .estimate, .prev]) s0 t0 := h0.mono (by decide)
  refine (opWrhdr_alike (hentry.withBuf _) (by decide)).andThen fun _ s1 t1 hs1 h1 => ?_
  have hparams : s1.channels = s0.channels ∧ s1.count = s0.count := by
    have := opWrhdr_keeps (P := fun u => u.channels = s0.channels ∧ u.count = s0.count)
      (s := s0.withBuf (Memory.clearBelow s0.cfg.bufBytes s0.buf)) (fun _ _ hu => hu) (fun _ _ hu => hu) ⟨rfl, rfl⟩
    rwa [hs1] at this
  obtain ⟨hch1, hn1⟩ := hparams
  refine Done.Alike.andThen (blockLoop_alike (fun cfg => cfg.encAlign) (by decide)
    (fun frame0 n c _ _ h => opEncblk_alike h frame0 n c) (by decide) (hch1 ▸ hch) (hn1 ▸ hn) h1) fun _ s2 t2 _ h2 => ?_
  rw [h2.eq_of_nil]
  exact .refl _

theorem opDecode_alike (h : SameBut oldRegisters s t) : Done.Alike [.estimate] (opDecode s) (opDecode t) := by
  refine (opRdhdr_alike (free := [.k, .prev, .estimate]) h (by decide)).andThen fun recognised s0 t0 _ h0 => ?_
  split
  · refine (checkStream_alike h0).andThen fun _ s1 t1 hs1 h1 => ?_
    obtain ⟨rfl, ⟨hch, -, -, hn⟩, -⟩ := of_checkStream_eq_ok hs1
    refine Done.Alike.andThen (blockLoop_alike (fun cfg => cfg.decAlign) (by decide)
      (fun frame0 n c _ _ h => opDecblk_alike h frame0 n c) (by decide) hch hn h1) fun _ s2 t2 _ h2 => ?_
    rw [h2.elements]
    exact .ok _ h2
  · rw [h0.buf]
    exact .raised _ _ h0.old

/-- Commands whose bodies end alike answer alike. -/
theorem Done.Alike.respond {d e : Done α} (h : Done.Alike free d e) (r0 r1 : α → Word) :
    ∃ a b, Machine.respond r0 r1 d = .next a ∧ Machine.respond r0 r1 e = .next b ∧ SameBut oldRegisters a b ∧
      ((∃ r, a.rsp = some r ∧ r.status = 0) → SameBut free a b) := by
  cases h with
  | ok a h => exact ⟨_, _, rfl, rfl, (h.answered _).old, fun _ => h.answered _⟩
  | raised c info h =>
    refine ⟨_, _, rfl, rfl, h.faulted c info, ?_⟩
    rintro ⟨r, hr, h0⟩
    cases hr
    exact absurd h0 (causeCode_ne_zero c)

/-- `DECODE` writes neither `ACC` nor `AVG`. -/
theorem exec_decode_estimate (h : exec .decode s = .next t) : t.acc = s.acc ∧ t.avg = s.avg := by
  have hestimate : .estimate ∉ writes .decode := by decide
  have hbuf : .buf ∉ writes .decode := by decide
  exact exec_keeps .decode (P := fun u => u.acc = s.acc ∧ u.avg = s.avg) (fun _ _ hu => hu) (fun _ _ hu => hu)
    (fun _ _ _ hu => hu) (fun _ _ _ hu => hu) (fun _ _ _ hu => hu) (fun hw => absurd hw hestimate)
    (fun _ _ _ _ _ _ hu => hu) (fun _ _ _ hu => hu) (fun hw => absurd hw hbuf) (fun _ _ _ hu => hu)
    (fun hr => nomatch hr) h ⟨rfl, rfl⟩

/-- Settles O60: the bodies of both commands end alike, each block command having written the block registers before it
reads them. -/
theorem streamCommandsIgnoreOldRegisters : Obligations.StreamCommandsIgnoreOldRegisters := by
  intro s u hu same
  have hold : SameBut oldRegisters s u := by
    rw [hu]
    exact SameBut.overwritten s _ _ _ _ _ _
  have hsame {a b : State} (h : SameBut oldRegisters a b) : same a b :=
    ⟨h.rsp, h.buf, h.smp, h.channels, h.bps, h.rate, h.count, h.status⟩
  constructor
  · obtain ⟨a, b, ha, hb, hab, hdone⟩ := (opEncode_alike hold).respond word fun _ => 0
    exact ⟨a, b, ha, hb, hsame hab, fun hr => (hdone hr).eq_of_nil⟩
  · obtain ⟨a, b, ha, hb, hab, hdone⟩ := (opDecode_alike hold).respond word fun _ => 0
    refine ⟨a, b, ha, hb, hsame hab, fun hr => ?_⟩
    obtain ⟨hacc, havg⟩ := exec_decode_estimate hb
    rw [← hacc, ← havg]
    exact (hdone hr).estimate_eq

end Sys2Proof.Machine
end

section
/-! PROOF. `DECODE` on a stream that stands in `BUF`, whoever wrote it, and on a part of one up to a fault
(46_stream.md R182, R183, R184). -/

namespace Sys2Proof.Machine

variable {s t : State} {sample : Nat → Nat → Int} {start : Nat → Nat → Nat} {b c : Nat}

/-! ## A header whose parameters pass the checks -/

/-- `DECODE` recognises the header and gets past its checks. -/
structure State.HeaderPasses (s : State) : Prop where
  inv : s.Inv
  magic : fieldAt s.buf 0 32 = magic
  channels : s.loaded.channels ≠ 0
  bps : s.loaded.bps ≠ 0
  rate : s.loaded.rate ≠ 0
  count : s.loaded.count ≠ 0
  capacity : s.loaded.elements ≤ s.cfg.smpElems

theorem ne_zero_of_toNat {n : Nat} {v : BitVec n} (h : v.toNat ≠ 0) : v ≠ 0 := fun e => h ((eq_zero_iff_toNat v).mp e)

theorem State.loaded_pos (s : State) : s.loaded.pos = 160 := s.afterHeader_pos _ _ _ _

namespace State.HeaderPasses

variable (h : s.HeaderPasses)

include h

theorem ready : DecReady s.loaded := ⟨h.inv.small, h.inv.atLeastHeader, h.capacity, h.inv.smp⟩

/-- `DECODE` comes to its block loop. -/
theorem opDecode_eq :
    opDecode s =
      (overBlocks opDecblk s.loaded.cfg.decAlign s.loaded.count.toNat s.loaded.channels.toNat
        (blockCount s.loaded.count.toNat) 0 s.loaded).andThen fun _ t => .ok t.elements t := by
  rw [opDecode, opRdhdr_of_magic h.inv h.magic, Done.andThen_ok, if_pos rfl,
    checkStream_ok h.channels h.bps h.rate h.count h.capacity, Done.andThen_ok]

/-! ## The three ways the block loop ends -/

theorem exec_of_holds (hp : s.loaded.Holds sample start (blockCount s.loaded.count.toNat) 0) :
    ∃ u, exec .decode s = .next (u.answered (okResponse (word s.loaded.elements) 0)) ∧
      DecAt s.loaded u sample start (blockCount s.loaded.count.toNat) 0 := by
  obtain ⟨u, hloop, hat⟩ := decode_loop h.ready (toNat_ne_zero h.channels) s.loaded_pos hp
  have helements : u.elements = s.loaded.elements := by rw [State.elements, hat.count, hat.channels]; rfl
  refine ⟨u, ?_, hat⟩
  rw [exec_decode, h.opDecode_eq, hloop, Done.andThen_ok, respond_ok, helements]

variable (hb : b < blockCount s.loaded.count.toNat) (hc : c < s.loaded.channels.toNat)
  (hp : s.loaded.Holds sample start b c)

include hb hc hp

theorem exec_of_field_overflow (hno : s.loaded.bufBits < start b c + s.loaded.bprl) :
    ∃ u, exec .decode s = .next (u.faulted .bufBounds (word (start b c))) ∧ DecAt s.loaded u sample start b c := by
  obtain ⟨u, hat, hfault⟩ := decode_loop_fault h.ready s.loaded_pos hb hc hp
  refine ⟨u, ?_, hat⟩
  rw [exec_decode, h.opDecode_eq, hfault _ _ _ (hat.field_fault h.ready hc hno), Done.andThen_raised, respond_raised]

theorem exec_of_sample_fault {j e stop : Nat} {cause : Cause} {info : Word}
    (hj : j < blockFrames s.loaded.count.toNat b)
    (hrec : RecordAt s.loaded.cfg.sampleW s.loaded.buf s.loaded.bufBits s.loaded.bprl (start b c)
      ((s.loaded.samplesOf sample b c).take j) e)
    (hf : CodewordFault s.loaded.cfg.sampleW s.loaded.buf s.loaded.bufBits (s.loaded.fieldOf start b c) e
      (lastSample 0 ((s.loaded.samplesOf sample b c).take j)) cause info stop) :
    ∃ u, exec .decode s = .next (u.faulted cause info) ∧ DecMid s.loaded u ∧ DecRead s.loaded u sample b c j ∧
      u.pos = stop ∧ u.k.toNat = s.loaded.fieldOf start b c ∧
      u.prev = lastSample 0 ((s.loaded.samplesOf sample b c).take j) := by
  obtain ⟨t, hat, hfault⟩ := decode_loop_fault h.ready s.loaded_pos hb hc hp
  obtain ⟨hraised, hread⟩ := hat.sample_fault h.ready hc hj hrec hf
  have hstop : stop ≤ s.loaded.bufBits := hf.stop_le (hrec.2.bounds hrec.1).2
  have hsmall := h.ready.small
  refine ⟨_, ?_, ?_, hread, t.decoded_pos _ _ _ _ (by omega), t.decoded_k _ _ _ _ (fieldAt_bprl_lt _ _), rfl⟩
  · rw [exec_decode, h.opDecode_eq, hfault _ _ _ hraised, Done.andThen_raised, respond_raised]
  · exact ⟨hat.cfg, hat.channels, hat.bps, hat.rate, hat.count, hat.status, hat.buf, hat.acc, hat.avg, hat.pending,
      hat.rsp⟩

end State.HeaderPasses

/-! ## What is left in the registers and in `SMP` -/

/-- Before the end of the block loop everything is decoded. -/
theorem decodedBefore_end {count channels i : Nat} (hi : i < count * channels) :
    decodedBefore count channels (blockCount count) 0 0 i := by
  have hframe : i / channels < count := Nat.div_lt_of_lt_mul (Nat.mul_comm count channels ▸ hi)
  exact ⟨hframe, .inl (hframe.trans_le (blockCount_covers count))⟩

/-- What `DECODE` leaves in `t` when it has decoded what comes before sample `j` of block `b` and channel `c`: the
header's parameters, these samples, every other element of `SMP` and all that R182 does not name as before. -/
def State.LeftByDecode (s : State) (sample : Nat → Nat → Int) (t : State) (b c j : Nat) : Prop :=
  t.count.toNat = s.loaded.count.toNat ∧ t.channels.toNat = s.loaded.channels.toNat ∧
    t.bps.toNat = s.loaded.bps.toNat ∧ t.rate.toNat = s.loaded.rate.toNat ∧ t.status.hdrOk = true ∧
    (∀ i, readSample t.smp i =
      if decodedBefore s.loaded.count.toNat s.loaded.channels.toNat b c j i then
        sample (i / s.loaded.channels.toNat) (i % s.loaded.channels.toNat)
      else readSample s.smp i) ∧
    t = { s with
      curByte := t.curByte, curBit := t.curBit, count := t.count, channels := t.channels, bps := t.bps, rate := t.rate,
      status := t.status, smp := t.smp, k := t.k, prev := t.prev, rsp := t.rsp }

/-- The fault log and the response, which the end of the command writes, are no part of it. -/
theorem DecMid.leftByDecode {j : Nat} (hmid : DecMid s.loaded t) (hread : DecRead s.loaded t sample b c j)
    {st : Status} (hst : st.hdrOk = true) (r : Option Response) :
    s.LeftByDecode sample { t with status := st, rsp := r } b c j := by
  refine ⟨by rw [hmid.count], by rw [hmid.channels], by rw [hmid.bps], by rw [hmid.rate], hst, hread.read, ?_⟩
  simp only [hmid.cfg, hmid.buf, hmid.acc, hmid.avg, hmid.pending]
  rfl

theorem DecMid.answered {j : Nat} (hmid : DecMid s.loaded t) (hread : DecRead s.loaded t sample b c j) (r : Response) :
    s.LeftByDecode sample (t.answered r) b c j :=
  hmid.leftByDecode hread (by rw [hmid.status]; rfl) (some r)

theorem DecMid.faulted {j : Nat} (hmid : DecMid s.loaded t) (hread : DecRead s.loaded t sample b c j) (cause : Cause)
    (info : Word) : s.LeftByDecode sample (t.faulted cause info) b c j :=
  hmid.leftByDecode hread (by rw [logFault_hdrOk, hmid.status]; rfl) _

/-! ## What an encoder writes -/

theorem streamBits_eq (align : Bool) (count channels bps rate : Nat) (k : Nat → Nat → Nat)
    (sample : Nat → Nat → Int) :
    streamBits align count channels bps rate k sample =
      headerBits count channels bps rate ++
        payloadBits align (bitLength bps) channels k (fun b c => framesOfBlock count (fun f => sample f c) b)
          (blockCount count) := rfl

/-- The bits of a stream are a header with its parameters, and a payload of its samples. -/
theorem stream_of_bits {w : SampleWidth} {m : List Host.Cell} {limit : Nat} {align : Bool}
    {count channels bps rate : Nat} {k : Nat → Nat → Nat} (hcount : count < 2 ^ 64) (hchannels : channels < 2 ^ 16)
    (hbps : bps < 2 ^ 16) (hrate : rate < 2 ^ 32)
    (hx : ∀ f c, f < count → c < channels → inContainer w (sample f c) = true)
    (hk : ∀ b c, b < blockCount count → c < channels → k b c < 2 ^ bitLength bps ∧ k b c ≤ 64)
    (hfit : (streamBits align count channels bps rate k sample).length ≤ limit)
    (hbits : bitsAt m 0 (streamBits align count channels bps rate k sample).length =
      streamBits align count channels bps rate k sample) :
    (fieldAt m 0 32 = magic ∧ fieldAt m 32 64 = count ∧ fieldAt m 96 16 = channels ∧ fieldAt m 112 16 = bps ∧
      fieldAt m 128 32 = rate) ∧
    ∃ start : Nat → Nat → Nat,
      PayloadAt w m limit align (bitLength bps) count channels sample start (blockCount count) 0 ∧
      start (blockCount count) 0 = (streamBits align count channels bps rate k sample).length ∧
      ∀ b c, b < blockCount count → c < channels → fieldAt m (start b c) (bitLength bps) = k b c := by
  rw [streamBits_eq] at hfit hbits ⊢
  rw [bitsAt_append, headerBits_length, Nat.zero_add] at hbits
  obtain ⟨hheader, hpayload⟩ := hbits
  obtain ⟨hm, h1, h2, h3, h4⟩ := header_fields hheader
  rw [Nat.mod_eq_of_lt hcount] at h1
  rw [Nat.mod_eq_of_lt hchannels] at h2
  rw [Nat.mod_eq_of_lt hbps] at h3
  rw [Nat.mod_eq_of_lt hrate] at h4
  rw [List.length_append, headerBits_length] at hfit ⊢
  obtain ⟨hstands, hfields⟩ := payloadAt_of_bits rfl (fun f c hc hf => hx f c hf hc) hk hfit hpayload
  refine ⟨⟨hm, h1, h2, h3, h4⟩, _, hstands, ?_, hfields⟩
  rw [encodedStart, payloadSoFar_zero]

/-- Settles O58. The statement speaks of the fields of the header, the proof of the registers that hold them once they
are loaded. -/
theorem decodeReadsStream : Obligations.DecodeReadsStream := by
  constructor
  · intro s sample start h hm
    obtain ⟨hcount, hchannels, hbps, hrate⟩ := s.loaded_params
    rw [← hcount, ← hchannels, ← hbps, ← hrate]
    intro count channels bps rate bprl field samples standsBefore left ofRecordBefore hn0 hc0 hb0 hr0 hcap
    have hpass : s.HeaderPasses := ⟨h, hm, ne_zero_of_toNat hc0, ne_zero_of_toNat hb0, ne_zero_of_toNat hr0,
      ne_zero_of_toNat hn0, hcap⟩
    refine ⟨fun hp => ?_, fun b c hb hc hp => ⟨fun hno => ?_, fun j e stop cause info hj hrec hf => ?_⟩⟩
    · obtain ⟨u, hu, hat⟩ := hpass.exec_of_holds hp
      have hleft := hat.answered hat.toDecRead (okResponse (word s.loaded.elements) 0)
      refine ⟨_, hu, rfl, hat.status, hat.pos, hleft, ⟨hat.k, hat.prev⟩, fun i hi => ?_⟩
      exact (hat.read i).trans (if_pos (decodedBefore_end hi))
    · obtain ⟨u, hu, hat⟩ := hpass.exec_of_field_overflow hb hc hp hno
      exact ⟨_, hu, rfl, congrArg (logFault .bufBounds) hat.status, hat.pos, hat.faulted hat.toDecRead _ _, hat.k,
        hat.prev⟩
    · obtain ⟨u, hu, hmid, hread, hpos, hk, hprev⟩ := hpass.exec_of_sample_fault hb hc hp hj hrec hf
      exact ⟨_, hu, rfl, congrArg (logFault cause) hmid.status, hpos, hmid.faulted hread _ _, hk, hprev⟩
  · intro w m limit align count channels bps rate k sample hcount hchannels hbps hrate hx hk bits hfit hbits
    obtain ⟨⟨hm, h1, h2, h3, h4⟩, hstands⟩ := stream_of_bits (w := w) hcount hchannels hbps hrate
      (fun f c hf hc => (inContainer_iff w _).mpr (hx f c hf hc)) hk hfit hbits
    exact ⟨hm, h1, h2, h3, h4, hstands⟩

end Sys2Proof.Machine
end

section
/-! PROOF. `DECODE` after `ENCODE` restores the parameters and the samples (46_stream.md R186). -/

namespace Sys2Proof.Machine

variable {s t u : State}

/-! ## A completed ENCODE -/

/-- `ENCODE` completes only where its checks pass and the stream fits. -/
theorem of_opEncode_eq_ok (h : s.Inv) {a : Nat} (hop : opEncode s = .ok a t) :
    (s.channels ≠ 0 ∧ s.bps ≠ 0 ∧ s.rate ≠ 0 ∧ s.count ≠ 0) ∧ s.elements ≤ s.cfg.smpElems ∧
      s.encodedStream.length ≤ s.bufBits := by
  cases hcheck : checkStream s with
  | raised c info v =>
    rw [opEncode, hcheck] at hop
    cases hop
  | ok x v =>
    obtain ⟨-, ⟨hc, hb, hr, hn⟩, hcap⟩ := of_checkStream_eq_ok hcheck
    refine ⟨⟨hc, hb, hr, hn⟩, hcap, ?_⟩
    by_contra hno
    obtain ⟨b, c, -, -, B, v, -, hraised⟩ := opEncode_overflow h hc hb hr hn hcap (Nat.not_le.mp hno)
    cases hop.symm.trans hraised

/-! ## The alignment parameters (R184, R186 (d)) -/

/-- Where every block ends on a byte boundary by itself, no padding is written. -/
theorem payloadBits_of_blocks_aligned {bprl channels nb : Nat} {k : Nat → Nat → Nat} {xs : Nat → Nat → List Int}
    (h : ∀ b, b ≤ nb → (payloadBits false bprl channels k xs b).length % 8 = 0) (align : Bool) :
    payloadBits align bprl channels k xs nb = payloadBits false bprl channels k xs nb := by
  induction nb with
  | zero => rfl
  | succ nb ih =>
    have hbody : payloadBits false bprl channels k xs (nb + 1) =
        payloadBits false bprl channels k xs nb ++ blockBits bprl channels (k nb) (xs nb) := List.append_nil _
    have hlen := h (nb + 1) (Nat.le_refl _)
    rw [hbody] at hlen ⊢
    rw [payloadBits, ih fun b hb => h b (Nat.le_succ_of_le hb), paddingBits, hlen]
    simp

/-- The stream that was encoded is also the stream as the decoder's alignment has it. -/
theorem State.encodedStream_eq_of_align
    (h : s.cfg.encAlign = s.cfg.decAlign ∨
      ∀ b, b ≤ blockCount s.count.toNat →
        (payloadBits false s.bprl s.channels.toNat s.parameterOf s.blockOf b).length % 8 = 0) :
    s.encodedStream =
      streamBits s.cfg.decAlign s.count.toNat s.channels.toNat s.bps.toNat s.rate.toNat s.parameterOf s.sampleOf := by
  obtain halign | haligned := h
  · rw [State.encodedStream, halign]
  · have hpayload := payloadBits_of_blocks_aligned haligned
    rw [State.encodedStream, streamBits_eq, streamBits_eq]
    congr 1
    exact (hpayload s.cfg.encAlign).trans (hpayload s.cfg.decAlign).symm

/-! ## The stream in the later state -/

/-- The stream stands wherever its bytes do. -/
theorem EncMid.bitsAt_of_bytes {B : List Bool} {m : List Host.Cell} (h : EncMid s t B)
    (hbytes : ∀ a, a < ceilDiv B.length 8 → readByte m a = readByte t.buf a) : bitsAt m 0 B.length = B := by
  rw [bitsAt_eq_iff]
  intro x hx
  have hbyte : x / 8 < ceilDiv B.length 8 := by unfold ceilDiv; omega
  rw [Nat.zero_add, ← h.bufBit_eq x, bufBit, bufBit, hbytes _ hbyte]

/-- The parameters `ENCODE` gives the blocks are small enough for a codeword. -/
theorem State.Inv.parameterOf_le (h : s.Inv) (b c : Nat) : s.parameterOf b c ≤ 64 := by
  have hlen : (s.blockOf b c).length ≤ 512 := by
    rw [State.blockOf, framesOfBlock_length]
    exact blockFrames_le _ _
  exact (blockParameter_le hlen (h.holdsSample_blockOf b c)).trans (by decide)

/-- `DECODE` of a stream that stands in `BUF` as an encoder with the decoder's alignment writes it. -/
theorem exec_decode_of_streamBits {count channels bps rate : Nat} {k : Nat → Nat → Nat} {sample : Nat → Nat → Int}
    (h : u.Inv) (hcount : count < 2 ^ 64 ∧ count ≠ 0) (hchannels : channels < 2 ^ 16 ∧ channels ≠ 0)
    (hbps : bps < 2 ^ 16 ∧ bps ≠ 0) (hrate : rate < 2 ^ 32 ∧ rate ≠ 0) (hcap : count * channels ≤ u.cfg.smpElems)
    (hx : ∀ f c, f < count → c < channels → u.holdsSample (sample f c) = true)
    (hk : ∀ b c, b < blockCount count → c < channels → k b c < 2 ^ bitLength bps ∧ k b c ≤ 64)
    (hfit : (streamBits u.cfg.decAlign count channels bps rate k sample).length ≤ u.bufBits)
    (hbits : bitsAt u.buf 0 (streamBits u.cfg.decAlign count channels bps rate k sample).length =
      streamBits u.cfg.decAlign count channels bps rate k sample) :
    ∃ v, exec .decode u = .next v ∧ v.rsp = some (okResponse (word (count * channels)) 0) ∧
      (v.channels.toNat = channels ∧ v.bps.toNat = bps ∧ v.rate.toNat = rate ∧ v.count.toNat = count) ∧
      (∀ i, i < count * channels → readSample v.smp i = sample (i / channels) (i % channels)) ∧
      v.pos = (streamBits u.cfg.decAlign count channels bps rate k sample).length := by
  obtain ⟨⟨hm, h1, h2, h3, h4⟩, start, hstands, hend, -⟩ :=
    stream_of_bits (w := u.cfg.sampleW) hcount.1 hchannels.1 hbps.1 hrate.1 hx hk hfit hbits
  obtain ⟨l1, l2, l3, l4⟩ := u.loaded_params
  replace h1 := l1.trans h1
  replace h2 := l2.trans h2
  replace h3 := l3.trans h3
  replace h4 := l4.trans h4
  have hpass : u.HeaderPasses := ⟨h, hm, ne_zero_of_toNat (h2 ▸ hchannels.2), ne_zero_of_toNat (h3 ▸ hbps.2),
    ne_zero_of_toNat (h4 ▸ hrate.2), ne_zero_of_toNat (h1 ▸ hcount.2), by rw [State.elements, h1, h2]; exact hcap⟩
  have hholds : u.loaded.Holds sample start (blockCount u.loaded.count.toNat) 0 := by
    rw [State.Holds, State.bprl, h1, h2, h3]
    exact hstands
  obtain ⟨v, hv, hat⟩ := hpass.exec_of_holds hholds
  rw [State.elements, h1, h2] at hv
  refine ⟨_, hv, rfl, ⟨?_, ?_, ?_, ?_⟩, fun i hi => ?_, ?_⟩
  · rw [State.answered_channels, hat.channels, h2]
  · rw [State.answered_bps, hat.bps, h3]
  · rw [State.answered_rate, hat.rate, h4]
  · rw [State.answered_count, hat.count, h1]
  · have hread := hat.read i
    rw [h1, h2, if_pos (decodedBefore_end hi)] at hread
    exact hread
  · rw [State.answered_pos, hat.pos, h1, hend]

/-- Settles O59: the bytes that are left hold the stream that was encoded, and `DECODE` reads any such stream. -/
theorem streamRoundTrip : Obligations.StreamRoundTrip := by
  intro s t u r h ht hr h0 halign hch16 hbps16 hk hu hcfg hbytes
  obtain ⟨a, t, hop, rfl⟩ := respond_completed ht hr h0
  obtain ⟨⟨hc0, hb0, hr0, hn0⟩, hcap, hfit⟩ := of_opEncode_eq_ok h hop
  obtain ⟨t', hop', hat⟩ := opEncode_fits h hc0 hb0 hr0 hn0 hcap hfit
  cases hop.symm.trans hop'
  cases hr
  have hsmall := h.small
  have hlength : (word (ceilDiv s.encodedStream.length 8)).toNat = ceilDiv s.encodedStream.length 8 :=
    word_toNat (by unfold ceilDiv; omega)
  have hbits : bitsAt u.buf 0 s.encodedStream.length = s.encodedStream :=
    hat.bitsAt_of_bytes fun a ha => hbytes a (ha.trans_eq hlength.symm)
  have hlimit : u.bufBits = s.bufBits := by rw [State.bufBits, State.bufBits, hcfg]
  have hpos : t.pos = s.encodedStream.length := hat.pos
  rw [← hlimit] at hfit
  rw [s.encodedStream_eq_of_align halign, ← hcfg] at hbits hfit hpos
  obtain ⟨v, hv, hrsp, ⟨hchannels, hbps, hrate, hcount⟩, hread, hend⟩ := exec_decode_of_streamBits hu
    ⟨s.count.isLt, toNat_ne_zero hn0⟩ ⟨hch16, toNat_ne_zero hc0⟩ ⟨hbps16, toNat_ne_zero hb0⟩
    ⟨s.rate.isLt, toNat_ne_zero hr0⟩ (by rw [hcfg]; exact hcap)
    (fun f c _ _ => by rw [State.holdsSample, hcfg]; exact h.holdsSample_read _)
    (fun b c hb hc => ⟨hk b c hb hc, h.parameterOf_le b c⟩) hfit hbits
  refine ⟨v, hv, hrsp, BitVec.eq_of_toNat_eq hchannels, BitVec.eq_of_toNat_eq hbps, BitVec.eq_of_toNat_eq hrate,
    BitVec.eq_of_toNat_eq hcount, fun i hi => ?_, hend.trans hpos.symm⟩
  rw [hread i hi, State.sampleOf, State.smpIndex, Nat.div_add_mod']

end Sys2Proof.Machine
end

section
/-! PROOF. Every command word is answered and the run goes on, the fault log keeps the first cause, and a wrong magic is
an outcome of `RDHDR` and a fault of `DECODE` (60_exceptions.md R200, R207, R211). -/

namespace Sys2Proof.Machine

variable {s t : State}

/-! ## One response per command word (R200) -/

/-- No command writes the words still to be issued or the configuration. -/
theorem exec_ends_interface (i : Instr) (s : State) :
    Ends (exec i s) fun u => u.pending = s.pending ∧ u.cfg = s.cfg :=
  exec_ends i
    (hseek := fun _ _ _ hu => hu)
    (hk := fun _ _ _ hu => hu)
    (hprev := fun _ _ _ hu => hu)
    (hest := fun _ _ _ _ hu => hu)
    (hpar := fun _ _ _ _ _ _ hu => hu)
    (hhdr := fun _ _ _ hu => hu)
    (hbuf := fun _ _ _ hu => hu)
    (hsmp := fun _ _ _ hu => hu)
    (hreset := fun _ _ hu => hu)
    ⟨rfl, rfl⟩

/-- Whether a word is a command or not, the step ends as commands end, with the word taken. -/
theorem step_ends_interface {w : CommandWord} {rest : List CommandWord} (hp : s.pending = w :: rest) :
    Ends (step s) fun u => u.pending = rest ∧ u.cfg = s.cfg := by
  cases hd : decode w with
  | ok i =>
    rw [step_of_decode_ok hp hd]
    exact exec_ends_interface i _
  | error e =>
    rw [step_of_decode_error hp hd]
    exact rejectWord_ends e ⟨rfl, rfl⟩

/-- Settles O7, by the two ways a step on a word ends. -/
theorem everyCommandAnsweredOnce : Obligations.EveryCommandAnsweredOnce := by
  intro s w rest hp
  obtain ⟨u, ⟨hrest, hcfg⟩, ⟨r0, r1, ho⟩ | ⟨c, info, ho⟩⟩ := step_ends_interface hp
  · exact ⟨_, _, ho, rfl, hrest, hcfg, Nat.zero_le 8, fun h0 => absurd rfl h0⟩
  · exact ⟨_, _, ho, rfl, hrest, hcfg, (causeCode_range c).2, fun _ => rfl⟩

/-! ## Runs -/

theorem step_takes_one_word (s : State) : ∃ t, step s = .next t ∧ t.pending = s.pending.drop 1 ∧ t.cfg = s.cfg := by
  cases hp : s.pending with
  | nil => exact ⟨_, stepWithoutCommandWaits s hp, hp, rfl⟩
  | cons w rest =>
    obtain ⟨t, r, ht, -, hrest, hcfg, -⟩ := everyCommandAnsweredOnce s w rest hp
    exact ⟨t, ht, hrest, hcfg⟩

theorem run_succ_of_step (ht : step s = .next t) (n : Nat) : core.run (n + 1) s = core.run n t := by
  have hcore : core.step s = .next t := ht
  simp only [Host.Core.run, hcore]

/-- Settles O8, by induction on the number of steps. -/
theorem runConsumesItsCommands : Obligations.RunConsumesItsCommands := by
  intro n
  induction n with
  | zero => exact fun s => ⟨s, rfl, rfl, rfl⟩
  | succ n ih =>
    intro s
    obtain ⟨t, ht, hpending, hcfg⟩ := step_takes_one_word s
    obtain ⟨u, hu, hpending', hcfg'⟩ := ih t
    refine ⟨u, (run_succ_of_step ht n).trans hu, ?_, hcfg'.trans hcfg⟩
    rw [hpending', hpending, List.drop_drop, Nat.add_comm]

/-! ## The fault log (R207) -/

/-- Two states with the same log. -/
def State.SameLog (s u : State) : Prop := u.status.fseen = s.status.fseen ∧ u.status.fcause = s.status.fcause

/-- Only the end of a command writes the log, but for `RESET`, which clears it. -/
theorem exec_ends_sameLog {i : Instr} (hi : i ≠ .reset) (s : State) : Ends (exec i s) s.SameLog :=
  exec_ends i
    (hseek := fun _ _ _ hu => hu)
    (hk := fun _ _ _ hu => hu)
    (hprev := fun _ _ _ hu => hu)
    (hest := fun _ _ _ _ hu => hu)
    (hpar := fun _ _ _ _ _ _ hu => hu)
    (hhdr := fun _ _ _ hu => hu)
    (hbuf := fun _ _ _ hu => hu)
    (hsmp := fun _ _ _ hu => hu)
    (hreset := fun hr => absurd hr hi)
    ⟨rfl, rfl⟩

theorem logFault_of_fseen_eq_false {st : Status} (h : st.fseen = false) (c : Cause) :
    logFault c st = { st with fseen := true, fcause := causeCode c } := by
  simp [logFault, h]

/-- Settles O13: the body leaves the log, so the taking of the fault decides by the log the command began with. -/
theorem faultLogIsSticky : Obligations.FaultLogIsSticky := by
  intro i s t r hi ht hr
  obtain ⟨u, ⟨hseen, hcause⟩, ⟨r0, r1, ho⟩ | ⟨c, info, ho⟩⟩ := exec_ends_sameLog hi s
  · cases ho.symm.trans ht
    cases hr
    exact ⟨fun h0 => absurd rfl h0, fun _ => ⟨hseen, hcause⟩⟩
  · cases ho.symm.trans ht
    cases hr
    refine ⟨fun _ h => ?_, fun h => ?_⟩
    · have hlog := logFault_of_fseen_eq_false (hseen.trans h) c
      exact ⟨congrArg Status.fseen hlog, congrArg Status.fcause hlog⟩
    · have hlog := logFault_of_fseen (hseen.trans (h.resolve_left (causeCode_ne_zero c))) c
      exact ⟨(congrArg Status.fseen hlog).trans hseen, (congrArg Status.fcause hlog).trans hcause⟩

/-! ## A wrong magic (R211) -/

theorem opDecode_of_mismatch (h : s.Inv) (hm : fieldAt s.buf 0 32 ≠ magic) :
    opDecode s = .raised .notRecognized (word (fieldAt s.buf 0 32))
      ((s.seek 32).withStatus (setHdrOk false s.status)) := by
  rw [opDecode, opRdhdr_eq h.small h.atLeastHeader, if_neg hm]
  rfl

/-- Settles O57: position 32, where both leave the cursor, is (4, 0). -/
theorem wrongMagicIsOutcomeOrFault : Obligations.WrongMagicIsOutcomeOrFault := by
  intro s h hm
  refine ⟨exec_rdhdr_of_mismatch h hm, ?_⟩
  rw [exec_decode, opDecode_of_mismatch h hm, respond_raised]
  rfl

end Sys2Proof.Machine
end

section
/-! PROOF. The causes a command can raise, and that a precise command raises them in the state it began in
(60_exceptions.md R202, R205). -/

namespace Sys2Proof.Machine

variable {α β : Type} {s : State} {cs : List Cause} {P : State → Prop}

/-! ## What a body raises, and in which state -/

/-- If the body raises a fault, its cause is one of `cs` and the state it is raised in meets `P`. -/
inductive Done.FaultsWithin (cs : List Cause) (P : State → Prop) : Done α → Prop where
  | ok (a : α) (t : State) : Done.FaultsWithin cs P (.ok a t)
  | raised {c : Cause} {t : State} (hc : c ∈ cs) (info : Word) (ht : P t) : Done.FaultsWithin cs P (.raised c info t)

/-- The body raises only these causes, wherever it has come to. -/
abbrev Done.RaisesOnly (cs : List Cause) (d : Done α) : Prop := d.FaultsWithin cs fun _ => True

/-- The body raises only these causes, and only where it has changed nothing. -/
abbrev Done.FaultsInPlace (cs : List Cause) (s : State) (d : Done α) : Prop := d.FaultsWithin cs (· = s)

theorem Done.FaultsWithin.mono {cs' : List Cause} {P' : State → Prop} {d : Done α} (h : d.FaultsWithin cs P)
    (hcs : cs ⊆ cs') (hP : ∀ t, P t → P' t) : d.FaultsWithin cs' P' := by
  cases h with
  | ok a t => exact .ok a t
  | raised hc info ht => exact .raised (hcs hc) info (hP _ ht)

theorem Done.FaultsWithin.raisesOnly {cs' : List Cause} {d : Done α} (h : d.FaultsWithin cs P) (hcs : cs ⊆ cs') :
    d.RaisesOnly cs' := h.mono hcs fun _ _ => trivial

/-- Steps one after the other; what the first one keeps, whether it faults or not, the second one may assume. -/
theorem Done.FaultsWithin.andThen {R : State → Prop} {d : Done α} {f : α → State → Done β} (h : d.FaultsWithin cs P)
    (hR : R d.state) (hf : ∀ a t, R t → (f a t).FaultsWithin cs P) : (d.andThen f).FaultsWithin cs P := by
  cases h with
  | ok a t => exact hf a t hR
  | raised hc info ht => exact .raised hc info ht

/-- A last step that only names the result raises nothing. -/
theorem Done.FaultsWithin.andThen_result {d : Done α} (h : d.FaultsWithin cs P) (g : α → State → β) :
    (d.andThen fun a t => .ok (g a t) t).FaultsWithin cs P :=
  h.andThen (R := fun _ => True) trivial fun a t _ => .ok (g a t) t

/-! ## The precise bodies (R205) -/

theorem opWrreg_inPlace (reg value : Word) : (opWrreg reg value s).FaultsInPlace [.illegalOperand] s := by
  unfold opWrreg
  split
  · exact .raised (by decide) _ rfl
  · split
    · split
      · exact .ok _ _
      · exact .raised (by decide) _ rfl
    · exact .raised (by decide) _ rfl

theorem opRdreg_inPlace (reg : Word) : (opRdreg reg s).FaultsInPlace [.illegalOperand] s := by
  unfold opRdreg
  split
  · exact .raised (by decide) _ rfl
  · exact .ok _ _

theorem opLdb_inPlace (addr : Word) : (opLdb addr s).FaultsInPlace [.bufBounds] s := by
  unfold opLdb
  split
  · exact .ok _ _
  · exact .raised (by decide) _ rfl

theorem opStb_inPlace (addr byte : Word) : (opStb addr byte s).FaultsInPlace [.illegalOperand, .bufBounds] s := by
  unfold opStb
  split
  · split
    · exact .ok _ _
    · exact .raised (by decide) _ rfl
  · exact .raised (by decide) _ rfl

theorem opLds_inPlace (index : Word) : (opLds index s).FaultsInPlace [.smpBounds] s := by
  unfold opLds
  split
  · exact .ok _ _
  · exact .raised (by decide) _ rfl

theorem opSts_inPlace (index sample : Word) :
    (opSts index sample s).FaultsInPlace [.illegalOperand, .smpBounds] s := by
  unfold opSts
  split
  · split
    · exact .ok _ _
    · exact .raised (by decide) _ rfl
  · exact .raised (by decide) _ rfl

theorem opSetpos_inPlace (byte bit : Nat) : (opSetpos byte bit s).FaultsInPlace [.illegalOperand] s := by
  unfold opSetpos
  split
  · split
    · exact .ok _ _
    · exact .raised (by decide) _ rfl
  · exact .raised (by decide) _ rfl

theorem putBits_inPlace (w : Nat) (f : Nat → Bool) : (putBits w f s).FaultsInPlace [.bufBounds] s := by
  unfold putBits
  split
  · exact .ok _ _
  · exact .raised (by decide) _ rfl

theorem takeBits_inPlace (w : Nat) : (takeBits w s).FaultsInPlace [.bufBounds] s := by
  unfold takeBits
  split
  · exact .ok _ _
  · exact .raised (by decide) _ rfl

theorem opWrbit_inPlace (v : Nat) : (opWrbit v s).FaultsInPlace [.illegalOperand, .bufBounds] s := by
  unfold opWrbit
  split
  · exact (putBits_inPlace 1 _).mono (by decide) fun _ => id
  · exact .raised (by decide) _ rfl

theorem opWruint_inPlace (width value : Nat) :
    (opWruint width value s).FaultsInPlace [.illegalOperand, .bufBounds] s := by
  unfold opWruint
  split
  · exact (putBits_inPlace width _).mono (by decide) fun _ => id
  · exact .raised (by decide) _ rfl

theorem opRduint_inPlace (width : Nat) : (opRduint width s).FaultsInPlace [.illegalOperand, .bufBounds] s := by
  unfold opRduint
  split
  · exact (takeBits_inPlace width).mono (by decide) fun _ => id
  · exact .raised (by decide) _ rfl

theorem opRdunary_inPlace : (opRdunary s).FaultsInPlace [.bufBounds] s := by
  unfold opRdunary
  split
  · exact .ok _ _
  · exact .raised (by decide) _ rfl

theorem opEstimate_inPlace (frame0 n ch : Nat) :
    (opEstimate frame0 n ch s).FaultsInPlace [.illegalOperand, .smpBounds] s := by
  unfold opEstimate
  split
  · split
    · split
      · exact .raised (by decide) _ rfl
      · exact .ok _ _
    · exact .raised (by decide) _ rfl
  · exact .raised (by decide) _ rfl

theorem opPrdenc_inPlace (sample : Word) : (opPrdenc sample s).FaultsInPlace [.illegalOperand] s := by
  unfold opPrdenc
  split
  · exact .ok _ _
  · exact .raised (by decide) _ rfl

theorem opPrddec_inPlace (diff : Word) : (opPrddec diff s).FaultsInPlace [.sampleRange] s := by
  unfold opPrddec
  split
  · exact .ok _ _
  · exact .raised (by decide) _ rfl

/-- `BPRL` is at most 31, so the field's width is legal. -/
theorem opWrk_inPlace : (opWrk s).FaultsInPlace [.bufBounds] s := by
  rw [opWrk_eq]
  split
  · exact .ok _ _
  · exact .raised (by decide) _ rfl

theorem opRdk_inPlace : (opRdk s).FaultsInPlace [.bufBounds] s := by
  rw [opRdk_eq]
  split
  · exact .ok _ _
  · exact .raised (by decide) _ rfl

theorem opRenc_of_k_gt {diff : Word} (hd : sext64 diff ≠ -(2 ^ 63)) (hk : 64 < s.k.toNat) :
    opRenc diff s = .raised .illegalOperand (word s.k.toNat) s :=
  (if_neg hd).trans (if_neg (Nat.not_le.mpr hk))

/-- The length of the codeword is checked before its first bit is written. -/
theorem opRenc_inPlace (hs : s.bufBits < 2 ^ 64) (diff : Word) :
    (opRenc diff s).FaultsInPlace [.illegalOperand, .bufBounds] s := by
  by_cases hd : sext64 diff = -(2 ^ 63)
  · have hraised : opRenc diff s = .raised .illegalOperand diff s := if_pos hd
    rw [hraised]
    exact .raised (by decide) _ rfl
  · by_cases hk : s.k.toNat ≤ 64
    · rw [opRenc_eq hs hd hk]
      split
      · exact .ok _ _
      · exact .raised (by decide) _ rfl
    · rw [opRenc_of_k_gt hd (Nat.not_le.mp hk)]
      exact .raised (by decide) _ rfl

theorem opRdec_of_k_gt (hk : 64 < s.k.toNat) : opRdec s = .raised .illegalOperand (word s.k.toNat) s :=
  if_neg (Nat.not_le.mpr hk)

/-- `RDEC` puts the cursor back, and nothing else has changed by then. -/
theorem opRdec_inPlace (hs : s.bufBits < 2 ^ 64) :
    (opRdec s).FaultsInPlace [.illegalOperand, .bufBounds, .sampleRange] s := by
  by_cases hk : s.k.toNat ≤ 64
  · rw [opRdec_eq hs hk]
    split
    · exact .raised (by decide) _ rfl
    · split
      · split
        · exact .ok _ _
        · exact .raised (by decide) _ rfl
      · exact .raised (by decide) _ rfl
  · rw [opRdec_of_k_gt (Nat.not_le.mp hk)]
    exact .raised (by decide) _ rfl

/-- A header always fits: `BUF` has at least 20 bytes. -/
theorem opWrhdr_inPlace (h : s.Inv) : (opWrhdr s).FaultsInPlace [] s := by
  rw [opWrhdr_eq h.small h.atLeastHeader]
  exact .ok _ _

theorem opRdhdr_inPlace (h : s.Inv) : (opRdhdr s).FaultsInPlace [] s := by
  rw [opRdhdr_eq h.small h.atLeastHeader]
  split
  · exact .ok _ _
  · exact .ok _ _

theorem checkStream_cause {c : Cause} {info : Word} {t : State} (h : checkStream s = .raised c info t) :
    c = .invalidParams ∨ c = .resource := by
  unfold checkStream at h
  split at h
  · cases h
    exact .inl rfl
  · split at h <;> cases h
    exact .inr rfl

/-! ## The composite bodies

A step of one is raised from a state that differs from the first one, so what the steps need is carried along: positions
that do not wrap in the coding and decoding loops, the configuration and the number of channels in the block loop. -/

/-- Positions of `BUF` do not wrap, which every legal configuration gives. -/
def State.Addressable (t : State) : Prop := t.bufBits < 2 ^ 64

theorem encSamples_raisesOnly (hs : s.Addressable) (xs : List Int) :
    (encSamples xs s).RaisesOnly [.illegalOperand, .bufBounds] := by
  induction xs generalizing s with
  | nil => exact .ok _ _
  | cons x xs ih =>
    exact ((opRenc_inPlace hs _).raisesOnly (by decide)).andThen (R := State.Addressable)
      (opRenc_keeps (fun _ _ ht => ht) (fun _ _ ht => ht) _ hs) fun _ _ ht => ih ht

theorem opEncblk_raisesOnly (hs : s.Addressable) (frame0 n ch : Nat) :
    (opEncblk frame0 n ch s).RaisesOnly [.illegalOperand, .bufBounds, .smpBounds] := by
  unfold opEncblk
  split
  · split
    · refine ((opEstimate_inPlace frame0 n ch).raisesOnly (by decide)).andThen (R := State.Addressable)
        (opEstimate_keeps (fun _ _ _ _ ht => ht) frame0 n ch hs) fun _ t ht => ?_
      refine (opWrk_inPlace.raisesOnly (by decide)).andThen (R := State.Addressable)
        (opWrk_keeps (fun _ _ hu => hu) (fun _ _ hu => hu) ht) fun _ u hu => ?_
      exact ((encSamples_raisesOnly (s := u.withPrev 0) hu _).raisesOnly (by decide)).andThen_result _
    · exact .raised (by decide) _ trivial
  · exact .raised (by decide) _ trivial

theorem decSamples_raisesOnly (hs : s.Addressable) (frame0 ch n i : Nat) :
    (decSamples frame0 ch n i s).RaisesOnly [.illegalOperand, .bufBounds, .sampleRange] := by
  induction n generalizing s i with
  | zero => exact .ok _ _
  | succ n ih =>
    refine ((opRdec_inPlace hs).raisesOnly (by decide)).andThen (R := State.Addressable)
      (opRdec_keeps (fun _ _ ht => ht) hs) fun d t ht => ?_
    unfold opPrddec
    split
    · rw [Done.andThen_ok]
      refine ih ?_ _
      exact ht
    · exact .raised (by decide) _ trivial

/-- `DECBLK` raises `SmpBounds` only where an index of its block is outside `SMP`. -/
theorem opDecblk_raisesOnly_of_indices (hs : s.Addressable) {frame0 n ch : Nat}
    (hcs : [.illegalOperand, .bufBounds, .sampleRange] ⊆ cs)
    (hout : ch < s.channels.toNat → firstOutside s frame0 ch n 0 ≠ none → .smpBounds ∈ cs) :
    (opDecblk frame0 n ch s).RaisesOnly cs := by
  unfold opDecblk
  split
  · split
    next hc =>
      split
      next index hi => exact .raised (hout hc (by simp [hi])) _ trivial
      next =>
        refine (opRdk_inPlace.raisesOnly (List.Subset.trans (by decide) hcs)).andThen (R := State.Addressable)
          (opRdk_keeps (fun _ _ ht => ht) (fun _ _ ht => ht) hs) fun _ t ht => ?_
        exact ((decSamples_raisesOnly (s := t.withPrev 0) ht _ _ _ _).raisesOnly hcs).andThen_result _
    next => exact .raised (hcs (by decide)) _ trivial
  · exact .raised (hcs (by decide)) _ trivial

theorem opDecblk_raisesOnly (hs : s.Addressable) (frame0 n ch : Nat) :
    (opDecblk frame0 n ch s).RaisesOnly [.illegalOperand, .bufBounds, .smpBounds, .sampleRange] :=
  opDecblk_raisesOnly_of_indices hs (by decide) fun _ _ => by decide

theorem overChannels_raisesOnly {R : State → Prop} {cmd : Nat → State → Done Nat}
    (hkeep : ∀ c t, R t → R (cmd c t).state) (hcmd : ∀ c t, R t → (cmd c t).RaisesOnly cs) (todo c : Nat) (h : R s) :
    (overChannels cmd todo c s).RaisesOnly cs := by
  induction todo generalizing s c with
  | zero => exact .ok _ _
  | succ todo ih => exact (hcmd c s h).andThen (hkeep c s h) fun _ _ ht => ih _ ht

/-- The block loop raises what its block commands raise on the blocks of the stream; the alignment raises nothing. -/
theorem overBlocks_raisesOnly {R : State → Prop} {cmd : Nat → Nat → Nat → State → Done Nat} {count : Nat}
    (hseek : ∀ t p, R t → R (t.seek p)) (hkeep : ∀ frame0 n c t, R t → R (cmd frame0 n c t).state)
    (hcmd : ∀ b c t, R t → (cmd (blockSize * b) (blockFrames count b) c t).RaisesOnly cs) (align : Bool)
    (channels todo b : Nat) (h : R s) : (overBlocks cmd align count channels todo b s).RaisesOnly cs := by
  induction todo generalizing s b with
  | zero => exact .ok _ _
  | succ todo ih =>
    refine (overChannels_raisesOnly (hkeep _ _) (hcmd b) channels 0 h).andThen
      (overChannels_keeps (hkeep _ _) channels 0 h) fun _ t ht => ?_
    split
    · rw [opAlign_eq]
      exact ih _ (hseek _ _ ht)
    · exact ih _ ht

/-- What the block loop of `DECODE` keeps of the state `d` it starts in, as far as its causes depend on it. -/
def State.SameShape (d t : State) : Prop := t.cfg = d.cfg ∧ t.channels = d.channels

theorem State.SameShape.bufBits {d t : State} (h : d.SameShape t) : t.bufBits = d.bufBits := by
  rw [State.bufBits, State.bufBits, h.1]

/-- A stream that fits in `SMP` has no block with an index outside it. -/
theorem DecReady.firstOutside_eq_none {d t : State} (hr : DecReady d) (ht : d.SameShape t) {c : Nat}
    (hc : c < t.channels.toNat) (b : Nat) :
    firstOutside t (blockSize * b) c (blockFrames d.count.toNat b) 0 = none := by
  obtain ⟨hcfg, hchannels⟩ := ht
  rw [hchannels] at hc
  refine Machine.firstOutside_eq_none.mpr fun j hj => ?_
  rw [State.smpIndex, hchannels, hcfg]
  exact hr.index hj hc

theorem opDecblk_keeps_sameShape {d t : State} (frame0 n ch : Nat) (ht : d.SameShape t) :
    d.SameShape (opDecblk frame0 n ch t).state :=
  opDecblk_keeps (fun _ _ hu => hu) (fun _ _ hu => hu) (fun _ _ hu => hu) (fun _ _ hu => hu) frame0 n ch ht

/-- Past the checks `DECODE` raises what decoding a record inside `SMP` raises. -/
theorem State.HeaderPasses.opDecode_raisesOnly (h : s.HeaderPasses) :
    (opDecode s).RaisesOnly [.illegalOperand, .bufBounds, .sampleRange] := by
  rw [h.opDecode_eq]
  have hready := h.ready
  generalize s.loaded = d at hready ⊢
  have hloop := overBlocks_raisesOnly (R := d.SameShape) (cmd := opDecblk) (count := d.count.toNat)
    (fun _ _ ht => ht) (fun frame0 n c _ ht => opDecblk_keeps_sameShape frame0 n c ht)
    (fun b c t ht => opDecblk_raisesOnly_of_indices (ht.bufBits.trans_lt hready.small) (List.Subset.refl _)
      fun hc hout => absurd (hready.firstOutside_eq_none ht hc b) hout)
    d.cfg.decAlign d.channels.toNat (blockCount d.count.toNat) 0 ⟨rfl, rfl⟩
  exact hloop.andThen_result _

theorem opDecode_raisesOnly (h : s.Inv) :
    (opDecode s).RaisesOnly
      [.illegalOperand, .bufBounds, .invalidParams, .sampleRange, .notRecognized, .resource] := by
  by_cases hm : fieldAt s.buf 0 32 = magic
  · cases hd : checkStream s.loaded with
    | raised c info t =>
      rw [opDecode_of_check_raised h hm hd]
      obtain rfl | rfl := checkStream_cause hd
      · exact .raised (by decide) _ trivial
      · exact .raised (by decide) _ trivial
    | ok a t =>
      obtain ⟨-, ⟨hc, hb, hr, hn⟩, hcap⟩ := of_checkStream_eq_ok hd
      have hpasses : s.HeaderPasses := ⟨h, hm, hc, hb, hr, hn, hcap⟩
      exact hpasses.opDecode_raisesOnly.raisesOnly (by decide)
  · rw [opDecode_of_mismatch h hm]
    exact .raised (by decide) _ trivial

/-- Past the checks `ENCODE` completes or runs out of `BUF`. -/
theorem opEncode_raisesOnly (h : s.Inv) : (opEncode s).RaisesOnly [.bufBounds, .invalidParams, .resource] := by
  cases hd : checkStream s with
  | raised c info t =>
    rw [opEncode, hd]
    obtain rfl | rfl := checkStream_cause hd
    · exact .raised (by decide) _ trivial
    · exact .raised (by decide) _ trivial
  | ok a t =>
    obtain ⟨-, ⟨hc, hb, hr, hn⟩, hcap⟩ := of_checkStream_eq_ok hd
    by_cases hfit : s.encodedStream.length ≤ s.bufBits
    · obtain ⟨t, hop, -⟩ := opEncode_fits h hc hb hr hn hcap hfit
      rw [hop]
      exact .ok _ _
    · obtain ⟨b, c, -, -, B, t, -, hop⟩ := opEncode_overflow h hc hb hr hn hcap (Nat.not_le.mp hfit)
      rw [hop]
      exact .raised (by decide) _ trivial

/-! ## The whole command -/

/-- A command that ends so completes, or faults with one of the causes `cs` where its body has left a state of `P`. -/
inductive AnswersWithin (cs : List Cause) (P : State → Prop) : Host.Outcome State Fault Refusal → Prop where
  | completed (u : State) (r0 r1 : Word) : AnswersWithin cs P (.next (u.answered (okResponse r0 r1)))
  | faulted {c : Cause} {u : State} (hc : c ∈ cs) (info : Word) (hu : P u) :
      AnswersWithin cs P (.next (u.faulted c info))

theorem respond_answersWithin {r0 r1 : α → Word} {d : Done α} (h : d.FaultsWithin cs P) :
    AnswersWithin cs P (respond r0 r1 d) := by
  cases h with
  | ok a t => exact .completed t _ _
  | raised hc info ht => exact .faulted hc info ht

variable {i : Instr} {r0 r1 : α → Word} {d : Done α}

theorem respond_answersWithin_of_inPlace (h : d.FaultsInPlace cs s) :
    AnswersWithin cs (fun u => composite i = false → u = s) (respond r0 r1 d) :=
  respond_answersWithin (h.mono (List.Subset.refl cs) fun _ hu _ => hu)

theorem respond_answersWithin_of_composite (hi : composite i = true) (h : d.RaisesOnly cs) :
    AnswersWithin cs (fun u => composite i = false → u = s) (respond r0 r1 d) :=
  respond_answersWithin (h.mono (List.Subset.refl cs) fun _ _ hp => absurd (hi.symm.trans hp) (by decide))

/-- Every command faults only with a cause of its row of R202, and a precise one only where it has changed nothing. -/
theorem exec_answersWithin (h : s.Inv) (i : Instr) :
    AnswersWithin (raisedBy i) (fun u => composite i = false → u = s) (exec i s) := by
  cases i with
  | reset => exact .completed _ _ _
  | wrreg reg value => exact respond_answersWithin_of_inPlace (opWrreg_inPlace reg value)
  | rdreg reg => exact respond_answersWithin_of_inPlace (opRdreg_inPlace reg)
  | ldb addr => exact respond_answersWithin_of_inPlace (opLdb_inPlace addr)
  | stb addr byte => exact respond_answersWithin_of_inPlace (opStb_inPlace addr byte)
  | lds index => exact respond_answersWithin_of_inPlace (opLds_inPlace index)
  | sts index sample => exact respond_answersWithin_of_inPlace (opSts_inPlace index sample)
  | setpos byte bit => exact respond_answersWithin_of_inPlace (opSetpos_inPlace _ _)
  | getpos => exact .completed _ _ _
  | wrbit v => exact respond_answersWithin_of_inPlace (opWrbit_inPlace _)
  | rdbit => exact respond_answersWithin_of_inPlace (takeBits_inPlace 1)
  | wruint width value => exact respond_answersWithin_of_inPlace (opWruint_inPlace _ _)
  | rduint width => exact respond_answersWithin_of_inPlace (opRduint_inPlace _)
  | wrones count => exact respond_answersWithin_of_inPlace (putBits_inPlace _ _)
  | rdunary => exact respond_answersWithin_of_inPlace opRdunary_inPlace
  | align => rw [exec_align]; exact .completed _ _ _
  | bitlen n => exact .completed _ _ _
  | wrhdr => exact respond_answersWithin_of_inPlace (opWrhdr_inPlace h)
  | rdhdr => exact respond_answersWithin_of_inPlace (opRdhdr_inPlace h)
  | estimate frame0 n ch => exact respond_answersWithin_of_inPlace (opEstimate_inPlace _ _ _)
  | prdrst => exact .completed _ _ _
  | prdenc sample => exact respond_answersWithin_of_inPlace (opPrdenc_inPlace sample)
  | prddec diff => exact respond_answersWithin_of_inPlace (opPrddec_inPlace diff)
  | wrk => exact respond_answersWithin_of_inPlace opWrk_inPlace
  | rdk => exact respond_answersWithin_of_inPlace opRdk_inPlace
  | renc diff => exact respond_answersWithin_of_inPlace (opRenc_inPlace h.small diff)
  | rdec => exact respond_answersWithin_of_inPlace (opRdec_inPlace h.small)
  | encblk frame0 n ch => exact respond_answersWithin_of_composite rfl (opEncblk_raisesOnly h.small _ _ _)
  | decblk frame0 n ch => exact respond_answersWithin_of_composite rfl (opDecblk_raisesOnly h.small _ _ _)
  | encode => exact respond_answersWithin_of_composite rfl (opEncode_raisesOnly h)
  | decode => exact respond_answersWithin_of_composite rfl (opDecode_raisesOnly h)

/-- Settles O16. -/
theorem onlyTabledCausesAreRaised : Obligations.OnlyTabledCausesAreRaised := by
  intro i s t r h ht hr
  have hends := exec_answersWithin h i
  rw [ht] at hends
  cases hends with
  | completed u r0 r1 => cases hr; exact .inl rfl
  | faulted hc info hu => cases hr; exact .inr ⟨_, hc, rfl⟩

/-- Settles O14: the fault is taken in the state the command began in, and taking it leaves `HDR_OK`. -/
theorem preciseCommandsChangeNothingOnFault : Obligations.PreciseCommandsChangeNothingOnFault := by
  intro i s t r h hi ht hr h0
  have hends := exec_answersWithin h i
  rw [ht] at hends
  cases hends with
  | completed u r0 r1 => cases hr; exact absurd rfl h0
  | faulted hc info hu =>
    obtain rfl := hu hi
    exact ⟨rfl, logFault_hdrOk _ _⟩

end Sys2Proof.Machine
end

section
/-! PROOF. A command changes only the pieces of state its rule names as written, and the fault log (the frames of R100
to R182). -/

namespace Sys2Proof.Machine

variable {ws : List Target} {s t : State}

/-- Of the constants, the words still to be issued and the pieces of state that a rule can name, `t` differs from `s` in
the targets listed in `ws` at most. Of `STATUS` only `HDR_OK` is meant: every command can write the log. -/
structure ChangedOnly (ws : List Target) (s t : State) : Prop where
  cfg : t.cfg = s.cfg
  pending : t.pending = s.pending
  cursor : .cursor ∉ ws → t.curByte = s.curByte ∧ t.curBit = s.curBit
  k : .k ∉ ws → t.k = s.k
  prev : .prev ∉ ws → t.prev = s.prev
  estimate : .estimate ∉ ws → t.acc = s.acc ∧ t.avg = s.avg
  params : .params ∉ ws → t.channels = s.channels ∧ t.bps = s.bps ∧ t.rate = s.rate ∧ t.count = s.count
  hdrOk : .hdrOk ∉ ws → t.status.hdrOk = s.status.hdrOk
  buf : .buf ∉ ws → t.buf = s.buf
  smp : .smp ∉ ws → t.smp = s.smp

namespace ChangedOnly

theorem refl (ws : List Target) (s : State) : ChangedOnly ws s s :=
  ⟨rfl, rfl, fun _ => ⟨rfl, rfl⟩, fun _ => rfl, fun _ => rfl, fun _ => ⟨rfl, rfl⟩, fun _ => ⟨rfl, rfl, rfl, rfl⟩,
    fun _ => rfl, fun _ => rfl, fun _ => rfl⟩

/-! ### The end of a command -/

theorem answered (h : ChangedOnly ws s t) (r : Response) : ChangedOnly ws s (t.answered r) := { h with }

theorem withStatus_logFault (h : ChangedOnly ws s t) (c : Cause) :
    ChangedOnly ws s (t.withStatus (logFault c t.status)) :=
  { h with hdrOk := fun hn => (logFault_hdrOk c t.status).trans (h.hdrOk hn) }

/-! ### Updates of a listed target -/

theorem seek (h : ChangedOnly ws s t) (hw : .cursor ∈ ws) (p : Nat) : ChangedOnly ws s (t.seek p) :=
  { h with cursor := fun hn => absurd hw hn }

theorem set_k (h : ChangedOnly ws s t) (hw : .k ∈ ws) (v : BitVec 32) : ChangedOnly ws s { t with k := v } :=
  { h with k := fun hn => absurd hw hn }

theorem set_prev (h : ChangedOnly ws s t) (hw : .prev ∈ ws) (x : Int) : ChangedOnly ws s { t with prev := x } :=
  { h with prev := fun hn => absurd hw hn }

theorem set_estimate (h : ChangedOnly ws s t) (hw : .estimate ∈ ws) (acc avg : BitVec 64) :
    ChangedOnly ws s { t with acc := acc, avg := avg } :=
  { h with estimate := fun hn => absurd hw hn }

theorem set_params (h : ChangedOnly ws s t) (hw : .params ∈ ws) (channels bps rate : BitVec 32) (count : BitVec 64) :
    ChangedOnly ws s { t with channels := channels, bps := bps, rate := rate, count := count } :=
  { h with params := fun hn => absurd hw hn }

theorem withStatus_setHdrOk (h : ChangedOnly ws s t) (hw : .hdrOk ∈ ws) (b : Bool) :
    ChangedOnly ws s (t.withStatus (setHdrOk b t.status)) :=
  { h with hdrOk := fun hn => absurd hw hn }

theorem withBuf (h : ChangedOnly ws s t) (hw : .buf ∈ ws) (m : List Host.Cell) : ChangedOnly ws s (t.withBuf m) :=
  { h with buf := fun hn => absurd hw hn }

theorem withSmp (h : ChangedOnly ws s t) (hw : .smp ∈ ws) (m : List (Nat × Int)) : ChangedOnly ws s (t.withSmp m) :=
  { h with smp := fun hn => absurd hw hn }

/-- `RESET` writes every target but the two memories, which it keeps (R100). -/
theorem resetRegisters (h : ChangedOnly (writes .reset) s t) : ChangedOnly (writes .reset) s t.resetRegisters :=
  { h with
    cursor := fun hn => absurd (by simp [writes]) hn
    k := fun hn => absurd (by simp [writes]) hn
    prev := fun hn => absurd (by simp [writes]) hn
    estimate := fun hn => absurd (by simp [writes]) hn
    params := fun hn => absurd (by simp [writes]) hn
    hdrOk := fun hn => absurd (by simp [writes]) hn }

end ChangedOnly

/-- Every update a command makes is of a target its rule names, or ends the command. -/
theorem exec_changedOnly_writes {i : Instr} (ht : exec i s = .next t) : ChangedOnly (writes i) s t :=
  exec_keeps (P := ChangedOnly (writes i) s) i
    (hans := fun _ r hu => hu.answered r)
    (hlog := fun _ c hu => hu.withStatus_logFault c)
    (hseek := fun hw _ p hu => hu.seek hw p)
    (hk := fun hw _ v hu => hu.set_k hw v)
    (hprev := fun hw _ x hu => hu.set_prev hw x)
    (hest := fun hw _ acc avg hu => hu.set_estimate hw acc avg)
    (hpar := fun hw _ channels bps rate count hu => hu.set_params hw channels bps rate count)
    (hhdr := fun hw _ b hu => hu.withStatus_setHdrOk hw b)
    (hbuf := fun hw _ m hu => hu.withBuf hw m)
    (hsmp := fun hw _ m hu => hu.withSmp hw m)
    (hreset := fun hi u hu => by subst hi; exact hu.resetRegisters)
    ht (.refl _ _)

/-- Settles O17. -/
theorem onlyNamedTargetsChange : Obligations.OnlyNamedTargetsChange := by
  intro i s t ht
  obtain ⟨hcfg, hpending, hcursor, hk, hprev, hestimate, hparams, hhdrOk, hbuf, hsmp⟩ := exec_changedOnly_writes ht
  exact ⟨⟨hcfg, hpending⟩, hcursor, hk, hprev, hestimate, hparams, hhdrOk, hbuf, hsmp⟩

end Sys2Proof.Machine
end
